-- ==== Sys2Proof/Word.lean ====
section
/-! DEFINITION. The word type of the block. Register memory is byte-addressable (R8, R26) and the command stream is a
stream of bytes (R101); every other quantity is an unsigned natural or an exact rational (R9). -/

namespace Sys2Proof

/-- A byte: 8 bits, bit 0 the least significant (R9). -/
abbrev Byte := BitVec 8

/-- A word address of the CPU core's program memory: 16 bits (R21, R165). -/
abbrev WordAddress := BitVec 16

end Sys2Proof
end

