-- ==== Sys2Proof/Config.lean ====
section
/-! DEFINITION. The implementation parameters of R7, one field each, with R7's defaults. A block carries its
configuration in `Machine.State.cfg`, and every operation takes it from there; `config` is R7's default column. -/

namespace Sys2Proof

/-- The two timer instances of R27 and R120. -/
inductive TimerId where
  | t0
  | t1
  deriving DecidableEq, Repr

/-- The two compare channels of each timer (R120). -/
inductive CompareChannel where
  | a
  | b
  deriving DecidableEq, Repr

/-- The three events a timer detects (R120, R305). -/
inductive TimerEvent where
  | compA
  | compB
  | overflow
  deriving DecidableEq, Repr

/-- The six known interrupt vectors, named as in R97. -/
inductive IrqVector where
  | timer1CompA
  | timer1CompB
  | timer1Ovf
  | timer0CompA
  | timer0CompB
  | timer0Ovf
  deriving DecidableEq, Repr

/-- The cursor behaviour at the end of a display's row (R50, R207). -/
inductive Addressing where
  | wrap
  | clamp
  deriving DecidableEq, Repr

/-- One row of the vector table of R7 and R97. The flag bit is a bit of the TIFRn of the vector's timer, the mask bit a
bit of its TIMSKn (R120, R135). -/
structure VectorRow where
  id : Nat
  priority : Nat
  handlerAddress : WordAddress
  flagBit : Nat
  maskBit : Nat
  deriving DecidableEq, Repr

/-- The vector table of R97, one row for each of the six sources of R305, with its defaults. -/
structure VectorTable where
  timer1CompA : VectorRow := ⟨11, 11, 0x0016, 1, 1⟩
  timer1CompB : VectorRow := ⟨12, 12, 0x0018, 2, 2⟩
  timer1Ovf : VectorRow := ⟨13, 13, 0x001A, 0, 0⟩
  timer0CompA : VectorRow := ⟨14, 14, 0x001C, 1, 1⟩
  timer0CompB : VectorRow := ⟨15, 15, 0x001E, 2, 2⟩
  timer0Ovf : VectorRow := ⟨16, 16, 0x0020, 0, 0⟩
  deriving DecidableEq, Repr

/-- The row of a vector. -/
def VectorTable.row (T : VectorTable) : IrqVector → VectorRow
  | .timer1CompA => T.timer1CompA
  | .timer1CompB => T.timer1CompB
  | .timer1Ovf => T.timer1Ovf
  | .timer0CompA => T.timer0CompA
  | .timer0CompB => T.timer0CompB
  | .timer0Ovf => T.timer0Ovf

/-- The register map of R30: one address per register, the low byte's for a 16-bit register (R70). -/
structure RegMap where
  portb : Nat := 0x25
  portc : Nat := 0x28
  portd : Nat := 0x2B
  tifr0 : Nat := 0x35
  tifr1 : Nat := 0x36
  tccr0a : Nat := 0x44
  tccr0b : Nat := 0x45
  tcnt0 : Nat := 0x46
  ocr0a : Nat := 0x47
  ocr0b : Nat := 0x48
  sreg : Nat := 0x5F
  timsk0 : Nat := 0x6E
  timsk1 : Nat := 0x6F
  tccr1a : Nat := 0x80
  tccr1b : Nat := 0x81
  tcnt1 : Nat := 0x84
  icr1 : Nat := 0x86
  ocr1a : Nat := 0x88
  ocr1b : Nat := 0x8A
  deriving DecidableEq, Repr

/-- The registers of R30, by name. `RegMap` gives their addresses. -/
inductive Register where
  | portb
  | portc
  | portd
  | tifr0
  | tifr1
  | tccr0a
  | tccr0b
  | tcnt0
  | ocr0a
  | ocr0b
  | sreg
  | timsk0
  | timsk1
  | tccr1a
  | tccr1b
  | tcnt1
  | icr1
  | ocr1a
  | ocr1b
  deriving DecidableEq, Repr

/-- The port registers of R30 and R99. -/
inductive Port where
  | b
  | c
  | d
  deriving DecidableEq, Repr

/-- One row of the pin map of R7 and R99: a board pin, its port register and its bit. The port is named, and its
address is `RegMap`'s, so that the block reads no address outside `RegMap` (R30, R75). [DEDUCED, log entry 19; unsafe
under another `RegMap`] -/
structure PinRow where
  pin : Nat
  port : Port
  bit : Fin 8
  deriving DecidableEq, Repr

/-- The pin map of R99: board pins 0 to 7 on PORTD, 8 to 13 on PORTB, 14 to 19 on PORTC. -/
def defaultPinMap : List PinRow :=
  [⟨0, .d, 0⟩, ⟨1, .d, 1⟩, ⟨2, .d, 2⟩, ⟨3, .d, 3⟩, ⟨4, .d, 4⟩, ⟨5, .d, 5⟩, ⟨6, .d, 6⟩, ⟨7, .d, 7⟩,
    ⟨8, .b, 0⟩, ⟨9, .b, 1⟩, ⟨10, .b, 2⟩, ⟨11, .b, 3⟩, ⟨12, .b, 4⟩, ⟨13, .b, 5⟩,
    ⟨14, .c, 0⟩, ⟨15, .c, 1⟩, ⟨16, .c, 2⟩, ⟨17, .c, 3⟩, ⟨18, .c, 4⟩, ⟨19, .c, 5⟩]

/-- The class of an observed register (R181). -/
inductive ObservedClass where
  | port
  | value
  deriving DecidableEq, Repr

/-- One row of the observed-register list of R181. The register is named: its width is R30's and its address
`RegMap`'s, so that the bridge reads no address outside `RegMap` (R30, R75). [DEDUCED, log entry 19; unsafe under
another `RegMap`] -/
structure ObservedReg where
  reg : Register
  cls : ObservedClass
  deriving DecidableEq, Repr

/-- The registration defaults of a servo (R7, D51), used by a caller that omits a value (R281). Rationals are counts
of thousandths, as the command stream carries them (R101). -/
structure ServoDefaults where
  speedMilli : Nat := 300000
  deadbandMilli : Nat := 1000
  maxTorqueMilli : Nat := 0
  loadMilli : Nat := 0
  armMilli : Nat := 0
  periodMicros : Nat := 20000
  initialAngleMilli : Nat := 0
  deriving DecidableEq, Repr

/-- The configuration record of R7. -/
structure Config where
  regMemSize : Nat := 0x100
  reg : RegMap := {}
  fCpu : Nat := 16000000
  t0Width : Nat := 8
  t1Width : Nat := 16
  /-- PRESCALERS without "off": the divisors of the clock selects 1, 2, ... in order (R92). -/
  prescalers : List Nat := [1, 8, 64, 256, 1024]
  vectorTable : VectorTable := {}
  pinMap : List PinRow := defaultPinMap
  observedRegs : List ObservedReg :=
    [⟨.portb, .port⟩, ⟨.portc, .port⟩, ⟨.portd, .port⟩, ⟨.ocr0a, .value⟩, ⟨.ocr0b, .value⟩, ⟨.icr1, .value⟩,
      ⟨.ocr1a, .value⟩, ⟨.ocr1b, .value⟩]
  pulseMinUs : Nat := 700
  pulseMaxUs : Nat := 2500
  pulseAt0Us : Nat := 1000
  pulseAt180Us : Nat := 2000
  notifyThresholdDeg : ℚ := 1 / 2
  lcdDefaultRows : Nat := 2
  lcdDefaultCols : Nat := 16
  lcdAddressing : Addressing := .wrap
  servoDefaults : ServoDefaults := {}
  deriving DecidableEq, Repr

/-- Every default of R7: the configuration of `Machine.State.reset`. -/
def config : Config := {}

end Sys2Proof
end

