-- ==== Sys2Proof/Syntax.lean ====
section
/-! DEFINITION. The instructions: one constructor per row of spec/opcode_table.json. The first 19 are the commands of
the command stream (R102), with operands in the order R102 lists them; the last ten are the bytes of the display
protocol (R107, R108), each with the handle of the display whose data lines carry it (R205). -/

namespace Sys2Proof

/-- The meaning of a byte on a display's data lines (R107, R108), with every field of the byte. -/
inductive DisplayOp where
  | unknown
  | clear
  /-- `x` is bit 0, ignored. -/
  | home (x : Bool)
  | entryModeSet (id s : Bool)
  | displayControl (d c b : Bool)
  /-- `x` is bits 1:0, ignored. -/
  | cursorDisplayShift (sc rl : Bool) (x : BitVec 2)
  /-- `x` is bits 1:0, ignored. -/
  | functionSet (dl n f : Bool) (x : BitVec 2)
  | setCgramAddress (address : BitVec 6)
  | setDdramAddress (address : BitVec 7)
  | writeData (char : Byte)
  deriving DecidableEq, Repr

/-- The instructions. Cycle counts, addresses, pins, handles and microseconds are naturals (R9); `WellFormed` says
which fit the command stream. A rational operand is a count of thousandths (R101). -/
inductive Instr where
  /-- R286 -/
  | reset
  /-- R271 -/
  | step (n : Nat)
  /-- R285 -/
  | memwrite (a : Nat) (v : Byte)
  /-- R250 -/
  | motion
  /-- R140 -/
  | tick (t : TimerId) (n : Nat)
  /-- R162 -/
  | raise (v : Nat)
  /-- R163 -/
  | setgie (b : Bool)
  /-- R164 -/
  | dispatch
  /-- R167 -/
  | reti
  /-- R180 -/
  | observe
  /-- R200; `level` true is level 1 -/
  | pinchange (pin : Nat) (level : Bool) (ts : Nat)
  /-- R240 -/
  | regchange (a old new : Nat)
  /-- R280; `d` lists the data pins, most significant line first -/
  | regdisplay (rs en : Nat) (d : List Nat) (rows cols : Nat) (mode : Addressing)
  /-- R281; speed, deadband, maxTorque, load, arm and initAngle in thousandths, period in microseconds -/
  | regservo (pin speed deadband maxTorque load arm period initAngle : Nat)
  /-- R282 -/
  | unreg (h : Nat)
  /-- R283; load and arm in thousandths -/
  | setload (h load arm : Nat)
  /-- R277 -/
  | timetick (n : Nat)
  /-- R278 -/
  | nowus
  /-- R278 -/
  | nowms
  /-- Command byte 0x00 (R217) -/
  | lcdUnknown (h : Nat)
  /-- R210 -/
  | lcdClear (h : Nat)
  /-- R210 -/
  | lcdHome (h : Nat) (x : Bool)
  /-- R211 -/
  | lcdEntryModeSet (h : Nat) (id s : Bool)
  /-- R212 -/
  | lcdDisplayControl (h : Nat) (d c b : Bool)
  /-- R213 -/
  | lcdCursorDisplayShift (h : Nat) (sc rl : Bool) (x : BitVec 2)
  /-- R214 -/
  | lcdFunctionSet (h : Nat) (dl n f : Bool) (x : BitVec 2)
  /-- R215 -/
  | lcdSetCgramAddress (h : Nat) (address : BitVec 6)
  /-- R216 -/
  | lcdSetDdramAddress (h : Nat) (address : BitVec 7)
  /-- R206 -/
  | lcdWriteData (h : Nat) (char : Byte)
  deriving DecidableEq, Repr

/-- The instruction that a display byte of meaning `op` is on display `h`. -/
def DisplayOp.toInstr (h : Nat) : DisplayOp → Instr
  | .unknown => .lcdUnknown h
  | .clear => .lcdClear h
  | .home x => .lcdHome h x
  | .entryModeSet id s => .lcdEntryModeSet h id s
  | .displayControl d c b => .lcdDisplayControl h d c b
  | .cursorDisplayShift sc rl x => .lcdCursorDisplayShift h sc rl x
  | .functionSet dl n f x => .lcdFunctionSet h dl n f x
  | .setCgramAddress a => .lcdSetCgramAddress h a
  | .setDdramAddress a => .lcdSetDdramAddress h a
  | .writeData c => .lcdWriteData h c

/-- Where an instruction's bytes come from: the command stream (R101), or the data lines of the display with the
given handle, at the given register-select level (R106). -/
inductive Source where
  | stream
  | lines (h : Nat) (rs : Bool)
  deriving DecidableEq, Repr

/-- The source of an instruction. Register-select is 0 for a command byte and 1 for a data byte (R205). -/
def Instr.source : Instr → Source
  | .reset | .step _ | .memwrite _ _ | .motion | .tick _ _ | .raise _ | .setgie _ | .dispatch | .reti | .observe
  | .pinchange _ _ _ | .regchange _ _ _ | .regdisplay _ _ _ _ _ _ | .regservo _ _ _ _ _ _ _ _ | .unreg _
  | .setload _ _ _ | .timetick _ | .nowus | .nowms => .stream
  | .lcdUnknown h | .lcdClear h | .lcdHome h _ | .lcdEntryModeSet h _ _ | .lcdDisplayControl h _ _ _
  | .lcdCursorDisplayShift h _ _ _ | .lcdFunctionSet h _ _ _ _ | .lcdSetCgramAddress h _
  | .lcdSetDdramAddress h _ => .lines h false
  | .lcdWriteData h _ => .lines h true

/-- The registration a caller of the servo API makes when it names only the signal pin: R7's defaults (R281). -/
def Instr.regservoDefault (c : Config) (pin : Nat) : Instr :=
  let d := c.servoDefaults
  .regservo pin d.speedMilli d.deadbandMilli d.maxTorqueMilli d.loadMilli d.armMilli d.periodMicros
    d.initialAngleMilli

/-- The registration a caller of the display API makes when it gives no geometry and no addressing mode: R7's
defaults, where 0 rows or columns select the default geometry (R280). -/
def Instr.regdisplayDefault (c : Config) (rs en : Nat) (d : List Nat) : Instr :=
  .regdisplay rs en d 0 0 c.lcdAddressing

end Sys2Proof
end

