-- ==== Sys2Proof/Machine/State.lean ====
section
/-! DEFINITION. The state of the block as plain data: its configuration (R7), BlockState (R25) with every field of R26
to R55, and the model's own fields for the command stream still to come and the output already emitted. The faults and
refusals of a step. -/

namespace Sys2Proof.Machine

/-! ## Memory (R26) -/

/-- Sparse bytes by address: addresses strictly rising, no byte equal to what an unlisted address reads as (0, see
`Memory.read` in Ops.lean). Register memory and the observer's snapshot both have this form. -/
abbrev Memory := List Host.Cell

/-! ## Timers (R27) -/

/-- The decoded clock select (R27, R92): off, one of the divisors of R7's PRESCALERS, or unsupported. -/
inductive Prescaler where
  | off
  | divideBy (d : Nat)
  | unsupported
  deriving DecidableEq, Repr

/-- One timer's state (R27); T0 and T1 are two instances. -/
structure TimerState where
  counter : Nat
  prescaler : Prescaler
  top : Nat
  compareA : Nat
  compareB : Nat
  cycleRemainder : Nat
  overflowed : Bool
  matchA : Bool
  matchB : Bool
  countDown : Bool
  deriving DecidableEq, Repr

/-- A timer's state after reset (R65); `top` is 0xFF for T0 and 0xFFFF for T1. -/
def TimerState.reset (top : Nat) : TimerState :=
  { counter := 0, prescaler := .off, top := top, compareA := 0, compareB := 0, cycleRemainder := 0,
    overflowed := false, matchA := false, matchB := false, countDown := false }

/-! ## Interrupt controller (R40) -/

/-- The state of one vector (R40, R160). -/
inductive VecState where
  | idle
  | pending
  | inService
  deriving DecidableEq, Repr

/-- The interrupt controller's state (R40): one entry per vector of R97, and the global-enable mirror of R41. -/
structure IcState where
  timer1CompA : VecState
  timer1CompB : VecState
  timer1Ovf : VecState
  timer0CompA : VecState
  timer0CompB : VecState
  timer0Ovf : VecState
  gie : Bool
  deriving DecidableEq, Repr

/-- The interrupt controller after reset (R65). -/
def IcState.reset : IcState :=
  { timer1CompA := .idle, timer1CompB := .idle, timer1Ovf := .idle, timer0CompA := .idle, timer0CompB := .idle,
    timer0Ovf := .idle, gie := false }

/-! ## Time (R47) -/

/-- The authoritative time source (R47). -/
structure TimeState where
  totalCycles : Nat
  deriving DecidableEq, Repr

/-! ## Displays (R50) -/

/-- The number of data lines of a display (R50). -/
inductive BitMode where
  | four
  | eight
  deriving DecidableEq, Repr

/-- A position in a display's buffer (R50). -/
structure Cursor where
  row : Nat
  col : Nat
  deriving DecidableEq, Repr

/-- One display's state (R50): configuration fields, then runtime fields. -/
structure DisplayState where
  rsPin : Nat
  enPin : Nat
  dataPins : List Nat
  bitMode : BitMode
  rows : Nat
  cols : Nat
  addressing : Addressing
  pendingNibble : BitVec 4
  expectingHighNibble : Bool
  /-- `rows` lists of `cols` bytes. -/
  buffer : List (List Byte)
  cursor : Cursor
  displayOn : Bool
  cursorOn : Bool
  blinkOn : Bool
  deriving DecidableEq, Repr

/-- What a display notification carries (R205, R208). -/
structure DisplaySnapshot where
  buffer : List (List Byte)
  cursor : Cursor
  displayOn : Bool
  cursorOn : Bool
  blinkOn : Bool
  deriving DecidableEq, Repr

/-! ## Servos (R55) -/

/-- The timer channel that drives a servo (R55, R100). -/
structure ServoChannel where
  timer : TimerId
  chan : CompareChannel
  deriving DecidableEq, Repr

/-- One servo's state (R55): configuration fields, then host-writable and runtime fields. Angles, speeds, torques,
loads and lengths are exact rationals (R9). -/
structure ServoState where
  signalPin : Nat
  channel : Option ServoChannel
  speedDegPerSec : ℚ
  deadbandDeg : ℚ
  maxTorque : ℚ
  periodMicros : Nat
  initialAngle : ℚ
  /-- The load given at registration, to which reset returns `loadWeight` (R65). [DEDUCED, log entry 9; unsafe] -/
  initialLoadWeight : ℚ
  /-- The arm given at registration, to which reset returns `armLength` (R65). [DEDUCED, log entry 9; unsafe] -/
  initialArmLength : ℚ
  loadWeight : ℚ
  armLength : ℚ
  currentAngle : ℚ
  targetAngle : ℚ
  isStalled : Bool
  lastUpdateTimestamp : Nat
  lastPulseWidth : Nat
  lastPeriod : Nat
  lastPulseValid : Bool
  lastNotifiedAngle : ℚ
  deriving DecidableEq, Repr

/-! ## Device registry (R48) -/

inductive Device where
  | display (d : DisplayState)
  | servo (v : ServoState)
  deriving DecidableEq, Repr

/-- The device registry (R48): the finite map from handle to device, as a list with handles strictly rising. -/
structure DeviceRegistry where
  entries : List (Nat × Device)
  nextHandle : Nat
  deriving DecidableEq, Repr

/-! ## Output (R11, R270, R300) -/

/-- The warnings of R300, each with the info it records. -/
inductive Warning where
  | timerUnsupported (timer : TimerId) (mode clockSelect : Nat)
  | irqUnknownVector (v : Nat)
  | lcdUnknownOpcode (h : Nat) (byte : Byte)
  | lcdBadAddress (h address : Nat)
  | servoPulseRange (h pulseWidth : Nat)
  | servoNoTop (h mode : Nat)
  /-- The command's operands, in the order of R102. [DESIGN CHOICE, log entry 12; unsafe] -/
  | regBadConfig (operands : List Nat)
  | servoNoChannel (pin : Nat)
  deriving DecidableEq, Repr

/-- The output events of R270. -/
inductive Event where
  | warning (w : Warning)
  /-- R183; `level` true is level 1. -/
  | pinChange (pin : Nat) (level : Bool) (ts : Nat)
  /-- R184 -/
  | regChange (address old new : Nat)
  /-- R165 -/
  | dispatch (v : Nat) (handlerAddress : WordAddress)
  /-- The notification of a display (R208). `Notify` has one constructor per kind of device (log entry 15). -/
  | notifyDisplay (h : Nat) (snapshot : DisplaySnapshot)
  /-- The notification of a servo (R254). -/
  | notifyServo (h : Nat) (angle : ℚ)
  /-- R280, R281 -/
  | handle (h : Nat)
  /-- R278 -/
  | value (v : Nat)
  deriving DecidableEq, Repr

/-! ## The state -/

/-- The configuration of R7, the block state of R25, then the model's own fields. -/
structure State where
  /-- The parameters of R7, fixed for a block: no operation writes them. [DESIGN CHOICE, log entry 3: that they stand in
  the state; safe] -/
  cfg : Config
  /-- The register memory (R26). -/
  mem : Memory
  t0 : TimerState
  t1 : TimerState
  ic : IcState
  /-- The register snapshot (R45). -/
  snap : Memory
  time : TimeState
  devs : DeviceRegistry
  /-- MODEL: the command bytes the host has still to issue (R101, R290). [DESIGN CHOICE, log entry 1; safe] -/
  stream : List Byte
  /-- MODEL: how many command bytes have been consumed, for R103's "position". [DESIGN CHOICE, log entry 1; safe] -/
  pos : Nat
  /-- MODEL: the concatenated output, oldest event first (R270, R292). [DESIGN CHOICE, log entry 2; safe] -/
  out : List Event
  deriving DecidableEq, Repr

/-- A newly constructed block with the given configuration (R341): every field at its value of R65, an empty registry,
register memory assumed 0 in every byte (R31), the snapshot equal to it, and no command issued yet. -/
def State.resetWith (c : Config) : State :=
  { cfg := c, mem := [], t0 := TimerState.reset 0xFF, t1 := TimerState.reset 0xFFFF, ic := IcState.reset, snap := [],
    time := ⟨0⟩, devs := ⟨[], 1⟩, stream := [], pos := 0, out := [] }

/-- A newly constructed block (R341) with R7's defaults. -/
def State.reset : State := State.resetWith config

/-! ## Stops -/

/-- Faults. The block has none of its own (R270). -/
inductive Fault where
  /-- Raised by `execMemwrite` on an address outside the register memory, which no decoded command holds: the decoder
  refuses it (R104). Safe: the machine stops where the spec runs no operation. [DESIGN CHOICE, log entry 10] -/
  | outsideMemory (address : Nat)
  deriving DecidableEq, Repr

/-- Refusals. All but the first are the stream decoder's (R103, R104), raised before any operation runs. -/
inductive Refusal where
  /-- Raised by `exec` for an instruction without a meaning. Safe. No arm of this model raises it. -/
  | notModelled (mnemonic : String)
  /-- Raised by `step`: an opcode byte outside R102's map, with its position in the stream (R103). Safe: the spec
  refuses it too. -/
  | illegalOpcode (opcode : Byte) (position : Nat)
  /-- Raised by `step`: an operand value that R104 refuses, with the position of the command. Safe: the spec refuses
  it too. -/
  | illegalOperand (mnemonic : String) (position : Nat)
  /-- Raised by `step`: the stream ends inside a command. Safe: no operation runs. [DESIGN CHOICE, log entry 5] -/
  | truncatedCommand (mnemonic : String) (position : Nat)
  deriving DecidableEq, Repr

end Sys2Proof.Machine
end

