-- ==== Sys2Proof/WellFormed.lean ====
section
/-! DEFINITION. Which instructions have an encoding (operand widths of R101 and R102, legal operand values of R104),
and which configurations are accepted (R71, R98, log entry 3). -/

namespace Sys2Proof

/-- An unsigned operand of `bytes` bytes (R101). -/
def fitsBytes (bytes n : Nat) : Bool := decide (n < 256 ^ bytes)

/-- The operand checks of R101, R102 and R104, on a block with `c.regMemSize` bytes of register memory. Timer numbers,
levels, enable bits and modes cannot be out of range in `Instr`: their illegal encodings are refused by the decoder.
-/
def Instr.wellFormed (c : Config) : Instr → Bool
  | .step n | .tick _ n | .timetick n => fitsBytes 4 n
  | .memwrite a _ => fitsBytes 2 a && decide (a < c.regMemSize)
  | .raise v => fitsBytes 1 v
  | .pinchange pin _ ts => fitsBytes 1 pin && fitsBytes 4 ts
  | .regchange a old new => fitsBytes 2 a && fitsBytes 2 old && fitsBytes 2 new
  | .regdisplay rs en d rows cols _ =>
    fitsBytes 1 rs && fitsBytes 1 en && (d.length == 4 || d.length == 8) && d.all (fitsBytes 1) &&
      fitsBytes 1 rows && fitsBytes 1 cols
  | .regservo pin speed deadband maxTorque load arm period initAngle =>
    fitsBytes 1 pin && fitsBytes 4 speed && fitsBytes 4 deadband && fitsBytes 4 maxTorque && fitsBytes 4 load &&
      fitsBytes 4 arm && fitsBytes 4 period && fitsBytes 4 initAngle
  | .unreg h => fitsBytes 2 h
  | .setload h load arm => fitsBytes 2 h && fitsBytes 4 load && fitsBytes 4 arm
  | .reset | .motion | .setgie _ | .dispatch | .reti | .observe | .nowus | .nowms => true
  | .lcdUnknown _ | .lcdClear _ | .lcdHome _ _ | .lcdEntryModeSet _ _ _ | .lcdDisplayControl _ _ _ _
  | .lcdCursorDisplayShift _ _ _ _ | .lcdFunctionSet _ _ _ _ _ | .lcdSetCgramAddress _ _
  | .lcdSetDdramAddress _ _ | .lcdWriteData _ _ => true

/-- The instruction has an encoding that a block with configuration `c` decodes. -/
abbrev Instr.WellFormed (c : Config) (i : Instr) : Prop := i.wellFormed c = true

/-- All six vectors, in the order of R97's table. -/
def IrqVector.all : List IrqVector :=
  [.timer1CompA, .timer1CompB, .timer1Ovf, .timer0CompA, .timer0CompB, .timer0Ovf]

/-- Why a configuration is refused: the refusal of R98, that of R71, which is one case of `registerOutside`, and those
without which a parameter is not the kind of thing that R7 calls it. [DESIGN CHOICE, log entry 3: all but
`equalPriorities` and R71's case of `registerOutside`; safe] -/
inductive ConfigError where
  /-- Two vectors of the table have one priority (R98). -/
  | equalPriorities
  /-- A byte of a register lies outside the register memory. R71 refuses a 16-bit register at the last address. That an
  8-bit register at or beyond the end, and a 16-bit register beyond it, are refused too is the model's choice.
  [DESIGN CHOICE, log entry 3; safe] -/
  | registerOutside (address : Nat)
  /-- Two vectors of the table have one id, so that an id would not name a vector (R97). -/
  | equalIds
  /-- Two events of a timer share a flag bit, or a flag or mask bit is no bit of a byte (R97, R135). -/
  | badFlagBits
  /-- Two registers of the map share a byte (R30). -/
  | sharedByte
  /-- A counter width other than the two that R8 fixes. -/
  | counterWidth
  /-- A parameter that a rule divides by is zero (R92, R243, R276). -/
  | zeroDivisor
  /-- Two rows of the pin map share a pin or a port bit, so that R99's map or R180's `pinOf` would not be a function. -/
  | sharedPin
  deriving DecidableEq, Repr

/-- The addresses of the bytes of the register map (R30). -/
def RegMap.bytes (r : RegMap) : List Nat :=
  [r.portb, r.portc, r.portd, r.tifr0, r.tifr1, r.tccr0a, r.tccr0b, r.tcnt0, r.ocr0a, r.ocr0b, r.sreg, r.timsk0,
    r.timsk1, r.tccr1a, r.tccr1b, r.tcnt1, r.tcnt1 + 1, r.icr1, r.icr1 + 1, r.ocr1a, r.ocr1a + 1, r.ocr1b,
    r.ocr1b + 1]

/-- The vectors of a timer, in the order compare A, compare B, overflow (R120, R136). -/
def TimerId.vectors : TimerId → List IrqVector
  | .t0 => [.timer0CompA, .timer0CompB, .timer0Ovf]
  | .t1 => [.timer1CompA, .timer1CompB, .timer1Ovf]

/-- The flag bits of a timer's events are distinct bits of a byte, and their mask bits are bits of a byte. -/
def VectorTable.goodBits (T : VectorTable) (t : TimerId) : Bool :=
  decide (t.vectors.map fun v => (T.row v).flagBit).Nodup &&
    t.vectors.all fun v => decide ((T.row v).flagBit < 8) && decide ((T.row v).maskBit < 8)

/-- The reason a configuration is refused; none if it is accepted. The pin map and the observed registers name
registers, whose addresses are `RegMap`'s, so none of them can lie outside `RegMap` or the register memory, and they
need no check. [DEDUCED, log entry 19; unsafe under another `RegMap`] Of a register outside the register memory R71
refuses one case only. [DESIGN CHOICE, log entry 3: the others; safe] -/
def Config.check (c : Config) : Option ConfigError :=
  if !decide (IrqVector.all.map fun v => (c.vectorTable.row v).priority).Nodup then some .equalPriorities
  else if !decide (IrqVector.all.map fun v => (c.vectorTable.row v).id).Nodup then some .equalIds
  else if !(c.vectorTable.goodBits .t0 && c.vectorTable.goodBits .t1) then some .badFlagBits
  else if !decide c.reg.bytes.Nodup then some .sharedByte
  else if c.t0Width != 8 || c.t1Width != 16 then some .counterWidth
  else if c.fCpu == 0 || c.pulseAt0Us == c.pulseAt180Us || c.prescalers.contains 0 then some .zeroDivisor
  else if !decide ((c.pinMap.map PinRow.pin).Nodup ∧ (c.pinMap.map fun r => (r.port, r.bit)).Nodup) then
    some .sharedPin
  else (c.reg.bytes.find? fun a => decide (c.regMemSize ≤ a)).map .registerOutside

/-- The configuration is accepted: none of the refusals of R71, R98 and log entry 3 holds. -/
abbrev Config.Accepted (c : Config) : Prop := c.check = none

end Sys2Proof
end

