-- ==== Sys2Proof/Machine/Ops.lean ====
section
/-! DEFINITION. The named operations over memory, registers, devices, time and output (R10, R11, R48, R276), and the
interrupt entry and return of the block (R315, R317): its one kind of exception. -/

namespace Sys2Proof.Machine

/-! ## Memory (R10, R70) -/

/-- What an address that no entry lists reads as: 0, as R31 and R341 assume register memory to be after reset.
[DESIGN CHOICE, log entry 4; unsafe for a CPU core that leaves other bytes] -/
def Memory.unlisted : Byte := 0

/-- `MemRead(a, 1)` (R10). -/
def Memory.read : Memory → Nat → Byte
  | [], _ => Memory.unlisted
  | (b, v) :: m, a => if a = b then v else Memory.read m a

/-- `MemWrite(a, 1, v)` (R10), in canonical form: writing what an unlisted address reads as removes the entry. -/
def Memory.write : Memory → Nat → Byte → Memory
  | [], a, v => if v = Memory.unlisted then [] else [(a, v)]
  | (b, w) :: m, a, v =>
    if a < b then (if v = Memory.unlisted then (b, w) :: m else (a, v) :: (b, w) :: m)
    else if a = b then (if v = Memory.unlisted then m else (a, v) :: m)
    else (b, w) :: Memory.write m a v

/-- The canonical form, for addresses from `lo` on: strictly rising, no entry equal to an unlisted byte. -/
def Memory.wfFrom : Nat → Memory → Bool
  | _, [] => true
  | lo, (a, v) :: m => decide (lo ≤ a) && v != Memory.unlisted && Memory.wfFrom (a + 1) m

/-- The canonical form of a memory. -/
def Memory.wf (m : Memory) : Bool := Memory.wfFrom 0 m

/-- Every listed address lies below `size`. -/
def Memory.within (size : Nat) (m : Memory) : Bool := m.all fun c => decide (c.1 < size)

/-- `Read16(a) = mem[a+1] ++ mem[a]` (R10, R70). -/
def Memory.read16 (m : Memory) (a : Nat) : Nat := 256 * (m.read (a + 1)).toNat + (m.read a).toNat

/-- `Write16(a, v)`: the low byte, then the high byte (R10, R70). -/
def Memory.write16 (m : Memory) (a v : Nat) : Memory :=
  (m.write a (BitVec.ofNat 8 v)).write (a + 1) (BitVec.ofNat 8 (v / 256))

/-- `bit(a, i)` (R10). -/
def Memory.bit (m : Memory) (a i : Nat) : Bool := (m.read a).getLsbD i

/-- `setbit(a, i)` (R10). -/
def Memory.setBit (m : Memory) (a i : Nat) : Memory := m.write a (m.read a ||| (1#8 <<< i))

/-- `clrbit(a, i)` (R10). -/
def Memory.clearBit (m : Memory) (a i : Nat) : Memory := m.write a (m.read a &&& ~~~(1#8 <<< i))

/-- Bits `hi` down to `lo` of a byte as a natural: `v[hi:lo]` (R9). -/
def bitField (v : Byte) (hi lo : Nat) : Nat := v.toNat / 2 ^ lo % 2 ^ (hi + 1 - lo)

/-- Copy the bytes at the given addresses from one memory into another. -/
def Memory.copyAt (src : Memory) (addrs : List Nat) (dst : Memory) : Memory :=
  addrs.foldl (fun m a => m.write a (src.read a)) dst

/-! ## Output (R11) -/

/-- `emit(e)` (R11). -/
def State.emit (s : State) (e : Event) : State := { s with out := s.out ++ [e] }

/-- `warn(code, info)` (R11, R300). -/
def State.warn (s : State) (w : Warning) : State := s.emit (.warning w)

/-! ## Timers and time -/

/-- The state of a timer (R27). -/
def State.timer (s : State) : TimerId → TimerState
  | .t0 => s.t0
  | .t1 => s.t1

def State.setTimer (s : State) (t : TimerId) (T : TimerState) : State :=
  match t with
  | .t0 => { s with t0 := T }
  | .t1 => { s with t1 := T }

/-- `nowMicros()` (R276). -/
def State.nowMicros (s : State) : Nat := s.time.totalCycles * 1000000 / s.cfg.fCpu

/-- `nowMillis()` (R276). -/
def State.nowMillis (s : State) : Nat := s.time.totalCycles * 1000 / s.cfg.fCpu

/-! ## Interrupt controller state (R40) -/

/-- `ic.vec v` (R40). -/
def IcState.vec (ic : IcState) : IrqVector → VecState
  | .timer1CompA => ic.timer1CompA
  | .timer1CompB => ic.timer1CompB
  | .timer1Ovf => ic.timer1Ovf
  | .timer0CompA => ic.timer0CompA
  | .timer0CompB => ic.timer0CompB
  | .timer0Ovf => ic.timer0Ovf

/-- `ic.vec v <- x` (R40). -/
def IcState.setVec (ic : IcState) (v : IrqVector) (x : VecState) : IcState :=
  match v with
  | .timer1CompA => { ic with timer1CompA := x }
  | .timer1CompB => { ic with timer1CompB := x }
  | .timer1Ovf => { ic with timer1Ovf := x }
  | .timer0CompA => { ic with timer0CompA := x }
  | .timer0CompB => { ic with timer0CompB := x }
  | .timer0Ovf => { ic with timer0Ovf := x }

/-- The derived `inService` of R40: the vector in service, or none. With several in service, which no run reaches
(R170), the first of R97's table. [DESIGN CHOICE, log entry 6; safe] -/
def IcState.inService (ic : IcState) : Option IrqVector := IrqVector.all.find? fun v => ic.vec v = .inService

/-- The pending vectors (R40). -/
def IcState.pendingVectors (ic : IcState) : List IrqVector := IrqVector.all.filter fun v => ic.vec v = .pending

/-- The timer whose event a vector stands for (R97, R120). -/
def vectorTimer : IrqVector → TimerId
  | .timer1CompA | .timer1CompB | .timer1Ovf => .t1
  | .timer0CompA | .timer0CompB | .timer0Ovf => .t0

/-- The event a vector stands for (R97, R120). -/
def vectorEvent : IrqVector → TimerEvent
  | .timer1CompA | .timer0CompA => .compA
  | .timer1CompB | .timer0CompB => .compB
  | .timer1Ovf | .timer0Ovf => .overflow

/-- The vector of a timer's event (R120). -/
def eventVector : TimerId → TimerEvent → IrqVector
  | .t0, .compA => .timer0CompA
  | .t0, .compB => .timer0CompB
  | .t0, .overflow => .timer0Ovf
  | .t1, .compA => .timer1CompA
  | .t1, .compB => .timer1CompB
  | .t1, .overflow => .timer1Ovf

/-- The table row of a vector (R7, R97). -/
def vectorRow (c : Config) (v : IrqVector) : VectorRow := c.vectorTable.row v

/-- The flag bit `f` of an event in TIFRn (R97, R135). -/
def flagBit (c : Config) (t : TimerId) (e : TimerEvent) : Nat := (vectorRow c (eventVector t e)).flagBit

/-- The enable bit `e` of an event in TIMSKn (R97, R135). -/
def maskBit (c : Config) (t : TimerId) (e : TimerEvent) : Nat := (vectorRow c (eventVector t e)).maskBit

/-- TIFRn (R30, R120). -/
def flagReg (c : Config) : TimerId → Nat
  | .t0 => c.reg.tifr0
  | .t1 => c.reg.tifr1

/-- TIMSKn (R30, R120). -/
def maskReg (c : Config) : TimerId → Nat
  | .t0 => c.reg.timsk0
  | .t1 => c.reg.timsk1

/-- The vector a number names; none if it is unknown (R161). -/
def vectorOfId (c : Config) (id : Nat) : Option IrqVector := IrqVector.all.find? fun v => (vectorRow c v).id = id

/-! ## Interrupt entry and return -/

/-- Interrupt entry, all the block does of it (R315): the vector enters service, its TIFR flag bit is cleared (R166),
and the handler's address goes to the CPU core (R165). -/
def takeInterrupt (v : IrqVector) (s : State) : State :=
  let entered := { s with ic := s.ic.setVec v .inService }
  let cleared := { entered with
    mem := entered.mem.clearBit (flagReg s.cfg (vectorTimer v)) (vectorRow s.cfg v).flagBit }
  cleared.emit (.dispatch (vectorRow s.cfg v).id (vectorRow s.cfg v).handlerAddress)

/-- Interrupt return (R317, R167): the vector in service returns to Idle; with none in service nothing changes. -/
def returnFromInterrupt (s : State) : State :=
  match s.ic.inService with
  | some u => { s with ic := s.ic.setVec u .idle }
  | none => s

/-! ## Device registry (R48) -/

/-- The device of a handle in a list of entries: the first entry of the handle, which in a state that a run reaches is
the only one (R48). [DESIGN CHOICE, log entry 6; safe] -/
def lookupDevice : List (Nat × Device) → Nat → Option Device
  | [], _ => none
  | (k, d) :: es, h => if h = k then some d else lookupDevice es h

/-- `devs.entries h` (R48). -/
def State.device? (s : State) (h : Nat) : Option Device := lookupDevice s.devs.entries h

/-- The display of a handle, if it names one. -/
def State.display? (s : State) (h : Nat) : Option DisplayState :=
  match s.device? h with
  | some (.display d) => some d
  | _ => none

/-- The servo of a handle, if it names one. -/
def State.servo? (s : State) (h : Nat) : Option ServoState :=
  match s.device? h with
  | some (.servo v) => some v
  | _ => none

/-- `devs.entries h <- d` for a handle that is registered; nothing for one that is not. -/
def State.setDevice (s : State) (h : Nat) (d : Device) : State :=
  { s with devs := { s.devs with entries := s.devs.entries.map fun e => if e.1 = h then (e.1, d) else e } }

/-- Register a device under the next handle and report the handle (R48, R280, R281). -/
def State.addDevice (s : State) (d : Device) : State :=
  State.emit
    { s with devs := { entries := s.devs.entries ++ [(s.devs.nextHandle, d)], nextHandle := s.devs.nextHandle + 1 } }
    (.handle s.devs.nextHandle)

/-- Remove the entry of a handle (R282). -/
def State.removeDevice (s : State) (h : Nat) : State :=
  { s with devs := { s.devs with entries := s.devs.entries.filter fun e => e.1 != h } }

end Sys2Proof.Machine
end

