-- ==== Sys2Proof/Machine/Operands.lean ====
section
/-! DEFINITION. What the block reads from register memory: clock select and mode (R91 to R95), counters, compares and
tops, board pins (R99), servo channels (R100), and the rational operands of the command stream (R101). -/

namespace Sys2Proof.Machine

/-! ## Registers by name (R30) -/

/-- The address of a register, of its low byte if it is two bytes wide (R30, R70). -/
def registerAddr (c : Config) : Register → Nat
  | .portb => c.reg.portb
  | .portc => c.reg.portc
  | .portd => c.reg.portd
  | .tifr0 => c.reg.tifr0
  | .tifr1 => c.reg.tifr1
  | .tccr0a => c.reg.tccr0a
  | .tccr0b => c.reg.tccr0b
  | .tcnt0 => c.reg.tcnt0
  | .ocr0a => c.reg.ocr0a
  | .ocr0b => c.reg.ocr0b
  | .sreg => c.reg.sreg
  | .timsk0 => c.reg.timsk0
  | .timsk1 => c.reg.timsk1
  | .tccr1a => c.reg.tccr1a
  | .tccr1b => c.reg.tccr1b
  | .tcnt1 => c.reg.tcnt1
  | .icr1 => c.reg.icr1
  | .ocr1a => c.reg.ocr1a
  | .ocr1b => c.reg.ocr1b

/-- The register is 16 bits wide (R30). -/
def isWideRegister : Register → Bool
  | .tcnt1 | .icr1 | .ocr1a | .ocr1b => true
  | .portb | .portc | .portd | .tifr0 | .tifr1 | .tccr0a | .tccr0b | .tcnt0 | .ocr0a | .ocr0b | .sreg | .timsk0
  | .timsk1 | .tccr1a | .tccr1b => false

/-- The address of a port register (R30). -/
def portAddr (c : Config) : Port → Nat
  | .b => registerAddr c .portb
  | .c => registerAddr c .portc
  | .d => registerAddr c .portd

/-! ## Clock select (R92) -/

/-- The clock-select decode of R92: 0 is off, the next selects take the divisors in order, the rest are unsupported. -/
def clockDecode (c : Config) : Nat → Prescaler
  | 0 => .off
  | k + 1 =>
    match c.prescalers[k]? with
    | some d => .divideBy d
    | none => .unsupported

/-- The divisor `d` of a prescaler (R92); off and unsupported have none. -/
def Prescaler.divisor? : Prescaler → Option Nat
  | .off => none
  | .divideBy d => some d
  | .unsupported => none

/-- TCCRnA (R30). -/
def controlA (c : Config) : TimerId → Nat
  | .t0 => c.reg.tccr0a
  | .t1 => c.reg.tccr1a

/-- TCCRnB (R30). -/
def controlB (c : Config) : TimerId → Nat
  | .t0 => c.reg.tccr0b
  | .t1 => c.reg.tccr1b

/-- `cs = TCCRnB[2:0]` (R92). -/
def clockSelect (c : Config) (t : TimerId) (m : Memory) : Nat := bitField (m.read (controlB c t)) 2 0

/-! ## Mode (R91, R93, R94) -/

/-- The mode number of R91: `TCCR0B[3] ++ TCCR0A[1:0]` for T0, `TCCR1B[4:3] ++ TCCR1A[1:0]` for T1. -/
def modeNumber (c : Config) (t : TimerId) (m : Memory) : Nat :=
  match t with
  | .t0 => 4 * bitField (m.read (controlB c .t0)) 3 3 + bitField (m.read (controlA c .t0)) 1 0
  | .t1 => 4 * bitField (m.read (controlB c .t1)) 4 3 + bitField (m.read (controlA c .t1)) 1 0

/-- How a mode counts (R93). -/
inductive CountKind where
  | up
  | sym
  | frozen
  deriving DecidableEq, Repr

/-- Where a mode's top comes from (R93, R94). -/
inductive TopSource where
  | fixed (value : Nat)
  /-- OCRnA -/
  | compareA
  /-- ICR1 -/
  | capture
  /-- A frozen mode has no top (R95). -/
  | absent
  deriving DecidableEq, Repr

/-- One row of a mode table (R93, R94). -/
structure ModeRow where
  kind : CountKind
  top : TopSource
  deriving DecidableEq, Repr

/-- T0's mode table (R93). -/
def t0ModeTable : Nat → ModeRow
  | 0 => ⟨.up, .fixed 0xFF⟩
  | 1 => ⟨.sym, .fixed 0xFF⟩
  | 2 => ⟨.up, .compareA⟩
  | 3 => ⟨.up, .fixed 0xFF⟩
  | 5 => ⟨.sym, .compareA⟩
  | 7 => ⟨.up, .compareA⟩
  | _ => ⟨.frozen, .absent⟩

/-- T1's mode table (R94). -/
def t1ModeTable : Nat → ModeRow
  | 0 => ⟨.up, .fixed 0xFFFF⟩
  | 1 => ⟨.sym, .fixed 0x00FF⟩
  | 2 => ⟨.sym, .fixed 0x01FF⟩
  | 3 => ⟨.sym, .fixed 0x03FF⟩
  | 4 => ⟨.up, .compareA⟩
  | 5 => ⟨.up, .fixed 0x00FF⟩
  | 6 => ⟨.up, .fixed 0x01FF⟩
  | 7 => ⟨.up, .fixed 0x03FF⟩
  | 8 => ⟨.sym, .capture⟩
  | 9 => ⟨.sym, .compareA⟩
  | 10 => ⟨.sym, .capture⟩
  | 11 => ⟨.sym, .compareA⟩
  | 12 => ⟨.up, .capture⟩
  | 14 => ⟨.up, .capture⟩
  | 15 => ⟨.up, .compareA⟩
  | _ => ⟨.frozen, .absent⟩

/-- `modeTable(t, m)` (R93, R94). -/
def modeTable : TimerId → Nat → ModeRow
  | .t0 => t0ModeTable
  | .t1 => t1ModeTable

/-! ## Counter, compares and top (R30, R95, R131) -/

/-- The width of a timer in bits (R7, R8). -/
def timerWidth (c : Config) : TimerId → Nat
  | .t0 => c.t0Width
  | .t1 => c.t1Width

/-- TCNTn (R30). -/
def counterReg (c : Config) : TimerId → Nat
  | .t0 => c.reg.tcnt0
  | .t1 => c.reg.tcnt1

/-- OCRnA or OCRnB (R30): `addr(compareReg(t, X))` of R240. -/
def compareReg (c : Config) : TimerId → CompareChannel → Nat
  | .t0, .a => c.reg.ocr0a
  | .t0, .b => c.reg.ocr0b
  | .t1, .a => c.reg.ocr1a
  | .t1, .b => c.reg.ocr1b

/-- A register of a timer: one byte for T0, two bytes for T1 (R72, R120). -/
def readTimerReg (t : TimerId) (m : Memory) (a : Nat) : Nat :=
  match t with
  | .t0 => (m.read a).toNat
  | .t1 => m.read16 a

/-- The counter in register memory (R131). -/
def readCounter (c : Config) (t : TimerId) (m : Memory) : Nat := readTimerReg t m (counterReg c t)

/-- A compare register (R131, R242). -/
def readCompare (c : Config) (t : TimerId) (x : CompareChannel) (m : Memory) : Nat :=
  readTimerReg t m (compareReg c t x)

/-- The counter written back: one byte for T0, `Write16` for T1 (R131). -/
def writeCounter (c : Config) (t : TimerId) (m : Memory) (n : Nat) : Memory :=
  match t with
  | .t0 => m.write (counterReg c .t0) (BitVec.ofNat 8 n)
  | .t1 => m.write16 (counterReg c .t1) n

/-- The top that a source gives, read live (R95). A frozen mode has none, and no rule reads it there.
[DESIGN CHOICE, log entry 11; safe] -/
def topOf (c : Config) (t : TimerId) (src : TopSource) (m : Memory) : Nat :=
  match src with
  | .fixed v => v
  | .compareA => readCompare c t .a m
  | .capture => m.read16 c.reg.icr1
  | .absent => 0

/-- `topValue(t, mode)` (R95). -/
def topValue (c : Config) (t : TimerId) (mode : Nat) (m : Memory) : Nat := topOf c t (modeTable t mode).top m

/-- `addr(topSource(t, mode))` (R95, R240); none for a fixed or absent top. -/
def topSourceAddr (c : Config) (t : TimerId) (mode : Nat) : Option Nat :=
  match (modeTable t mode).top with
  | .compareA => some (compareReg c t .a)
  | .capture => some c.reg.icr1
  | .fixed _ | .absent => none

/-! ## The live decode of a state (R121, R131) -/

/-- The decoded clock select of a timer (R92, R121). -/
abbrev State.clock (s : State) (t : TimerId) : Prescaler := clockDecode s.cfg (clockSelect s.cfg t s.mem)

/-- The mode number of a timer (R91, R121). -/
abbrev State.mode (s : State) (t : TimerId) : Nat := modeNumber s.cfg t s.mem

/-- How a timer counts in its mode (R93, R94). -/
abbrev State.countKind (s : State) (t : TimerId) : CountKind := (modeTable t (s.mode t)).kind

/-- The counter of a timer in register memory (R131). -/
abbrev State.count (s : State) (t : TimerId) : Nat := readCounter s.cfg t s.mem

/-- A compare register of a timer (R131, R242). -/
abbrev State.compare (s : State) (t : TimerId) (x : CompareChannel) : Nat := readCompare s.cfg t x s.mem

/-- The top of a timer in its mode (R95). -/
abbrev State.top (s : State) (t : TimerId) : Nat := topValue s.cfg t (s.mode t) s.mem

/-! ## Board pins (R99) -/

/-- The address of the port register of a board pin, and its bit; none for a number outside the pin map (R99). -/
def pinLocation (c : Config) (p : Nat) : Option (Nat × Nat) :=
  (c.pinMap.find? fun r => r.pin == p).map fun r => (portAddr c r.port, r.bit)

/-- `pinOf(addr, i)`: the board pin of a port bit, if it has one (R99, R180). -/
def pinOf (c : Config) (addr i : Nat) : Option Nat :=
  (c.pinMap.find? fun r => portAddr c r.port == addr && r.bit == i).map PinRow.pin

/-- The pin number is a board pin (R99). -/
def isBoardPin (c : Config) (p : Nat) : Bool := (pinLocation c p).isSome

/-- `pinLevel(p) = mem[reg(p)][bit(p)]` (R99). A number outside the pin map has no level and no registered device
names one (R284); this function answers 0 there. [DESIGN CHOICE, log entry 11; safe] -/
def pinLevel (c : Config) (m : Memory) (p : Nat) : Bool :=
  match pinLocation c p with
  | some (reg, i) => m.bit reg i
  | none => false

/-- The byte or nibble on a list of data lines, the first the most significant (R202). -/
def lineValue (c : Config) (m : Memory) (pins : List Nat) : Nat :=
  pins.foldl (fun acc p => 2 * acc + (pinLevel c m p).toNat) 0

/-! ## Servo channels (R100) -/

/-- `channelOf(pin)`: the servo channel map of R100. -/
def channelOf : Nat → Option ServoChannel
  | 9 => some ⟨.t1, .a⟩
  | 10 => some ⟨.t1, .b⟩
  | 6 => some ⟨.t0, .a⟩
  | 5 => some ⟨.t0, .b⟩
  | _ => none

/-! ## Rationals (R9, R101) -/

/-- A rational operand, carried as a count of thousandths (R101). -/
def thousandths (m : Nat) : ℚ := (m : ℚ) / 1000

/-- `clamp(x, lo, hi)` (R9). -/
def clampTo (x lo hi : ℚ) : ℚ := min (max x lo) hi

/-- `sign(x)` (R9). -/
def signOf (x : ℚ) : ℚ := if 0 < x then 1 else if x < 0 then -1 else 0

/-! ## Observed registers (R181) -/

/-- The addresses that the bridge diffs for an observed register: both bytes of a 16-bit value register, else one byte
(R180). -/
def observedBytes (c : Config) (r : ObservedReg) : List Nat :=
  let addr := registerAddr c r.reg
  match r.cls with
  | .port => [addr]
  | .value => if isWideRegister r.reg then [addr, addr + 1] else [addr]

/-- Every observed address, in the order of R181. -/
def observedAddrs (c : Config) : List Nat := c.observedRegs.flatMap (observedBytes c)

end Sys2Proof.Machine
end

