-- ==== Sys2Proof/Machine/Flags.lean ====
section
/-! DEFINITION. Every flag the block computes: how a tick batch advances a counter and which events it detects (R132
to R134), and how an event sets its sticky flag and raises its vector (R135). -/

namespace Sys2Proof.Machine

/-- What advancing a counter by one batch gives (R132, R133): the new counter, the overflow, the new direction, and
the set `visited` of values the counter takes. -/
structure Advance where
  counter : Nat
  overflow : Bool
  countDown : Bool
  visited : Nat → Bool

/-- The advance of kind `up` (R132): the counter resets to 0 on reaching top and the excess ticks are discarded. -/
def advanceUp (c k top : Nat) : Advance :=
  if top ≤ c + k then
    { counter := 0, overflow := true, countDown := false,
      visited := fun x => decide (c + 1 ≤ x ∧ x ≤ top) || x == 0 }
  else
    { counter := c + k, overflow := false, countDown := false,
      visited := fun x => decide (c + 1 ≤ x ∧ x ≤ c + k) }

/-- The advance of kind `sym` (R133): the direction turns at top, with an overflow, and at 0, without one. -/
def advanceSym (c k top : Nat) (down : Bool) : Advance :=
  if !down then
    if top ≤ c + k then
      { counter := top, overflow := true, countDown := true,
        visited := fun x => decide (c + 1 ≤ x ∧ x ≤ top) }
    else
      { counter := c + k, overflow := false, countDown := false,
        visited := fun x => decide (c + 1 ≤ x ∧ x ≤ c + k) }
  else
    if c ≤ k then
      { counter := 0, overflow := false, countDown := false, visited := fun x => decide (x < c) }
    else
      { counter := c - k, overflow := false, countDown := true,
        visited := fun x => decide (c - k ≤ x ∧ x < c) }

/-- The advance of a mode's kind. A frozen mode never advances (R126). -/
def advance (kind : CountKind) (c k top : Nat) (down : Bool) : Advance :=
  match kind with
  | .up => advanceUp c k top
  | .sym => advanceSym c k top down
  | .frozen => { counter := c, overflow := false, countDown := down, visited := fun _ => false }

/-- The marking of a known vector (R162): Idle becomes Pending; Pending and InService stay. -/
def raiseVector (v : IrqVector) (s : State) : State :=
  if s.ic.vec v = .idle then { s with ic := s.ic.setVec v .pending } else s

/-- The signalling of one detected event (R135): its TIFR bit is set whatever the mask, and its vector is raised if
its TIMSK bit is 1 now. -/
def signalEvent (t : TimerId) (e : TimerEvent) (s : State) : State :=
  let flagged := { s with mem := s.mem.setBit (flagReg s.cfg t) (flagBit s.cfg t e) }
  if flagged.mem.bit (maskReg s.cfg t) (maskBit s.cfg t e) then raiseVector (eventVector t e) flagged else flagged

/-- The signalling of an event if it was detected. -/
def signalIf (detected : Bool) (t : TimerId) (e : TimerEvent) (s : State) : State :=
  if detected then signalEvent t e s else s

end Sys2Proof.Machine
end

