-- ==== Sys2Proof/Machine/Interrupts.lean ====
section
/-! DEFINITION. The interrupt controller: `RAISE`, `SETGIE`, `DISPATCH`, `RETI` (41_interrupt_controller.md, R160 to
R171). -/

namespace Sys2Proof.Machine

/-- `RAISE v` (R162): an unknown id warns (R161); a known one is marked. -/
def raise (id : Nat) (s : State) : State :=
  match vectorOfId s.cfg id with
  | none => s.warn (.irqUnknownVector id)
  | some v => raiseVector v s

/-- `SETGIE b` (R163). -/
def setGie (b : Bool) (s : State) : State := { s with ic := { s.ic with gie := b } }

/-- The better of a vector and the best so far: the smaller priority number wins (R98, R169). -/
def higherPriority (c : Config) (best : Option IrqVector) (v : IrqVector) : Option IrqVector :=
  match best with
  | none => some v
  | some b => if (vectorRow c v).priority < (vectorRow c b).priority then some v else some b

/-- `highest(P)` (R169). -/
def highest (c : Config) (P : List IrqVector) : Option IrqVector := P.foldl (higherPriority c) none

/-- `DISPATCH` (R164): gate 1 the global enable, gate 2 no nesting (R168), then the highest pending vector. -/
def dispatchPending (s : State) : State :=
  if !s.ic.gie then s
  else if s.ic.inService.isSome then s
  else
    match highest s.cfg s.ic.pendingVectors with
    | none => s
    | some w => takeInterrupt w s

/-- RAISE (R162). -/
def execRaise (v : Nat) (s : State) : Host.Outcome State Fault Refusal := .next (raise v s)

/-- SETGIE (R163). -/
def execSetgie (b : Bool) (s : State) : Host.Outcome State Fault Refusal := .next (setGie b s)

/-- DISPATCH (R164). -/
def execDispatch (s : State) : Host.Outcome State Fault Refusal := .next (dispatchPending s)

/-- RETI (R167). -/
def execReti (s : State) : Host.Outcome State Fault Refusal := .next (returnFromInterrupt s)

end Sys2Proof.Machine
end

