-- ==== Sys2Proof/Decode.lean ====
section
/-! DEFINITION. The two decoders and the encoder: the command stream (R101 to R104) and the display protocol's bytes
(R106 to R108). Both decoders are total; the command decoder refuses by name. -/

namespace Sys2Proof

/-! ## Little-endian integers (R101) -/

/-- The unsigned integer of a list of bytes, the first the least significant. -/
def leNat : List Byte → Nat
  | [] => 0
  | b :: bs => b.toNat + 256 * leNat bs

/-- The first `k` bytes of a natural, the least significant first. -/
def leBytes : Nat → Nat → List Byte
  | 0, _ => []
  | k + 1, n => BitVec.ofNat 8 n :: leBytes k (n / 256)

/-- The `u8` operand at byte `i` of a command (R101). -/
def u8 (bs : List Byte) (i : Nat) : Nat := leNat ((bs.drop i).take 1)

/-- The `u16` operand at bytes `i` and `i + 1` of a command (R101). -/
def u16 (bs : List Byte) (i : Nat) : Nat := leNat ((bs.drop i).take 2)

/-- The `u32` operand at bytes `i` to `i + 3` of a command (R101). -/
def u32 (bs : List Byte) (i : Nat) : Nat := leNat ((bs.drop i).take 4)

/-! ## Operands whose values name something (R102, R104) -/

/-- TICK's timer operand: 0 or 1; others are illegal (R104). -/
def timerOfOperand : Nat → Option TimerId
  | 0 => some .t0
  | 1 => some .t1
  | _ => none

/-- A level or enable operand: 0 or 1; others are illegal (R104). -/
def boolOfOperand : Nat → Option Bool
  | 0 => some false
  | 1 => some true
  | _ => none

/-- REGDISPLAY's mode operand: 0 = wrap, 1 = clamp (R280); others are illegal (R104). -/
def addressingOfOperand : Nat → Option Addressing
  | 0 => some .wrap
  | 1 => some .clamp
  | _ => none

def TimerId.operand : TimerId → Nat
  | .t0 => 0
  | .t1 => 1

def Addressing.operand : Addressing → Nat
  | .wrap => 0
  | .clamp => 1

/-! ## The command stream's decoder -/

/-- What the decoder answers on the bytes of the command stream. -/
inductive Decoded where
  /-- A command and its length in bytes. -/
  | instr (i : Instr) (length : Nat)
  /-- No byte is left: the run has ended (R292). -/
  | endOfStream
  /-- An opcode byte outside R102's map (R103). -/
  | illegalOpcode (opcode : Byte)
  /-- A command with an operand value that R104 refuses. -/
  | illegalOperand (mnemonic : String)
  /-- The stream ends inside a command. [DESIGN CHOICE, log entry 5; safe] -/
  | truncated (mnemonic : String)
  deriving DecidableEq, Repr

/-- A command of a fixed length (R101). -/
def sized (mnemonic : String) (length : Nat) (bs : List Byte) (i : Instr) : Decoded :=
  if bs.length < length then .truncated mnemonic else .instr i length

/-- A command of a fixed length one of whose operands has illegal values (R104). -/
def sizedChecked (mnemonic : String) (length : Nat) (bs : List Byte) (i : Option Instr) : Decoded :=
  if bs.length < length then .truncated mnemonic
  else match i with
    | some i => .instr i length
    | none => .illegalOperand mnemonic

/-- REGDISPLAY: its length is `7 + n`, fixed by its third operand `n`, which is 4 or 8 (R101, R104). -/
def decodeRegdisplay (bs : List Byte) : Decoded :=
  let n := u8 bs 3
  if bs.length < 4 then .truncated "REGDISPLAY"
  else if n == 4 || n == 8 then
    sizedChecked "REGDISPLAY" (7 + n) bs
      ((addressingOfOperand (u8 bs (6 + n))).map fun mode =>
        .regdisplay (u8 bs 1) (u8 bs 2) (((bs.drop 4).take n).map BitVec.toNat) (u8 bs (4 + n)) (u8 bs (5 + n)) mode)
  else .illegalOperand "REGDISPLAY"

/-- The command at the head of the stream: the opcode map of R102, the refusals of R103 and R104. Of the configuration
it reads the size of register memory only. -/
def decodeCommand (c : Config) (bs : List Byte) : Decoded :=
  match bs with
  | [] => .endOfStream
  | opcode :: _ =>
    match opcode.toNat with
    | 0x01 => sized "RESET" 1 bs .reset
    | 0x02 => sized "STEP" 5 bs (.step (u32 bs 1))
    | 0x03 =>
      sizedChecked "MEMWRITE" 4 bs
        (if u16 bs 1 < c.regMemSize then some (.memwrite (u16 bs 1) (BitVec.ofNat 8 (u8 bs 3))) else none)
    | 0x04 => sized "MOTION" 1 bs .motion
    | 0x10 => sizedChecked "TICK" 6 bs ((timerOfOperand (u8 bs 1)).map fun t => .tick t (u32 bs 2))
    | 0x20 => sized "RAISE" 2 bs (.raise (u8 bs 1))
    | 0x21 => sizedChecked "SETGIE" 2 bs ((boolOfOperand (u8 bs 1)).map .setgie)
    | 0x22 => sized "DISPATCH" 1 bs .dispatch
    | 0x23 => sized "RETI" 1 bs .reti
    | 0x30 => sized "OBSERVE" 1 bs .observe
    | 0x31 =>
      sizedChecked "PINCHANGE" 7 bs
        ((boolOfOperand (u8 bs 2)).map fun level => .pinchange (u8 bs 1) level (u32 bs 3))
    | 0x32 => sized "REGCHANGE" 7 bs (.regchange (u16 bs 1) (u16 bs 3) (u16 bs 5))
    | 0x40 => decodeRegdisplay bs
    | 0x41 =>
      sized "REGSERVO" 30 bs
        (.regservo (u8 bs 1) (u32 bs 2) (u32 bs 6) (u32 bs 10) (u32 bs 14) (u32 bs 18) (u32 bs 22) (u32 bs 26))
    | 0x42 => sized "UNREG" 3 bs (.unreg (u16 bs 1))
    | 0x43 => sized "SETLOAD" 11 bs (.setload (u16 bs 1) (u32 bs 3) (u32 bs 7))
    | 0x50 => sized "TIMETICK" 5 bs (.timetick (u32 bs 1))
    | 0x51 => sized "NOWUS" 1 bs .nowus
    | 0x52 => sized "NOWMS" 1 bs .nowms
    | _ => .illegalOpcode opcode

/-! ## The display protocol's decoder -/

/-- The command bytes of R108: a priority encoder on the highest set bit. -/
def decodeDisplayCommand (b : Byte) : DisplayOp :=
  if b.getLsbD 7 then .setDdramAddress (b.extractLsb' 0 7)
  else if b.getLsbD 6 then .setCgramAddress (b.extractLsb' 0 6)
  else if b.getLsbD 5 then .functionSet (b.getLsbD 4) (b.getLsbD 3) (b.getLsbD 2) (b.extractLsb' 0 2)
  else if b.getLsbD 4 then .cursorDisplayShift (b.getLsbD 3) (b.getLsbD 2) (b.extractLsb' 0 2)
  else if b.getLsbD 3 then .displayControl (b.getLsbD 2) (b.getLsbD 1) (b.getLsbD 0)
  else if b.getLsbD 2 then .entryModeSet (b.getLsbD 1) (b.getLsbD 0)
  else if b.getLsbD 1 then .home (b.getLsbD 0)
  else if b.getLsbD 0 then .clear
  else .unknown

/-- A byte on the data lines: data when register-select is 1 (R107), a command when it is 0 (R108, R205). -/
def decodeDisplayByte (rs : Bool) (b : Byte) : DisplayOp :=
  if rs then .writeData b else decodeDisplayCommand b

/-- The decoder of the instruction's source: the command stream, or a display's data lines. -/
def decodeFrom (c : Config) (src : Source) (bs : List Byte) : Decoded :=
  match src with
  | .stream => decodeCommand c bs
  | .lines h rs =>
    match bs with
    | [] => .endOfStream
    | b :: _ => .instr ((decodeDisplayByte rs b).toInstr h) 1

/-! ## The encoder -/

/-- A Boolean as a bit of a byte. -/
def bit01 (b : Bool) : BitVec 1 := BitVec.ofBool b

/-- The bytes of an instruction: those of R102 for a command, the byte of R107 or R108 for a display byte. -/
def encode : Instr → List Byte
  | .reset => [0x01]
  | .step n => 0x02 :: leBytes 4 n
  | .memwrite a v => 0x03 :: (leBytes 2 a ++ [v])
  | .motion => [0x04]
  | .tick t n => 0x10 :: (leBytes 1 t.operand ++ leBytes 4 n)
  | .raise v => 0x20 :: leBytes 1 v
  | .setgie b => 0x21 :: leBytes 1 b.toNat
  | .dispatch => [0x22]
  | .reti => [0x23]
  | .observe => [0x30]
  | .pinchange pin level ts => 0x31 :: (leBytes 1 pin ++ leBytes 1 level.toNat ++ leBytes 4 ts)
  | .regchange a old new => 0x32 :: (leBytes 2 a ++ leBytes 2 old ++ leBytes 2 new)
  | .regdisplay rs en d rows cols mode =>
    0x40 :: (leBytes 1 rs ++ leBytes 1 en ++ leBytes 1 d.length ++ d.map (BitVec.ofNat 8) ++ leBytes 1 rows ++
      leBytes 1 cols ++ leBytes 1 mode.operand)
  | .regservo pin speed deadband maxTorque load arm period initAngle =>
    0x41 :: (leBytes 1 pin ++ leBytes 4 speed ++ leBytes 4 deadband ++ leBytes 4 maxTorque ++ leBytes 4 load ++
      leBytes 4 arm ++ leBytes 4 period ++ leBytes 4 initAngle)
  | .unreg h => 0x42 :: leBytes 2 h
  | .setload h load arm => 0x43 :: (leBytes 2 h ++ leBytes 4 load ++ leBytes 4 arm)
  | .timetick n => 0x50 :: leBytes 4 n
  | .nowus => [0x51]
  | .nowms => [0x52]
  | .lcdUnknown _ => [0x00]
  | .lcdClear _ => [0x01]
  | .lcdHome _ x => [(1#7 ++ bit01 x : BitVec 8)]
  | .lcdEntryModeSet _ id s => [(1#6 ++ bit01 id ++ bit01 s : BitVec 8)]
  | .lcdDisplayControl _ d c b => [(1#5 ++ bit01 d ++ bit01 c ++ bit01 b : BitVec 8)]
  | .lcdCursorDisplayShift _ sc rl x => [(1#4 ++ bit01 sc ++ bit01 rl ++ x : BitVec 8)]
  | .lcdFunctionSet _ dl n f x => [(1#3 ++ bit01 dl ++ bit01 n ++ bit01 f ++ x : BitVec 8)]
  | .lcdSetCgramAddress _ a => [(1#2 ++ a : BitVec 8)]
  | .lcdSetDdramAddress _ a => [(1#1 ++ a : BitVec 8)]
  | .lcdWriteData _ c => [c]

/-! ## The host's probe of the opcode table -/

/-- The length of the longest command, REGSERVO (R102). -/
def longestCommand : Nat := 30

/-- The bytes of a table word of `nbits` bits, the first word's first, padded with zeros to the longest command. -/
def tableWordBytes (nbits w : Nat) : List Byte := leBytes longestCommand (w % 2 ^ nbits)

/-- The handle under which the probe's display stands: the first one a fresh registry issues (R48). -/
def probeHandle : Nat := 1

/-- The instruction of a table word, and the source it is read from. A word is read as a command first; an 8-bit
word that the command decoder refuses is read as a display command byte (R108) on the display `probeHandle`: the
table numbers both encodings by one opcode byte. [DESIGN CHOICE, log entry 7; safe: used by the host's probe only] -/
def decodeTableSource (c : Config) (nbits w : Nat) : Option (Source × Instr) :=
  match decodeCommand c (tableWordBytes nbits w) with
  | .instr i _ => some (.stream, i)
  | _ =>
    if nbits == 8 then
      some (.lines probeHandle false, (decodeDisplayByte false (BitVec.ofNat 8 w)).toInstr probeHandle)
    else none

/-- The instruction the decoder reads, under R7's defaults, from a word numbered as spec/opcode_table.json numbers it.
-/
def decodeTableWord (nbits w : Nat) : Option Instr := (decodeTableSource config nbits w).map Prod.snd

end Sys2Proof
end

