-- ==== Sys2Proof/Machine/Display.lean ====
section
/-! DEFINITION. The display protocol decoder: `PINCHANGE` and the ten display bytes (43_display_decoder.md, R200 to
R221; 30_encoding.md, R106 to R109). -/

namespace Sys2Proof.Machine

/-! ## What a byte does to a display -/

/-- A blank cell (R210). -/
def blankChar : Byte := 0x20

/-- A blank buffer of the given geometry (R210, R65). -/
def blankBuffer (rows cols : Nat) : List (List Byte) := List.replicate rows (List.replicate cols blankChar)

/-- What a notification shows of a display, and what R205 compares before and after a byte. -/
def displaySnapshot (D : DisplayState) : DisplaySnapshot :=
  { buffer := D.buffer, cursor := D.cursor, displayOn := D.displayOn, cursorOn := D.cursorOn, blinkOn := D.blinkOn }

/-- CLEAR and HOME (R210). -/
def clearDisplay (D : DisplayState) : DisplayState :=
  { D with buffer := blankBuffer D.rows D.cols, cursor := ⟨0, 0⟩ }

/-- DISPLAY_CONTROL (R212). -/
def controlDisplay (d c b : Bool) (D : DisplayState) : DisplayState :=
  { D with displayOn := d, cursorOn := c, blinkOn := b }

/-- The cursor at a position (R216). -/
def moveCursor (pos : Cursor) (D : DisplayState) : DisplayState := { D with cursor := pos }

/-- `rowOffset(r)` (R109); a display has at most four rows (R284). A fifth row, which no display has, would share the
fourth's offset. [DESIGN CHOICE, log entry 11; safe] -/
def rowOffset (cols : Nat) : Nat → Nat
  | 0 => 0x00
  | 1 => 0x40
  | 2 => cols
  | _ => 0x40 + cols

/-- `addrToPos(D, a)` (R109): the least row whose address range holds `a`. -/
def addrToPos (rows cols a : Nat) : Option Cursor :=
  ((List.range rows).find? fun r => rowOffset cols r ≤ a && a < rowOffset cols r + cols).map fun r =>
    ⟨r, a - rowOffset cols r⟩

/-- `advance(h)` (R207). -/
def advanceCursor (D : DisplayState) : DisplayState :=
  if D.cursor.col + 1 < D.cols then { D with cursor := ⟨D.cursor.row, D.cursor.col + 1⟩ }
  else
    match D.addressing with
    | .wrap => { D with cursor := ⟨(D.cursor.row + 1) % D.rows, 0⟩ }
    | .clamp => D

/-- The buffer with one cell written (R206). -/
def writeCell (buffer : List (List Byte)) (at_ : Cursor) (b : Byte) : List (List Byte) :=
  buffer.modify at_.row fun r => r.set at_.col b

/-- `writeChar(h, b)` (R206): write the character, then advance. -/
def writeChar (b : Byte) (D : DisplayState) : DisplayState :=
  advanceCursor { D with buffer := writeCell D.buffer D.cursor b }

/-! ## Byte dispatch (R205) -/

/-- A dispatched byte whose effect on the display is `f` (R205): the display is updated, and a notification follows if
what a subscriber sees has changed (R208). A handle that names no display drops the byte (R221). -/
def onDisplay (h : Nat) (f : DisplayState → DisplayState) (s : State) : State :=
  match s.display? h with
  | none => s
  | some D =>
    let updated := s.setDevice h (.display (f D))
    if displaySnapshot (f D) ≠ displaySnapshot D then updated.emit (.notifyDisplay h (displaySnapshot (f D)))
    else updated

/-- A dispatched byte that only warns (R217, R216). A handle that names no display drops the byte (R221). -/
def warnOnDisplay (h : Nat) (w : Warning) (s : State) : State :=
  match s.display? h with
  | none => s
  | some _ => s.warn w

/-- A dispatched byte without effect: no state change, no event (R211, R213, R214, R215). -/
def ignoredByte (_h : Nat) (s : State) : State := s

/-- SET_DDRAM_ADDRESS (R216): the cursor moves, or the address names no position and a warning says so. -/
def setDdramAddress (h a : Nat) (s : State) : State :=
  match s.display? h with
  | none => s
  | some D =>
    match addrToPos D.rows D.cols a with
    | none => warnOnDisplay h (.lcdBadAddress h a) s
    | some pos => onDisplay h (moveCursor pos) s

/-- `dispatchByte(h, rs, b)` (R205), by the decoder of R107 and R108. -/
def dispatchByte (h : Nat) (rs : Bool) (b : Byte) (s : State) : State :=
  match decodeDisplayByte rs b with
  | .unknown => warnOnDisplay h (.lcdUnknownOpcode h 0x00) s
  | .clear => onDisplay h clearDisplay s
  | .home _ => onDisplay h clearDisplay s
  | .entryModeSet _ _ => ignoredByte h s
  | .displayControl d c b => onDisplay h (controlDisplay d c b) s
  | .cursorDisplayShift _ _ _ => ignoredByte h s
  | .functionSet _ _ _ _ => ignoredByte h s
  | .setCgramAddress _ => ignoredByte h s
  | .setDdramAddress a => setDdramAddress h a.toNat s
  | .writeData c => onDisplay h (writeChar c) s

/-! ## Latch and assembly (R202 to R204) -/

/-- `assemble(h, rs, v)` (R203): the first latch keeps the high nibble, the second dispatches the byte, with the
register-select level of the second latch. -/
def assemble (h : Nat) (D : DisplayState) (rs : Bool) (v : BitVec 4) (s : State) : State :=
  if D.expectingHighNibble then
    s.setDevice h (.display { D with pendingNibble := v, expectingHighNibble := false })
  else
    dispatchByte h rs (D.pendingNibble ++ v) (s.setDevice h (.display { D with expectingHighNibble := true }))

/-- `latch(h)` (R202): the register-select and data lines are read from register memory now. -/
def latch (h : Nat) (s : State) : State :=
  match s.display? h with
  | none => s
  | some D =>
    let rs := pinLevel s.cfg s.mem D.rsPin
    let v := lineValue s.cfg s.mem D.dataPins
    match D.bitMode with
    | .eight => dispatchByte h rs (BitVec.ofNat 8 v) s
    | .four => assemble h D rs (BitVec.ofNat 4 v) s

/-- The device is a display whose enable line is the pin (R200). -/
def Device.enabledBy (pin : Nat) : Device → Bool
  | .display D => D.enPin == pin
  | .servo _ => false

/-- The handles of the displays whose enable line is the pin, in ascending order (R200). -/
def displaysEnabledBy (pin : Nat) (s : State) : List Nat :=
  (s.devs.entries.filter fun e => e.2.enabledBy pin).map Prod.fst

/-- `PINCHANGE pin, level, ts` (R200): a falling edge latches every display on that enable line, in handle order; a
rising edge does nothing; an edge no display uses is dropped (R221). The decoder does not use `ts`. Each display's byte
warns for itself (R216, R217), whatever R311 says of one operation's warnings. [DEDUCED, log entry 13; unsafe] -/
def pinChange (pin : Nat) (level : Bool) (s : State) : State :=
  if level then s else (displaysEnabledBy pin s).foldl (fun s h => latch h s) s

/-! ## Meanings -/

/-- PINCHANGE (R200). -/
def execPinchange (pin : Nat) (level : Bool) (_ts : Nat) (s : State) : Host.Outcome State Fault Refusal :=
  .next (pinChange pin level s)

/-- Command byte 0x00 (R217). -/
def execLcdUnknown (h : Nat) (s : State) : Host.Outcome State Fault Refusal :=
  .next (warnOnDisplay h (.lcdUnknownOpcode h 0x00) s)

/-- CLEAR (R210). -/
def execLcdClear (h : Nat) (s : State) : Host.Outcome State Fault Refusal := .next (onDisplay h clearDisplay s)

/-- HOME: the same effect as CLEAR (R210, C2). -/
def execLcdHome (h : Nat) (_x : Bool) (s : State) : Host.Outcome State Fault Refusal :=
  .next (onDisplay h clearDisplay s)

/-- ENTRY_MODE_SET: ignored (R211). -/
def execLcdEntryModeSet (h : Nat) (_id _s : Bool) (s : State) : Host.Outcome State Fault Refusal :=
  .next (ignoredByte h s)

/-- DISPLAY_CONTROL (R212). -/
def execLcdDisplayControl (h : Nat) (d c b : Bool) (s : State) : Host.Outcome State Fault Refusal :=
  .next (onDisplay h (controlDisplay d c b) s)

/-- CURSOR_DISPLAY_SHIFT: ignored (R213). -/
def execLcdCursorDisplayShift (h : Nat) (_sc _rl : Bool) (_x : BitVec 2) (s : State) :
    Host.Outcome State Fault Refusal := .next (ignoredByte h s)

/-- FUNCTION_SET: ignored (R214). -/
def execLcdFunctionSet (h : Nat) (_dl _n _f : Bool) (_x : BitVec 2) (s : State) :
    Host.Outcome State Fault Refusal := .next (ignoredByte h s)

/-- SET_CGRAM_ADDRESS: ignored (R215). -/
def execLcdSetCgramAddress (h : Nat) (_a : BitVec 6) (s : State) : Host.Outcome State Fault Refusal :=
  .next (ignoredByte h s)

/-- SET_DDRAM_ADDRESS (R216). -/
def execLcdSetDdramAddress (h : Nat) (a : BitVec 7) (s : State) : Host.Outcome State Fault Refusal :=
  .next (setDdramAddress h a.toNat s)

/-- A data byte (R206). -/
def execLcdWriteData (h : Nat) (c : Byte) (s : State) : Host.Outcome State Fault Refusal :=
  .next (onDisplay h (writeChar c) s)

end Sys2Proof.Machine
end

