-- ==== Sys2Proof/Machine/Servo.lean ====
section
/-! DEFINITION. The servo engine: `REGCHANGE` (pulse decode) and `MOTION` (44_servo_engine.md, R240 to R257). -/

namespace Sys2Proof.Machine

/-! ## Pulse decode -/

/-- `pulseWidth(cv, top, P)` for a top above 0 (R241): the exact quotient, rounded half up. -/
def pulseWidth (cv top P : Nat) : Nat := (2 * cv * P + top) / (2 * top)

/-- `angleOf(pw)` (R243). -/
def angleOf (c : Config) (pw : Nat) : ℚ :=
  clampTo (((pw : ℚ) - (c.pulseAt0Us : ℚ)) * 180 / ((c.pulseAt180Us : ℚ) - (c.pulseAt0Us : ℚ))) 0 180

/-- The plausible pulse range, inclusive (R244). -/
def plausiblePulse (c : Config) (pw : Nat) : Bool := c.pulseMinUs ≤ pw && pw ≤ c.pulseMaxUs

/-- A decode whose timer gives no top (R242): a frozen mode, or a top of 0. -/
def rejectNoTop (h : Nat) (V : ServoState) (mode : Nat) (s : State) : State :=
  (s.warn (.servoNoTop h mode)).setDevice h (.servo { V with lastPulseValid := false })

/-- A decode that has a pulse width (R242, R244): it is recorded; outside the plausible range it is rejected, inside
it sets the target, and only the target (R245). -/
def acceptPulse (h : Nat) (V : ServoState) (pw : Nat) (s : State) : State :=
  let measured := { V with lastPulseWidth := pw, lastPeriod := V.periodMicros }
  if plausiblePulse s.cfg pw then
    s.setDevice h (.servo { measured with lastPulseValid := true, targetAngle := angleOf s.cfg pw })
  else
    (s.warn (.servoPulseRange h pw)).setDevice h (.servo { measured with lastPulseValid := false })

/-- `decode(h)` for a servo on channel `ch` (R242). -/
def decodePulse (h : Nat) (V : ServoState) (ch : ServoChannel) (s : State) : State :=
  if s.countKind ch.timer = .frozen then rejectNoTop h V (s.mode ch.timer) s
  else if s.top ch.timer = 0 then rejectNoTop h V (s.mode ch.timer) s
  else acceptPulse h V (pulseWidth (s.compare ch.timer ch.chan) (s.top ch.timer) V.periodMicros) s

/-- `decode(h)` (R242); a handle that names no servo with a channel has nothing to decode (R240). -/
def decodeServo (h : Nat) (s : State) : State :=
  match s.servo? h with
  | none => s
  | some V =>
    match V.channel with
    | none => s
    | some ch => decodePulse h V ch s

/-- A servo's decode is triggered by a change of register `a`: its compare register, or the register that is its
timer's top in the current mode (R240). -/
def channelTriggeredBy (c : Config) (a : Nat) (m : Memory) (ch : ServoChannel) : Bool :=
  a == compareReg c ch.timer ch.chan || topSourceAddr c ch.timer (modeNumber c ch.timer m) == some a

/-- The device is a servo that a change of register `a` triggers (R240). -/
def Device.triggeredBy (c : Config) (a : Nat) (m : Memory) : Device → Bool
  | .display _ => false
  | .servo V => V.channel.any (channelTriggeredBy c a m)

/-- The handles of the servos that a change of register `a` triggers, in ascending order (R240). -/
def servosTriggeredBy (a : Nat) (s : State) : List Nat :=
  (s.devs.entries.filter fun e => e.2.triggeredBy s.cfg a s.mem).map Prod.fst

/-- `REGCHANGE a, old, new` (R240): the address is a trigger only; the decode reads live registers. Each decode warns for
itself (R242), whatever R311 says of one operation's warnings. [DEDUCED, log entry 13; unsafe] -/
def regChange (a : Nat) (s : State) : State := (servosTriggeredBy a s).foldl (fun s h => decodeServo h s) s

/-! ## Motion update -/

/-- The torque model (R252). -/
def stalled (V : ServoState) : Bool := decide (0 < V.maxTorque) && decide (V.maxTorque < V.loadWeight * V.armLength)

/-- The error the motion update works on (R250). -/
def angleError (V : ServoState) : ℚ := V.targetAngle - V.currentAngle

/-- The servo is at its target, or within the deadband (R253). -/
def atTarget (V : ServoState) : Bool := angleError V = 0 || decide (|angleError V| < V.deadbandDeg)

/-- The angle after moving for `elapsed` microseconds (R250, R253). -/
def movedAngle (V : ServoState) (elapsed : Nat) : ℚ :=
  clampTo
    (V.currentAngle +
      signOf (angleError V) * min |angleError V| (V.speedDegPerSec * (elapsed : ℚ) / 1000000)) 0 180

/-- A move to `angle` is notified: far enough from the last notified angle, or at the target (R254). -/
def notifiesMove (c : Config) (V : ServoState) (angle : ℚ) : Bool :=
  decide (angle ≠ V.currentAngle) &&
    (decide (c.notifyThresholdDeg ≤ |angle - V.lastNotifiedAngle|) || decide (angle = V.targetAngle))

/-- The servo holds its angle in this update: it is stalled, or there is nothing to move (R250, R252, R253). -/
def holdsStill (V : ServoState) : Bool := stalled V || atTarget V

/-- The angle that an update at time `now` moves a servo to (R250, R251). -/
def motionAngle (now : Nat) (V : ServoState) : ℚ := movedAngle V (now - V.lastUpdateTimestamp)

/-- An update at time `now` notifies (R250, R254). -/
def motionNotifies (c : Config) (now : Nat) (V : ServoState) : Bool :=
  !holdsStill V && notifiesMove c V (motionAngle now V)

/-- One servo after its motion update at time `now` (R250). The timestamp advances on every update (R251) and the
stall state is evaluated again (R252). -/
def motionUpdate (c : Config) (now : Nat) (V : ServoState) : ServoState :=
  { V with
    lastUpdateTimestamp := now, isStalled := stalled V,
    currentAngle := if holdsStill V then V.currentAngle else motionAngle now V,
    lastNotifiedAngle := if motionNotifies c now V then motionAngle now V else V.lastNotifiedAngle }

/-- One servo's motion update at time `now`, with its notification (R250, R254). -/
def motionServo (now h : Nat) (s : State) : State :=
  match s.servo? h with
  | none => s
  | some V =>
    let updated := s.setDevice h (.servo (motionUpdate s.cfg now V))
    if motionNotifies s.cfg now V then updated.emit (.notifyServo h (motionAngle now V)) else updated

/-- The device is a servo. -/
def Device.isServo : Device → Bool
  | .display _ => false
  | .servo _ => true

/-- The handles of the registered servos, in ascending order (R250). -/
def servoHandles (s : State) : List Nat := (s.devs.entries.filter fun e => e.2.isServo).map Prod.fst

/-- `MOTION` (R250). -/
def motion (s : State) : State := (servoHandles s).foldl (fun s' h => motionServo s.nowMicros h s') s

/-! ## Meanings -/

/-- REGCHANGE (R240). -/
def execRegchange (a _old _new : Nat) (s : State) : Host.Outcome State Fault Refusal := .next (regChange a s)

/-- MOTION (R250). -/
def execMotion (s : State) : Host.Outcome State Fault Refusal := .next (motion s)

end Sys2Proof.Machine
end

