-- ==== Sys2Proof/Machine/Observer.lean ====
section
/-! DEFINITION. The register observer bridge: `OBSERVE` (42_observer_bridge.md, R180 to R189). -/

namespace Sys2Proof.Machine

/-- One bit of a port register (R180, R183): a changed bit with a board pin emits its event and delivers it to the
display decoder at once (R187). -/
def observeBit (ts addr : Nat) (old new : Byte) (s : State) (i : Nat) : State :=
  if old.getLsbD i = new.getLsbD i then s
  else
    match pinOf s.cfg addr i with
    | none => s
    | some p => pinChange p (new.getLsbD i) (s.emit (.pinChange p (new.getLsbD i) ts))

/-- A value register (R184): a changed value emits its event and delivers it to the servo engine at once (R187). -/
def observeValue (addr old new : Nat) (s : State) : State :=
  if old = new then s else regChange addr (s.emit (.regChange addr old new))

/-- The snapshot entries of a register take what register memory holds (R182). -/
def refreshSnapshot (addrs : List Nat) (s : State) : State := { s with snap := s.mem.copyAt addrs s.snap }

/-- One register of the observed list (R180). -/
def observeReg (ts : Nat) (s : State) (r : ObservedReg) : State :=
  let addr := registerAddr s.cfg r.reg
  refreshSnapshot (observedBytes s.cfg r)
    (match r.cls with
    | .port => (List.range 8).foldl (observeBit ts addr (s.snap.read addr) (s.mem.read addr)) s
    | .value =>
      if isWideRegister r.reg then observeValue addr (s.snap.read16 addr) (s.mem.read16 addr) s
      else observeValue addr (s.snap.read addr).toNat (s.mem.read addr).toNat s)

/-- `OBSERVE` (R180): every observed register in order, all with the timestamp at the call (R185). Each delivery warns
for itself (R187), whatever R311 says of one operation's warnings. [DEDUCED, log entry 13; unsafe] -/
def observe (s : State) : State := s.cfg.observedRegs.foldl (observeReg s.nowMicros) s

/-- OBSERVE (R180). -/
def execObserve (s : State) : Host.Outcome State Fault Refusal := .next (observe s)

end Sys2Proof.Machine
end

