-- ==== Sys2Proof/Machine/Timers.lean ====
section
/-! DEFINITION. The timer family: `TICK` (40_timers.md, R120 to R146). -/

namespace Sys2Proof.Machine

/-- A batch of `k ≥ 1` timer ticks (R131 to R136): load, advance, write back, batch flags, then the events in the
order compare A, compare B, overflow. -/
def tickBatch (t : TimerId) (k : Nat) (s : State) : State :=
  let T := s.timer t
  let c := s.count t
  let A := s.compare t .a
  let B := s.compare t .b
  let top := s.top t
  let adv := advance (s.countKind t) c k top T.countDown
  let T' := { T with
    counter := adv.counter, top := top, compareA := A, compareB := B, overflowed := adv.overflow,
    matchA := adv.visited A, matchB := adv.visited B, countDown := adv.countDown }
  let written := { s.setTimer t T' with mem := writeCounter s.cfg t s.mem adv.counter }
  signalIf T'.overflowed t .overflow (signalIf T'.matchB t .compB (signalIf T'.matchA t .compA written))

/-- The prescaled part of a tick (R128, R129): the remainder carries what the divisor leaves; a batch without a timer
tick ends here. -/
def tickPrescaled (t : TimerId) (d n : Nat) (s : State) : State :=
  let T := s.timer t
  let total := T.cycleRemainder + n
  let k := total / d
  let carried := s.setTimer t { T with cycleRemainder := total - k * d }
  if k = 0 then carried else tickBatch t k carried

/-- `TICK t, n` (R140): live decode (R121), then R122, R126 or R128. Zero cycles change nothing (R123). -/
def tick (t : TimerId) (n : Nat) (s : State) : State :=
  if n = 0 then s
  else
    let decoded := s.setTimer t { s.timer t with prescaler := s.clock t }
    let frozen := decoded.warn (.timerUnsupported t (s.mode t) (clockSelect s.cfg t s.mem))
    if s.clock t = .off then decoded
    else if s.countKind t = .frozen then frozen
    else
      match (s.clock t).divisor? with
      | none => frozen
      | some d => tickPrescaled t d n decoded

/-- TICK (R140). -/
def execTick (t : TimerId) (n : Nat) (s : State) : Host.Outcome State Fault Refusal := .next (tick t n s)

end Sys2Proof.Machine
end

