-- ==== Sys2Proof/Machine/HostOps.lean ====
section
/-! DEFINITION. The step loop, the time source, device registration, the CPU's register write and reset
(45_step_time_host.md, R270 to R292; 70_reset_and_hazards.md, R340 to R343). -/

namespace Sys2Proof.Machine

/-! ## Time (R277, R278) -/

/-- `TIMETICK n` (R277). -/
def timeTick (n : Nat) (s : State) : State := { s with time := ⟨s.time.totalCycles + n⟩ }

/-! ## The step (R271) -/

/-- `STEP n` (R271), in the order of R272: time, T0, T1, global-enable refresh, dispatch, observe. -/
def stepCycles (n : Nat) (s : State) : State :=
  let ticked := tick .t1 n (tick .t0 n (timeTick n s))
  observe (dispatchPending (setGie (ticked.mem.bit s.cfg.reg.sreg 7) ticked))

/-! ## Registration (R280 to R284) -/

/-- The number of data lines as a mode (R50, R106). -/
def bitModeOf (lines : Nat) : BitMode := if lines = 8 then .eight else .four

/-- `rows' = (rows = 0) ? default : rows` (R280). -/
def orDefault (given default : Nat) : Nat := if given = 0 then default else given

/-- `validDisplay` (R284): every pin is one of the pin map, which is 0 to 19 under R99's map; 1 to 4 rows, 1 to 40
columns. [DEDUCED, log entry 3: the pins; unsafe under another pin map] -/
def validDisplay (c : Config) (rs en : Nat) (d : List Nat) (rows cols : Nat) : Bool :=
  isBoardPin c rs && isBoardPin c en && d.all (isBoardPin c) && (decide (1 ≤ rows) && decide (rows ≤ 4)) &&
    (decide (1 ≤ cols) && decide (cols ≤ 40))

/-- `validServo` (R284), with pins as in `validDisplay`. -/
def validServo (c : Config) (pin period : Nat) (initAngle : ℚ) : Bool :=
  isBoardPin c pin && decide (0 < period) && decide (initAngle ≤ 180)

/-- A display's runtime fields at their values of R65. -/
def resetDisplay (D : DisplayState) : DisplayState :=
  { D with
    pendingNibble := 0, expectingHighNibble := true, buffer := blankBuffer D.rows D.cols, cursor := ⟨0, 0⟩,
    displayOn := false, cursorOn := false, blinkOn := false }

/-- A new display (R280): its configuration, and its runtime fields as in R65. -/
def newDisplay (rs en : Nat) (d : List Nat) (rows cols : Nat) (mode : Addressing) : DisplayState :=
  { rsPin := rs, enPin := en, dataPins := d, bitMode := bitModeOf d.length, rows := rows, cols := cols,
    addressing := mode, pendingNibble := 0, expectingHighNibble := true, buffer := blankBuffer rows cols,
    cursor := ⟨0, 0⟩, displayOn := false, cursorOn := false, blinkOn := false }

/-- A new servo (R281), registered at time `now`. -/
def newServo (pin : Nat) (speed deadband maxTorque load arm : ℚ) (period : Nat) (initAngle : ℚ) (now : Nat) :
    ServoState :=
  { signalPin := pin, channel := channelOf pin, speedDegPerSec := speed, deadbandDeg := deadband,
    maxTorque := maxTorque, periodMicros := period, initialAngle := initAngle, initialLoadWeight := load,
    initialArmLength := arm, loadWeight := load, armLength := arm, currentAngle := initAngle,
    targetAngle := initAngle, isStalled := false, lastUpdateTimestamp := now, lastPulseWidth := 0,
    lastPeriod := period, lastPulseValid := false, lastNotifiedAngle := initAngle }

/-- `REGDISPLAY` (R280). -/
def registerDisplay (rs en : Nat) (d : List Nat) (rows cols : Nat) (mode : Addressing) (s : State) : State :=
  let rows' := orDefault rows s.cfg.lcdDefaultRows
  let cols' := orDefault cols s.cfg.lcdDefaultCols
  if validDisplay s.cfg rs en d rows' cols' then s.addDevice (.display (newDisplay rs en d rows' cols' mode))
  else s.warn (.regBadConfig ([rs, en, d.length] ++ d ++ [rows, cols, mode.operand]))

/-- `REGSERVO` (R281), its rational operands in thousandths. A pin without a channel warns and is registered. -/
def registerServo (pin speed deadband maxTorque load arm period initAngle : Nat) (s : State) : State :=
  if validServo s.cfg pin period (thousandths initAngle) then
    let warned := if (channelOf pin).isNone then s.warn (.servoNoChannel pin) else s
    warned.addDevice
      (.servo
        (newServo pin (thousandths speed) (thousandths deadband) (thousandths maxTorque) (thousandths load)
          (thousandths arm) period (thousandths initAngle) s.nowMicros))
  else s.warn (.regBadConfig [pin, speed, deadband, maxTorque, load, arm, period, initAngle])

/-- `SETLOAD h, load, arm` (R283), its rational operands in thousandths. -/
def setLoad (h load arm : Nat) (s : State) : State :=
  match s.servo? h with
  | none => s
  | some V => s.setDevice h (.servo { V with loadWeight := thousandths load, armLength := thousandths arm })

/-! ## Construction and reset (R286, R340, R341) -/

/-- The construction of a block with a configuration: refused for one of the reasons of `Config.check`. -/
def configure (c : Config) : Except ConfigError State :=
  match c.check with
  | none => .ok (State.resetWith c)
  | some e => .error e

/-- A servo's host-writable and runtime fields at their values of R65. -/
def resetServo (V : ServoState) : ServoState :=
  { V with
    loadWeight := V.initialLoadWeight, armLength := V.initialArmLength, currentAngle := V.initialAngle,
    targetAngle := V.initialAngle, isStalled := false, lastUpdateTimestamp := 0, lastPulseWidth := 0,
    lastPeriod := V.periodMicros, lastPulseValid := false, lastNotifiedAngle := V.initialAngle }

/-- A device's runtime fields at their values of R65. -/
def resetDevice : Device → Device
  | .display D => .display (resetDisplay D)
  | .servo V => .servo (resetServo V)

/-- `RESET` (R286, R340): every field of the block at its value of R65, the snapshot taken from register memory. The
configuration, register memory, the registrations, the next handle and the output already emitted survive (R342). That
RESET writes the snapshot is R65's, R182's and R340's word against R45's. [DEDUCED, log entry 14; unsafe] -/
def resetBlock (s : State) : State :=
  { s with
    t0 := TimerState.reset 0xFF, t1 := TimerState.reset 0xFFFF, ic := IcState.reset, time := ⟨0⟩,
    devs := { s.devs with entries := s.devs.entries.map fun e => (e.1, resetDevice e.2) },
    snap := s.mem.copyAt (observedAddrs s.cfg) [] }

/-! ## Meanings -/

/-- RESET (R286). -/
def execReset (s : State) : Host.Outcome State Fault Refusal := .next (resetBlock s)

/-- STEP (R271). -/
def execStep (n : Nat) (s : State) : Host.Outcome State Fault Refusal := .next (stepCycles n s)

/-- MEMWRITE (R285). An address outside the register memory, which the decoder refuses (R104), faults. -/
def execMemwrite (a : Nat) (v : Byte) (s : State) : Host.Outcome State Fault Refusal :=
  if a < s.cfg.regMemSize then .next { s with mem := s.mem.write a v } else .fault (.outsideMemory a)

/-- REGDISPLAY (R280). -/
def execRegdisplay (rs en : Nat) (d : List Nat) (rows cols : Nat) (mode : Addressing) (s : State) :
    Host.Outcome State Fault Refusal := .next (registerDisplay rs en d rows cols mode s)

/-- REGSERVO (R281). -/
def execRegservo (pin speed deadband maxTorque load arm period initAngle : Nat) (s : State) :
    Host.Outcome State Fault Refusal :=
  .next (registerServo pin speed deadband maxTorque load arm period initAngle s)

/-- UNREG (R282). An unknown handle is ignored. -/
def execUnreg (h : Nat) (s : State) : Host.Outcome State Fault Refusal := .next (s.removeDevice h)

/-- SETLOAD (R283). -/
def execSetload (h load arm : Nat) (s : State) : Host.Outcome State Fault Refusal := .next (setLoad h load arm s)

/-- TIMETICK (R277). -/
def execTimetick (n : Nat) (s : State) : Host.Outcome State Fault Refusal := .next (timeTick n s)

/-- NOWUS (R278). -/
def execNowus (s : State) : Host.Outcome State Fault Refusal := .next (s.emit (.value s.nowMicros))

/-- NOWMS (R278). -/
def execNowms (s : State) : Host.Outcome State Fault Refusal := .next (s.emit (.value s.nowMillis))

end Sys2Proof.Machine
end

