-- ==== Sys2Proof/Machine/Dispatch.lean ====
section
/-! DEFINITION. One arm per instruction (R102, R108), each a direct call of its meaning. -/

namespace Sys2Proof.Machine

-- The instruction's meaning at a state.
def exec (i : Instr) (s : State) : Host.Outcome State Fault Refusal :=
  match i with
  | .reset => Sys2Proof.Machine.execReset s
  | .step n => Sys2Proof.Machine.execStep n s
  | .memwrite a v => Sys2Proof.Machine.execMemwrite a v s
  | .motion => Sys2Proof.Machine.execMotion s
  | .tick t n => Sys2Proof.Machine.execTick t n s
  | .raise v => Sys2Proof.Machine.execRaise v s
  | .setgie b => Sys2Proof.Machine.execSetgie b s
  | .dispatch => Sys2Proof.Machine.execDispatch s
  | .reti => Sys2Proof.Machine.execReti s
  | .observe => Sys2Proof.Machine.execObserve s
  | .pinchange pin level ts => Sys2Proof.Machine.execPinchange pin level ts s
  | .regchange a old new => Sys2Proof.Machine.execRegchange a old new s
  | .regdisplay rs en d rows cols mode => Sys2Proof.Machine.execRegdisplay rs en d rows cols mode s
  | .regservo pin speed db torque load arm per ang => Sys2Proof.Machine.execRegservo pin speed db torque load arm per ang s
  | .unreg h => Sys2Proof.Machine.execUnreg h s
  | .setload h load arm => Sys2Proof.Machine.execSetload h load arm s
  | .timetick n => Sys2Proof.Machine.execTimetick n s
  | .nowus => Sys2Proof.Machine.execNowus s
  | .nowms => Sys2Proof.Machine.execNowms s
  | .lcdUnknown h => Sys2Proof.Machine.execLcdUnknown h s
  | .lcdClear h => Sys2Proof.Machine.execLcdClear h s
  | .lcdHome h x => Sys2Proof.Machine.execLcdHome h x s
  | .lcdEntryModeSet h inc shift => Sys2Proof.Machine.execLcdEntryModeSet h inc shift s
  | .lcdDisplayControl h d c b => Sys2Proof.Machine.execLcdDisplayControl h d c b s
  | .lcdCursorDisplayShift h sc rl x => Sys2Proof.Machine.execLcdCursorDisplayShift h sc rl x s
  | .lcdFunctionSet h dl n f x => Sys2Proof.Machine.execLcdFunctionSet h dl n f x s
  | .lcdSetCgramAddress h a => Sys2Proof.Machine.execLcdSetCgramAddress h a s
  | .lcdSetDdramAddress h a => Sys2Proof.Machine.execLcdSetDdramAddress h a s
  | .lcdWriteData h c => Sys2Proof.Machine.execLcdWriteData h c s

end Sys2Proof.Machine
end

