-- ==== Sys2Proof/Machine/Fetch.lean ====
section
/-! DEFINITION. How the next instruction reaches the block: the command at the head of the stream (R101), and, for the
host's probe, the same bytes placed where the next step reads them. -/

namespace Sys2Proof.Machine

/-- The state after the command at the head of the stream has been taken from it. -/
def State.consume (s : State) (length : Nat) : State :=
  { s with stream := s.stream.drop length, pos := s.pos + length }

/-- The bytes replace as many bytes at the head of the stream. -/
def State.placeCommand (s : State) (bs : List Byte) : State := { s with stream := bs ++ s.stream.drop bs.length }

/-- The wiring of the probe's display: register-select on pin 8, enable on pin 9, D7 to D0 on pins 7 to 0, so that,
with R99's pin map, PORTD holds the byte and PORTB bit 0 the register-select level. -/
def probeDisplay (c : Config) : DisplayState :=
  newDisplay 8 9 [7, 6, 5, 4, 3, 2, 1, 0] c.lcdDefaultRows c.lcdDefaultCols c.lcdAddressing

/-- A byte on a display's data lines, about to be latched: the registry holds one 8-bit display, the port registers
hold the byte and the register-select level, and the next command is the falling edge of its enable line (R202,
R204). [DESIGN CHOICE, log entry 7; safe: used by the host's probe only] -/
def State.placeDisplayByte (s : State) (rs : Bool) (b : Byte) : State :=
  let wired := { s with
    devs := ⟨[(probeHandle, .display (probeDisplay s.cfg))], max s.devs.nextHandle (probeHandle + 1)⟩,
    mem :=
      (if rs then s.mem.setBit s.cfg.reg.portb 0 else s.mem.clearBit s.cfg.reg.portb 0).write s.cfg.reg.portd b }
  wired.placeCommand (encode (.pinchange 9 false 0))

/-- A table word placed where the next step reads its instruction: in the command stream, or on a display's data
lines for a display byte (log entry 7). -/
def State.placeTableWord (s : State) (nbits w : Nat) : State :=
  match decodeTableSource s.cfg nbits w with
  | some (.lines _ rs, _) => s.placeDisplayByte rs (BitVec.ofNat 8 w)
  | _ => s.placeCommand (tableWordBytes nbits w)

end Sys2Proof.Machine
end

