-- ==== Sys2Proof/Machine/Step.lean ====
section
/-! DEFINITION. One step: the next command of the stream is decoded and run (R270), or refused by name and position
with nothing run (R103, R104, R302). With no command left nothing happens (R292). [DESIGN CHOICE, log entry 1; safe] -/

namespace Sys2Proof.Machine

/-- One step of the block: one command of the host's stream. -/
def step (s : State) : Host.Outcome State Fault Refusal :=
  match decodeCommand s.cfg s.stream with
  | .instr i length => exec i (s.consume length)
  | .endOfStream => .next s
  | .illegalOpcode opcode => .refused (.illegalOpcode opcode s.pos)
  | .illegalOperand mnemonic => .refused (.illegalOperand mnemonic s.pos)
  | .truncated mnemonic => .refused (.truncatedCommand mnemonic s.pos)

/-- The state with an instruction of spec/opcode_table.json stored where `step` reads its next instruction. -/
def State.withFetchWord (s : State) (nbits w : Nat) : State := s.placeTableWord nbits w

end Sys2Proof.Machine
end

