-- ==== Sys2Proof/Machine/Assembler.lean ====
section
/-! DEFINITION. The assembler syntax of the command stream and its pseudo-instructions (R105). What R105 leaves open of
the syntax is log entry 17. [DESIGN CHOICE; safe: no rule about the machine rests on it] -/

namespace Sys2Proof.Machine

/-! ## Pseudo-instructions -/

/-- `SET16 a, v`: the high byte, then the low byte (R105). -/
def expandSet16 (a v : Nat) : List Instr :=
  [.memwrite (a + 1) (BitVec.ofNat 8 (v / 256)), .memwrite a (BitVec.ofNat 8 v)]

/-- `PULSE pin, k`: raise the pin, step, lower it, step, with register memory as it is when the line is expanded
(R105); none for a number that is no board pin. -/
def expandPulse (c : Config) (m : Memory) (pin k : Nat) : Option (List Instr) :=
  (pinLocation c pin).map fun loc =>
    [.memwrite loc.1 (m.read loc.1 ||| (1#8 <<< loc.2)), .step k,
      .memwrite loc.1 (m.read loc.1 &&& ~~~(1#8 <<< loc.2)), .step k]

/-- `SREG_SEI`: set bit 7 of SREG (R105). -/
def expandSregSei (c : Config) (m : Memory) : List Instr :=
  [.memwrite c.reg.sreg (m.read c.reg.sreg ||| 0x80)]

/-! ## Characters and tokens -/

def isSpace (c : Char) : Bool := c == ' ' || c == '\t' || c == '\r' || c == '\n'

/-- The text without spaces at either end. -/
def trimSpaces (cs : List Char) : List Char := ((cs.dropWhile isSpace).reverse.dropWhile isSpace).reverse

/-- The pieces between the commas of a text; one empty piece for an empty text. -/
def splitCommas : List Char → List (List Char)
  | [] => [[]]
  | c :: cs =>
    match splitCommas cs with
    | [] => [[c]]
    | piece :: pieces => if c == ',' then [] :: piece :: pieces else (c :: piece) :: pieces

/-- The value of a hexadecimal digit. -/
def digitValue (c : Char) : Option Nat :=
  if '0' ≤ c && c ≤ '9' then some (c.toNat - 48)
  else if 'a' ≤ c && c ≤ 'f' then some (c.toNat - 87)
  else if 'A' ≤ c && c ≤ 'F' then some (c.toNat - 55)
  else none

/-- The number that digits of a base write, after a part already read. -/
def readDigits (base : Nat) : List Char → Nat → Option Nat
  | [], acc => some acc
  | c :: cs, acc =>
    match digitValue c with
    | some d => if d < base then readDigits base cs (base * acc + d) else none
    | none => none

/-- A number: decimal, or hexadecimal after `0x` (R105). -/
def readNumber : List Char → Option Nat
  | [] => none
  | '0' :: 'x' :: d :: ds => readDigits 16 (d :: ds) 0
  | ds => readDigits 10 ds 0

/-- A rational operand: a decimal fraction with at most three decimals, or a number, as thousandths (R105). -/
def readThousandths (cs : List Char) : Option Nat :=
  match cs.span (· != '.') with
  | (whole, []) => (readNumber whole).map (· * 1000)
  | (whole, _ :: frac) =>
    if whole.isEmpty || frac.isEmpty || 3 < frac.length then none
    else
      match readDigits 10 whole 0, readDigits 10 (frac ++ List.replicate (3 - frac.length) '0') 0 with
      | some w, some f => some (1000 * w + f)
      | _, _ => none

/-- The names of the register map with their addresses, the low byte's for a 16-bit register (R30, R105). -/
def registerNames (c : Config) : List (String × Nat) :=
  let r := c.reg
  [("PORTB", r.portb), ("PORTC", r.portc), ("PORTD", r.portd), ("TIFR0", r.tifr0), ("TIFR1", r.tifr1),
    ("TCCR0A", r.tccr0a), ("TCCR0B", r.tccr0b), ("TCNT0", r.tcnt0), ("OCR0A", r.ocr0a), ("OCR0B", r.ocr0b),
    ("SREG", r.sreg), ("TIMSK0", r.timsk0), ("TIMSK1", r.timsk1), ("TCCR1A", r.tccr1a), ("TCCR1B", r.tccr1b),
    ("TCNT1", r.tcnt1), ("ICR1", r.icr1), ("OCR1A", r.ocr1a), ("OCR1B", r.ocr1b)]

/-- A register operand: a name of the register map, or a number (R105). -/
def readRegister (c : Config) (cs : List Char) : Option Nat :=
  match (registerNames c).find? fun e => e.1.toList == cs with
  | some e => some e.2
  | none => readNumber cs

/-! ## Lines -/

/-- The operands as numbers, thousandths or a register, as the mnemonic takes them. -/
def readAll (readers : List (List Char → Option Nat)) (operands : List (List Char)) : Option (List Nat) :=
  match readers, operands with
  | [], [] => some []
  | r :: rs, o :: os =>
    match r o, readAll rs os with
    | some v, some vs => some (v :: vs)
    | _, _ => none
  | _, _ => none

/-- A level or enable operand as text. -/
def flagOperand : Nat → Option Bool
  | 0 => some false
  | 1 => some true
  | _ => none

/-- A command or pseudo-instruction without operands. -/
def assembleBare (c : Config) (m : Memory) (mnemonic : String) : Option (List Instr) :=
  match mnemonic with
  | "RESET" => some [.reset]
  | "MOTION" => some [.motion]
  | "DISPATCH" => some [.dispatch]
  | "RETI" => some [.reti]
  | "OBSERVE" => some [.observe]
  | "NOWUS" => some [.nowus]
  | "NOWMS" => some [.nowms]
  | "SREG_SEI" => some (expandSregSei c m)
  | _ => none

/-- REGDISPLAY with its operands read as numbers: `rs, en, n`, then `n` data pins, `rows, cols, mode` (R102). -/
def assembleDisplay (operands : List Nat) : Option (List Instr) :=
  match operands with
  | rs :: en :: n :: rest =>
    match rest.drop n with
    | [rows, cols, mode] =>
      if mode = 0 then some [.regdisplay rs en (rest.take n) rows cols .wrap]
      else if mode = 1 then some [.regdisplay rs en (rest.take n) rows cols .clamp]
      else none
    | _ => none
  | _ => none

/-- A command or pseudo-instruction with operands (R102, R105). -/
def assembleWith (c : Config) (m : Memory) (mnemonic : String) (ops : List (List Char)) : Option (List Instr) :=
  let num := readNumber
  let rat := readThousandths
  let reg := readRegister c
  match mnemonic with
  | "STEP" => match readAll [num] ops with
    | some [n] => some [.step n]
    | _ => none
  | "TIMETICK" => match readAll [num] ops with
    | some [n] => some [.timetick n]
    | _ => none
  | "RAISE" => match readAll [num] ops with
    | some [v] => some [.raise v]
    | _ => none
  | "UNREG" => match readAll [num] ops with
    | some [h] => some [.unreg h]
    | _ => none
  | "SETGIE" => match readAll [num] ops with
    | some [b] => (flagOperand b).map fun b => [.setgie b]
    | _ => none
  | "MEMWRITE" => match readAll [reg, num] ops with
    | some [a, v] => if v < 256 then some [.memwrite a (BitVec.ofNat 8 v)] else none
    | _ => none
  | "TICK" => match readAll [num, num] ops with
    | some [0, n] => some [.tick .t0 n]
    | some [1, n] => some [.tick .t1 n]
    | _ => none
  | "PINCHANGE" => match readAll [num, num, num] ops with
    | some [pin, level, ts] => (flagOperand level).map fun l => [.pinchange pin l ts]
    | _ => none
  | "REGCHANGE" => match readAll [reg, num, num] ops with
    | some [a, old, new] => some [.regchange a old new]
    | _ => none
  | "REGDISPLAY" => (readAll (List.replicate ops.length num) ops).bind assembleDisplay
  | "REGSERVO" => match readAll [num, rat, rat, rat, rat, rat, num, rat] ops with
    | some [pin, speed, db, torque, load, arm, per, ang] => some [.regservo pin speed db torque load arm per ang]
    | _ => none
  | "SETLOAD" => match readAll [num, rat, rat] ops with
    | some [h, load, arm] => some [.setload h load arm]
    | _ => none
  | "SET16" => match readAll [reg, num] ops with
    | some [a, v] => if v < 65536 then some (expandSet16 a v) else none
    | _ => none
  | "PULSE" => match readAll [num, num] ops with
    | some [pin, k] => expandPulse c m pin k
    | _ => none
  | _ => none

/-- One line of assembler text (R105): the commands it stands for, with register memory as it is when the line is
expanded; none for a line that is no command or whose operands have no encoding (R101, R104). -/
def assembleLine (c : Config) (m : Memory) (line : List Char) : Option (List Instr) :=
  match trimSpaces (line.takeWhile (· != ';')) with
  | [] => some []
  | text =>
    let mnemonic := String.ofList (text.takeWhile fun c => !isSpace c)
    let result :=
      match trimSpaces (text.dropWhile fun c => !isSpace c) with
      | [] => assembleBare c m mnemonic
      | rest => assembleWith c m mnemonic ((splitCommas rest).map trimSpaces)
    result.bind fun is => if is.all (Instr.wellFormed c) then some is else none

end Sys2Proof.Machine
end

