-- ==== Sys2Proof/Safety.lean ====
section
/-! DEFINITION. What a good state is: the invariants of R27, R40, R48, R50, R55, R170, R220 and R255, and the states a
run reaches. -/

namespace Sys2Proof.Machine

/-- The largest divisor of R7's PRESCALERS, or 1. -/
def maxDivisor (c : Config) : Nat := c.prescalers.foldr max 1

/-- A timer's fields fit its width (R27, R146), and its remainder lies below the largest divisor (R128). -/
structure TimerInv (width divisorBound : Nat) (T : TimerState) : Prop where
  counter_lt : T.counter < 2 ^ width
  top_lt : T.top < 2 ^ width
  compareA_lt : T.compareA < 2 ^ width
  compareB_lt : T.compareB < 2 ^ width
  remainder_lt : T.cycleRemainder < divisorBound

/-- At most one vector is in service (R40, R170). -/
def AtMostOneInService (ic : IcState) : Prop :=
  ∀ u v, ic.vec u = .inService → ic.vec v = .inService → u = v

/-- A display's configuration is one that R284 accepts, with 4 or 8 data lines as its mode says (R50), its buffer has
the registered geometry, and its cursor lies in it (R50, R220). -/
structure DisplayInv (c : Config) (D : DisplayState) : Prop where
  rsPin_board : isBoardPin c D.rsPin = true
  enPin_board : isBoardPin c D.enPin = true
  dataPins_board : D.dataPins.all (isBoardPin c) = true
  lines : D.dataPins.length = (match D.bitMode with | .four => 4 | .eight => 8)
  rows_pos : 1 ≤ D.rows
  rows_le : D.rows ≤ 4
  cols_pos : 1 ≤ D.cols
  cols_le : D.cols ≤ 40
  buffer_rows : D.buffer.length = D.rows
  buffer_cols : ∀ r ∈ D.buffer, r.length = D.cols
  cursor_row : D.cursor.row < D.rows
  cursor_col : D.cursor.col < D.cols

/-- A servo's angles lie in [0, 180] (R55, R255), its configuration is one that R284 accepts, and its channel is the one
of its pin (R100). -/
structure ServoInv (c : Config) (V : ServoState) : Prop where
  pin_board : isBoardPin c V.signalPin = true
  channel_eq : V.channel = channelOf V.signalPin
  period_pos : 0 < V.periodMicros
  speed_nonneg : 0 ≤ V.speedDegPerSec
  deadband_nonneg : 0 ≤ V.deadbandDeg
  maxTorque_nonneg : 0 ≤ V.maxTorque
  load_nonneg : 0 ≤ V.loadWeight
  arm_nonneg : 0 ≤ V.armLength
  initialLoad_nonneg : 0 ≤ V.initialLoadWeight
  initialArm_nonneg : 0 ≤ V.initialArmLength
  initial_range : 0 ≤ V.initialAngle ∧ V.initialAngle ≤ 180
  current_range : 0 ≤ V.currentAngle ∧ V.currentAngle ≤ 180
  target_range : 0 ≤ V.targetAngle ∧ V.targetAngle ≤ 180

/-- The invariant of a registered device. -/
def DeviceInv (c : Config) : Device → Prop
  | .display D => DisplayInv c D
  | .servo V => ServoInv c V

/-- The handles rise strictly and lie below the next handle to issue (R48). -/
structure RegistryInv (c : Config) (devs : DeviceRegistry) : Prop where
  sorted : (devs.entries.map Prod.fst).Pairwise (· < ·)
  below_next : ∀ e ∈ devs.entries, e.1 < devs.nextHandle
  next_pos : 1 ≤ devs.nextHandle
  devices : ∀ e ∈ devs.entries, DeviceInv c e.2

/-- The two memories are canonical; register memory lies inside the address space (R26), the snapshot on the observed
addresses (R45). -/
structure MemoryInv (s : State) : Prop where
  mem_wf : s.mem.wf = true
  mem_within : s.mem.within s.cfg.regMemSize = true
  snap_wf : s.snap.wf = true
  snap_observed : ∀ c ∈ s.snap, c.1 ∈ observedAddrs s.cfg

/-- The invariant of the block. -/
structure State.Inv (s : State) : Prop where
  /-- The configuration is accepted (R71, R98, log entry 3). -/
  cfg : s.cfg.Accepted
  memory : MemoryInv s
  t0 : TimerInv s.cfg.t0Width (maxDivisor s.cfg) s.t0
  t1 : TimerInv s.cfg.t1Width (maxDivisor s.cfg) s.t1
  ic : AtMostOneInService s.ic
  devs : RegistryInv s.cfg s.devs

/-! ## What the device engines may touch (R81, R219, R247) -/

/-- Nothing outside the device records and the output differs, and the same handles are registered. -/
structure OnlyDevices (s t : State) : Prop where
  cfg : t.cfg = s.cfg
  mem : t.mem = s.mem
  t0 : t.t0 = s.t0
  t1 : t.t1 = s.t1
  ic : t.ic = s.ic
  snap : t.snap = s.snap
  time : t.time = s.time
  stream : t.stream = s.stream
  pos : t.pos = s.pos
  nextHandle : t.devs.nextHandle = s.devs.nextHandle
  handles : t.devs.entries.map Prod.fst = s.devs.entries.map Prod.fst

/-- The events already emitted stay where they are; new ones come after them (R270, R342). -/
def OutputGrows (s t : State) : Prop := ∃ es, t.out = s.out ++ es

/-- A display keeps its configuration (R50), whatever happens to its runtime fields. -/
def SameDisplayConfig (D D' : DisplayState) : Prop :=
  D'.rsPin = D.rsPin ∧ D'.enPin = D.enPin ∧ D'.dataPins = D.dataPins ∧ D'.bitMode = D.bitMode ∧ D'.rows = D.rows ∧
    D'.cols = D.cols ∧ D'.addressing = D.addressing

/-- What the pulse decode may do to a servo (R81, R245): only the target and the pulse record differ. -/
def DecodeChange (V V' : ServoState) : Prop :=
  V' = { V with
    targetAngle := V'.targetAngle, lastPulseWidth := V'.lastPulseWidth, lastPeriod := V'.lastPeriod,
    lastPulseValid := V'.lastPulseValid }

/-- What the motion update may do to a servo (R81): only the angle, the stall state, the timestamp and the last
notified angle differ. -/
def MotionChange (V V' : ServoState) : Prop :=
  V' = { V with
    currentAngle := V'.currentAngle, isStalled := V'.isStalled, lastUpdateTimestamp := V'.lastUpdateTimestamp,
    lastNotifiedAngle := V'.lastNotifiedAngle }

/-! ## Effects and frames -/

/-- The state `t` is `s` after a byte turned display `h` from `D` into `D'`: every other device and every other part of
the state is as before, and a notification follows exactly if what a subscriber sees has changed (R205, R208). -/
structure DisplayUpdated (s : State) (h : Nat) (D D' : DisplayState) (t : State) : Prop where
  only : OnlyDevices s t
  device : ∀ k, t.device? k = if k = h then some (.display D') else s.device? k
  out : t.out =
    s.out ++ if displaySnapshot D' = displaySnapshot D then [] else [.notifyDisplay h (displaySnapshot D')]

/-- The events that the operation from `s` to `t` added to the output. -/
def newEvents (s t : State) : List Event := t.out.drop s.out.length

/-- The handles of the registry rise strictly (R48). -/
def HandlesRise (s : State) : Prop := (s.devs.entries.map Prod.fst).Pairwise (· < ·)

/-- The registers of a timer (R120, R145): control, counter, compares, top, mask and flag bytes. -/
def timerRegisters (c : Config) : TimerId → List Nat
  | .t0 =>
    let r := c.reg
    [r.tccr0a, r.tccr0b, r.tcnt0, r.ocr0a, r.ocr0b, r.timsk0, r.tifr0]
  | .t1 =>
    let r := c.reg
    [r.tccr1a, r.tccr1b, r.tcnt1, r.tcnt1 + 1, r.ocr1a, r.ocr1a + 1, r.ocr1b, r.ocr1b + 1, r.icr1, r.icr1 + 1,
      r.timsk1, r.tifr1]

/-- The bytes a timer writes: its counter and its flag register (R72, R120). -/
def timerWrites (c : Config) : TimerId → List Nat
  | .t0 => [c.reg.tcnt0, c.reg.tifr0]
  | .t1 => [c.reg.tcnt1, c.reg.tcnt1 + 1, c.reg.tifr1]

/-- What a timer may read (R145) is the same in both states: the configuration, its record, its registers, its
vectors. -/
structure TimerViewEq (t : TimerId) (s u : State) : Prop where
  cfg : s.cfg = u.cfg
  record : s.timer t = u.timer t
  registers : ∀ a ∈ timerRegisters s.cfg t, s.mem.read a = u.mem.read a
  vectors : ∀ v, vectorTimer v = t → s.ic.vec v = u.ic.vec v

/-- The flag that a batch recorded for an event (R134). -/
def TimerState.detected (T : TimerState) : TimerEvent → Bool
  | .compA => T.matchA
  | .compB => T.matchB
  | .overflow => T.overflowed

/-! ## Sequences of ticks (R141, R366) -/

/-- The timer ticks `k` of a `TICK t, n` with divisor `d` (R128). -/
def ticksOf (t : TimerId) (d n : Nat) (s : State) : Nat := ((s.timer t).cycleRemainder + n) / d

/-- The sum of the timer ticks of successive `TICK t` calls (R141). -/
def totalTicks (t : TimerId) (d : Nat) : List Nat → State → Nat
  | [], _ => 0
  | n :: ns, s => ticksOf t d n s + totalTicks t d ns (tick t n s)

/-- How many of successive `TICK t` calls detected an overflow (R134, R366). -/
def overflowCount (t : TimerId) (d : Nat) : List Nat → State → Nat
  | [], _ => 0
  | n :: ns, s =>
    (if 0 < ticksOf t d n s ∧ ((tick t n s).timer t).overflowed = true then 1 else 0) +
      overflowCount t d ns (tick t n s)

/-! ## The bridge's events (R180, R183, R184, R189) -/

/-- The events of a changed port byte: one for each changed bit with a board pin, lowest bit first (R183). -/
def portEvents (c : Config) (ts addr : Nat) (old new : Byte) : List Event :=
  (List.range 8).filterMap fun i =>
    if old.getLsbD i = new.getLsbD i then none else (pinOf c addr i).map fun p => .pinChange p (new.getLsbD i) ts

/-- The event of a changed value, if it changed (R184). -/
def valueEvents (addr old new : Nat) : List Event := if old = new then [] else [.regChange addr old new]

/-- The events of one observed register (R180). -/
def registerEvents (c : Config) (ts : Nat) (snap mem : Memory) (r : ObservedReg) : List Event :=
  let addr := registerAddr c r.reg
  match r.cls with
  | .port => portEvents c ts addr (snap.read addr) (mem.read addr)
  | .value =>
    if isWideRegister r.reg then valueEvents addr (snap.read16 addr) (mem.read16 addr)
    else valueEvents addr (snap.read addr).toNat (mem.read addr).toNat

/-- Every difference between the snapshot and register memory, in the order of R189. -/
def bridgeEvents (s : State) : List Event :=
  s.cfg.observedRegs.flatMap (registerEvents s.cfg s.nowMicros s.snap s.mem)

/-- The event is one of the bridge's (R183, R184). -/
def Event.isBridge : Event → Bool
  | .pinChange _ _ _ | .regChange _ _ _ => true
  | .warning _ | .dispatch _ _ | .notifyDisplay _ _ | .notifyServo _ _ | .handle _ | .value _ => false

/-- The event is a dispatch (R165). -/
def Event.isDispatch : Event → Bool
  | .dispatch _ _ => true
  | .warning _ | .pinChange _ _ _ | .regChange _ _ _ | .notifyDisplay _ _ | .notifyServo _ _ | .handle _
  | .value _ => false

/-- The event is a notification (R205, R254). -/
def Event.isNotify : Event → Bool
  | .notifyDisplay _ _ | .notifyServo _ _ => true
  | .warning _ | .pinChange _ _ _ | .regChange _ _ _ | .dispatch _ _ | .handle _ | .value _ => false

/-! ## The servo engine's events (R240 to R244, R250 to R254) -/

/-- What a change of register `a` makes servo `h` emit: a warning if it is triggered and its pulse is rejected. -/
def pulseEvents (a : Nat) (s : State) (h : Nat) (V : ServoState) : List Event :=
  match V.channel with
  | none => []
  | some ch =>
    let top := s.top ch.timer
    let pw := (2 * s.compare ch.timer ch.chan * V.periodMicros + top) / (2 * top)
    if a ≠ compareReg s.cfg ch.timer ch.chan ∧ topSourceAddr s.cfg ch.timer (s.mode ch.timer) ≠ some a then []
    else if s.countKind ch.timer = .frozen ∨ top = 0 then [.warning (.servoNoTop h (s.mode ch.timer))]
    else if pw < s.cfg.pulseMinUs ∨ s.cfg.pulseMaxUs < pw then [.warning (.servoPulseRange h pw)]
    else []

/-- The servo is stalled (R252). -/
abbrev Stalls (V : ServoState) : Prop := 0 < V.maxTorque ∧ V.maxTorque < V.loadWeight * V.armLength

/-- The angle that the update of a moving servo at time `now` gives it (R250). -/
def nextAngle (now : Nat) (V : ServoState) : ℚ :=
  let err := V.targetAngle - V.currentAngle
  let travel := min |err| (V.speedDegPerSec * ((now - V.lastUpdateTimestamp : Nat) : ℚ) / 1000000)
  max 0 (min 180 (V.currentAngle + (if 0 < err then travel else -travel)))

/-- The update of a moving servo notifies (R254). -/
abbrev Notifies (c : Config) (now : Nat) (V : ServoState) : Prop :=
  nextAngle now V ≠ V.currentAngle ∧
    (c.notifyThresholdDeg ≤ |nextAngle now V - V.lastNotifiedAngle| ∨ nextAngle now V = V.targetAngle)

/-- The servo moves in an update (R250, R252, R253). -/
abbrev Moves (V : ServoState) : Prop :=
  ¬Stalls V ∧ V.targetAngle ≠ V.currentAngle ∧ V.deadbandDeg ≤ |V.targetAngle - V.currentAngle|

/-- What the update of servo `h` emits. -/
def motionEvents (s : State) (h : Nat) (V : ServoState) : List Event :=
  if Moves V ∧ Notifies s.cfg s.nowMicros V then [.notifyServo h (nextAngle s.nowMicros V)] else []

/-- The events that the registered servos emit, in ascending handle order if the handles rise (R240, R250). -/
def servoEvents (f : Nat → ServoState → List Event) (s : State) : List Event :=
  s.devs.entries.flatMap fun e =>
    match e.2 with
    | .display _ => []
    | .servo V => f e.1 V

/-! ## Runs -/

/-- The second operation after the first, unless the first stops. -/
def andThen (o : Host.Outcome State Fault Refusal) (k : State → Host.Outcome State Fault Refusal) :
    Host.Outcome State Fault Refusal :=
  match o with
  | .next s => k s
  | .fault f => .fault f
  | .refused r => .refused r

/-- One command after another: the run of R292 on instructions, stopping at the first stop. -/
def runInstrs : List Instr → State → Host.Outcome State Fault Refusal
  | [], s => .next s
  | i :: is, s => andThen (exec i s) (runInstrs is)

/-- The command that an event of the bridge is delivered as (R187); the other events are delivered to nobody. -/
def Event.delivery : Event → List Instr
  | .pinChange pin level ts => [.pinchange pin level ts]
  | .regChange address old new => [.regchange address old new]
  | .warning _ | .dispatch _ _ | .notifyDisplay _ _ | .notifyServo _ _ | .handle _ | .value _ => []

/-- Each event goes on the output stream and is delivered before the next one (R187). -/
def emitAndDeliver : List Event → State → Host.Outcome State Fault Refusal
  | [], s => .next s
  | e :: es, s => andThen (runInstrs e.delivery (s.emit e)) (emitAndDeliver es)

/-- A falling edge at one display (R202 to R205), the dispatch of its byte being the instruction that the byte decodes
to. -/
def latchRuns (h : Nat) (s : State) : Host.Outcome State Fault Refusal :=
  match s.display? h with
  | none => .next s
  | some D =>
    let rs := pinLevel s.cfg s.mem D.rsPin
    let v := lineValue s.cfg s.mem D.dataPins
    match D.bitMode, D.expectingHighNibble with
    | .eight, _ => exec ((decodeDisplayByte rs (BitVec.ofNat 8 v)).toInstr h) s
    | .four, true =>
      .next (s.setDevice h (.display { D with pendingNibble := BitVec.ofNat 4 v, expectingHighNibble := false }))
    | .four, false =>
      exec ((decodeDisplayByte rs (D.pendingNibble ++ BitVec.ofNat 4 v)).toInstr h)
        (s.setDevice h (.display { D with expectingHighNibble := true }))

/-- A falling edge at one display after another (R200). -/
def latchRunsAll : List Nat → State → Host.Outcome State Fault Refusal
  | [], s => .next s
  | h :: hs, s => andThen (latchRuns h s) (latchRunsAll hs)

/-- Motion updates as time advances: before each one, the given number of cycles (R257, R275). -/
def motionRun (cycles : List Nat) : List Instr := cycles.flatMap fun n => [.timetick n, .motion]

/-- The states a run of well-formed commands reaches from a newly constructed block of an accepted configuration (R292,
R341). -/
def Reachable (s : State) : Prop :=
  ∃ (c : Config) (is : List Instr), c.Accepted ∧ (∀ i ∈ is, i.WellFormed c) ∧
    runInstrs is (State.resetWith c) = .next s

end Sys2Proof.Machine
end

