-- ==== Sys2Proof/Certificates/Slice0/Obligations.lean ====
section
/-! DEFINITION. The statements for the provers, in the order of the spec's files: reset, the two encodings, the step,
the timers, the interrupt controller, the observer bridge, the display decoder, the servo engine, the host operations,
and what holds of every operation. -/

section Statements

open Sys2Proof Sys2Proof.Machine

/-! ## Reset (10_state.md, 70_reset_and_hazards.md) -/

/-- R341, R340, R65, R48, R31: a newly constructed block, of any configuration; `State.reset` is the one with R7's
defaults. -/
def Obligations.ResetState : Prop :=
  State.reset = State.resetWith config ∧
  ∀ c : Config,
    let s := State.resetWith c
    s.cfg = c ∧
    (∀ t, (s.timer t).counter = 0 ∧ (s.timer t).prescaler = .off ∧ (s.timer t).compareA = 0 ∧
      (s.timer t).compareB = 0 ∧ (s.timer t).cycleRemainder = 0 ∧ (s.timer t).overflowed = false ∧
      (s.timer t).matchA = false ∧ (s.timer t).matchB = false ∧ (s.timer t).countDown = false) ∧
    s.t0.top = 0xFF ∧ s.t1.top = 0xFFFF ∧ (∀ v, s.ic.vec v = .idle) ∧ s.ic.gie = false ∧ s.time.totalCycles = 0 ∧
    s.devs.entries = [] ∧ s.devs.nextHandle = 1 ∧ (∀ a, s.mem.read a = 0) ∧
    (∀ a, a ∈ observedAddrs c → s.snap.read a = s.mem.read a) ∧ s.out = []

/-- R98: a configuration with two equal vector priorities constructs no block. R71: nor does one with a 16-bit register at
the last address; that none with any other register byte outside the register memory does is the model's choice (log
entry 3), and so are the other refusals of `Config.check`. An accepted one, R7's defaults among them, constructs a block
that meets the invariant (R27, R40, R48, R50, R55, R170, R220). -/
def Obligations.ResetMeetsInvariant : Prop :=
  State.reset.Inv ∧
  (∀ c : Config, c.Accepted → configure c = .ok (State.resetWith c) ∧ (State.resetWith c).Inv) ∧
  (∀ (c : Config) (u v : IrqVector), u ≠ v → (vectorRow c u).priority = (vectorRow c v).priority →
    configure c = .error .equalPriorities) ∧
  ∀ (c : Config) (a : Nat), a ∈ c.reg.bytes → c.regMemSize ≤ a → ∃ e, configure c = .error e

/-- R286, with the values of R65: RESET from any state. Three clauses are the model's reading: that a servo's load and
arm return to fields of their own, which hold the values given at registration (log entry 9); that RESET refreshes the
snapshot at all, against R45 (log entry 14); and that the snapshot reads 0 at the addresses it does not hold (log
entry 4). -/
def Obligations.ResetCommandRestoresReset : Prop :=
  (∀ c : Config, decodeCommand c [0x01] = .instr .reset 1) ∧
  ∀ s, ∃ t, exec .reset s = .next t ∧ t.cfg = s.cfg ∧
    t.t0 = State.reset.t0 ∧ t.t1 = State.reset.t1 ∧ (∀ v, t.ic.vec v = .idle) ∧ t.ic.gie = false ∧
    t.time.totalCycles = 0 ∧ t.mem = s.mem ∧ t.out = s.out ∧ t.stream = s.stream ∧ t.pos = s.pos ∧
    t.devs.nextHandle = s.devs.nextHandle ∧ t.devs.entries.map Prod.fst = s.devs.entries.map Prod.fst ∧
    (∀ a, a ∈ observedAddrs s.cfg → t.snap.read a = s.mem.read a) ∧
    (∀ a, a ∉ observedAddrs s.cfg → t.snap.read a = 0) ∧
    (∀ h D, s.display? h = some D →
      t.display? h = some { D with
        pendingNibble := 0, expectingHighNibble := true,
        buffer := List.replicate D.rows (List.replicate D.cols 0x20), cursor := ⟨0, 0⟩,
        displayOn := false, cursorOn := false, blinkOn := false }) ∧
    (∀ h V, s.servo? h = some V →
      t.servo? h = some { V with
        currentAngle := V.initialAngle, targetAngle := V.initialAngle, lastNotifiedAngle := V.initialAngle,
        isStalled := false, lastUpdateTimestamp := 0, lastPulseWidth := 0, lastPeriod := V.periodMicros,
        lastPulseValid := false, loadWeight := V.initialLoadWeight, armLength := V.initialArmLength })

/-! ## Encodings (30_encoding.md) -/

/-- R101, R102, R107, R108: the decoder of an instruction's source reads every well-formed instruction back from its
encoding, whatever follows it, with its length. -/
def Obligations.DecodeOfEncode : Prop :=
  ∀ (c : Config) (i : Instr) (rest : List Byte), i.WellFormed c →
    decodeFrom c i.source (encode i ++ rest) = .instr i (encode i).length

/-- R101, R102, R104: what the command decoder reads is a well-formed command, and the bytes it took are the command's
encoding. -/
def Obligations.EncodeOfDecode : Prop :=
  ∀ (c : Config) (bs : List Byte) (i : Instr) (n : Nat), decodeCommand c bs = .instr i n →
    i.WellFormed c ∧ i.source = .stream ∧ (encode i).length = n ∧ bs.take n = encode i

/-- R107, R108: each of the 256 command bytes has the one meaning its highest set bit selects, and every byte, command
or data, encodes back to itself. -/
def Obligations.DisplayBytesDecodeOnce : Prop :=
  (∀ b : Byte,
    (b &&& 0x80 = 0x80 → decodeDisplayCommand b = .setDdramAddress (b.extractLsb' 0 7)) ∧
    (b &&& 0xC0 = 0x40 → decodeDisplayCommand b = .setCgramAddress (b.extractLsb' 0 6)) ∧
    (b &&& 0xE0 = 0x20 → decodeDisplayCommand b =
      .functionSet (b.getLsbD 4) (b.getLsbD 3) (b.getLsbD 2) (b.extractLsb' 0 2)) ∧
    (b &&& 0xF0 = 0x10 → decodeDisplayCommand b =
      .cursorDisplayShift (b.getLsbD 3) (b.getLsbD 2) (b.extractLsb' 0 2)) ∧
    (b &&& 0xF8 = 0x08 → decodeDisplayCommand b = .displayControl (b.getLsbD 2) (b.getLsbD 1) (b.getLsbD 0)) ∧
    (b &&& 0xFC = 0x04 → decodeDisplayCommand b = .entryModeSet (b.getLsbD 1) (b.getLsbD 0)) ∧
    (b &&& 0xFE = 0x02 → decodeDisplayCommand b = .home (b.getLsbD 0)) ∧
    (b = 0x01 → decodeDisplayCommand b = .clear) ∧
    (b = 0x00 → decodeDisplayCommand b = .unknown)) ∧
  ∀ (rs : Bool) (b : Byte) (h : Nat), encode ((decodeDisplayByte rs b).toInstr h) = [b]

/-- R103: the illegal opcodes are refused by name and position, and not run; no other opcode is refused as illegal. -/
def Obligations.IllegalOpcodesRefused : Prop :=
  ∀ (c : Config) (opcode : Byte) (rest : List Byte),
    (decodeCommand c (opcode :: rest) = .illegalOpcode opcode ↔
      opcode = 0x00 ∨ (0x05 ≤ opcode ∧ opcode ≤ 0x0F) ∨ (0x11 ≤ opcode ∧ opcode ≤ 0x1F) ∨
      (0x24 ≤ opcode ∧ opcode ≤ 0x2F) ∨ (0x33 ≤ opcode ∧ opcode ≤ 0x3F) ∨ (0x44 ≤ opcode ∧ opcode ≤ 0x4F) ∨
      0x53 ≤ opcode) ∧
    ∀ s : State, s.cfg = c → s.stream = opcode :: rest → decodeCommand c (opcode :: rest) = .illegalOpcode opcode →
      step s = .refused (.illegalOpcode opcode s.pos)

/-- R104: the illegal operand values are refused by name and position; unknown vectors and handles, out-of-range pins
and out-of-range geometry are legal. -/
def Obligations.IllegalOperandsRefused : Prop :=
  ∀ c : Config,
  (∀ (t x y z w : Byte) (r : List Byte), 1 < t.toNat →
    decodeCommand c (0x10 :: t :: x :: y :: z :: w :: r) = .illegalOperand "TICK") ∧
  (∀ (b : Byte) (r : List Byte), 1 < b.toNat → decodeCommand c (0x21 :: b :: r) = .illegalOperand "SETGIE") ∧
  (∀ (pin level x y z w : Byte) (r : List Byte), 1 < level.toNat →
    decodeCommand c (0x31 :: pin :: level :: x :: y :: z :: w :: r) = .illegalOperand "PINCHANGE") ∧
  (∀ (rs en n : Byte) (r : List Byte), n.toNat ≠ 4 → n.toNat ≠ 8 →
    decodeCommand c (0x40 :: rs :: en :: n :: r) = .illegalOperand "REGDISPLAY") ∧
  (∀ (rs en n rows cols mode : Byte) (d r : List Byte), (n.toNat = 4 ∨ n.toNat = 8) → d.length = n.toNat →
    1 < mode.toNat →
    decodeCommand c (0x40 :: rs :: en :: n :: (d ++ rows :: cols :: mode :: r)) = .illegalOperand "REGDISPLAY") ∧
  (∀ (lo hi v : Byte) (r : List Byte), c.regMemSize ≤ lo.toNat + 256 * hi.toNat →
    decodeCommand c (0x03 :: lo :: hi :: v :: r) = .illegalOperand "MEMWRITE") ∧
  (∀ (s : State) (m : String), decodeCommand s.cfg s.stream = .illegalOperand m →
    step s = .refused (.illegalOperand m s.pos)) ∧
  (∀ (v : Byte) (r : List Byte), decodeCommand c (0x20 :: v :: r) = .instr (.raise v.toNat) 2) ∧
  (∀ (lo hi : Byte) (r : List Byte),
    decodeCommand c (0x42 :: lo :: hi :: r) = .instr (.unreg (lo.toNat + 256 * hi.toNat)) 3) ∧
  (∀ (pin x y z w : Byte) (r : List Byte), ∃ ts,
    decodeCommand c (0x31 :: pin :: 0 :: x :: y :: z :: w :: r) = .instr (.pinchange pin.toNat false ts) 7) ∧
  ∀ (rs en rows cols : Byte) (d r : List Byte), d.length = 4 →
    decodeCommand c (0x40 :: rs :: en :: 4 :: (d ++ rows :: cols :: 0 :: r)) =
      .instr (.regdisplay rs.toNat en.toNat (d.map BitVec.toNat) rows.toNat cols.toNat .wrap) 11

/-- Words written out from the tables of R102 and R108. -/
def Obligations.SpecWordsDecode : Prop :=
  decodeCommand config [0x02, 0x00, 0xE2, 0x04, 0x00] = .instr (.step 320000) 5 ∧
  decodeCommand config [0x03, 0x45, 0x00, 0x03] = .instr (.memwrite 0x45 0x03) 4 ∧
  decodeCommand config [0x10, 0x01, 0x00, 0x08, 0x00, 0x00] = .instr (.tick .t1 2048) 6 ∧
  decodeCommand config [0x20, 0x10] = .instr (.raise 16) 2 ∧
  decodeCommand config [0x30] = .instr .observe 1 ∧
  decodeCommand config [0x40, 12, 11, 4, 2, 3, 4, 5, 2, 16, 0] = .instr (.regdisplay 12 11 [2, 3, 4, 5] 2 16 .wrap) 11 ∧
  decodeCommand config [0x32, 0x88, 0x00, 0x00, 0x00, 0xB8, 0x0B] = .instr (.regchange 0x88 0 3000) 7 ∧
  decodeDisplayByte false 0xC0 = .setDdramAddress 0x40 ∧
  decodeDisplayByte false 0x0C = .displayControl true false false ∧
  decodeDisplayByte true 0x48 = .writeData 0x48

/-- R91 to R95: the mode number, the clock select and the tops that the control registers encode, at any addresses; and
R97 and R99: the vector table and the pin map of the default configuration. -/
def Obligations.ControlRegistersDecode : Prop :=
  ([0, 1, 2, 3, 4, 5, 6, 7].map fun cs => (clockDecode config cs).divisor?) =
    [none, some 1, some 8, some 64, some 256, some 1024, none, none] ∧
  clockDecode config 0 = .off ∧ clockDecode config 6 = .unsupported ∧ clockDecode config 7 = .unsupported ∧
  (∀ (c : Config) (m : Memory) (t : TimerId), clockSelect c t m = (m.read (controlB c t)).toNat % 8) ∧
  (∀ (c : Config) (m : Memory), modeNumber c .t0 m =
    4 * (((m.read c.reg.tccr0b).getLsbD 3).toNat) + (m.read c.reg.tccr0a).toNat % 4) ∧
  (∀ (c : Config) (m : Memory), modeNumber c .t1 m =
    4 * ((m.read c.reg.tccr1b).toNat / 8 % 4) + (m.read c.reg.tccr1a).toNat % 4) ∧
  ((List.range 8).map fun k => (modeTable .t0 k).kind) = [.up, .sym, .up, .up, .frozen, .sym, .frozen, .up] ∧
  ((List.range 16).map fun k => (modeTable .t1 k).kind) =
    [.up, .sym, .sym, .sym, .up, .up, .up, .up, .sym, .sym, .sym, .sym, .up, .frozen, .up, .up] ∧
  (∀ (c : Config) (m : Memory),
    let a := (m.read c.reg.ocr0a).toNat
    [0, 1, 2, 3, 5, 7].map (fun k => topValue c .t0 k m) = [0xFF, 0xFF, a, 0xFF, a, a]) ∧
  (∀ (c : Config) (m : Memory), [0, 1, 2, 3, 4, 5, 6, 7].map (fun k => topValue c .t1 k m) =
    [0xFFFF, 0xFF, 0x1FF, 0x3FF, m.read16 c.reg.ocr1a, 0xFF, 0x1FF, 0x3FF]) ∧
  (∀ (c : Config) (m : Memory),
    let a := m.read16 c.reg.ocr1a
    let i := m.read16 c.reg.icr1
    [8, 9, 10, 11, 12, 14, 15].map (fun k => topValue c .t1 k m) = [i, a, i, a, i, i, a]) ∧
  (IrqVector.all.map fun v => ((vectorRow config v).id, (vectorRow config v).priority,
      (vectorRow config v).handlerAddress, (vectorRow config v).flagBit, (vectorRow config v).maskBit)) =
    [(11, 11, 0x16, 1, 1), (12, 12, 0x18, 2, 2), (13, 13, 0x1A, 0, 0), (14, 14, 0x1C, 1, 1), (15, 15, 0x1E, 2, 2),
      (16, 16, 0x20, 0, 0)] ∧
  ∀ p, pinLocation config p =
    if p ≤ 7 then some (0x2B, p) else if p ≤ 13 then some (0x25, p - 8) else if p ≤ 19 then some (0x28, p - 14)
    else none

/-! ## The step of the model: one command of the stream, one byte of a display -/

/-- R101, R270: a step runs the instruction that the head of the stream decodes to, at the state with its bytes taken
from the stream. With no byte left a step changes nothing: the model's choice (log entry 1). -/
def Obligations.StepRunsDecodedCommand : Prop :=
  (∀ (s : State) (i : Instr) (n : Nat), decodeCommand s.cfg s.stream = .instr i n →
    step s = exec i { s with stream := s.stream.drop n, pos := s.pos + n }) ∧
  (∀ (s : State) (i : Instr) (rest : List Byte), i.WellFormed s.cfg → i.source = .stream →
    s.stream = encode i ++ rest →
    step s = exec i { s with stream := rest, pos := s.pos + (encode i).length }) ∧
  ∀ s : State, s.stream = [] → step s = .next s

/-- R200, R202 to R205: a falling edge of an enable line runs, for each display on that line in ascending handle
order, the instruction that the byte on the lines decodes to: at once in 8-bit mode, and at the second of two edges in
4-bit mode, with the register-select level of that edge. The first of two edges stores the nibble and nothing else.
Each of several displays ends as it would alone. -/
def Obligations.LatchRunsDecodedByte : Prop :=
  (∀ (s : State) (pin ts h : Nat) (D : DisplayState), displaysEnabledBy pin s = [h] → s.display? h = some D →
    (D.bitMode = .eight →
      exec (.pinchange pin false ts) s =
        exec ((decodeDisplayByte (pinLevel s.cfg s.mem D.rsPin)
          (BitVec.ofNat 8 (lineValue s.cfg s.mem D.dataPins))).toInstr h) s) ∧
    (D.bitMode = .four → D.expectingHighNibble = true →
      exec (.pinchange pin false ts) s =
        .next (s.setDevice h (.display { D with
          pendingNibble := BitVec.ofNat 4 (lineValue s.cfg s.mem D.dataPins), expectingHighNibble := false }))) ∧
    (D.bitMode = .four → D.expectingHighNibble = false →
      exec (.pinchange pin false ts) s =
        exec ((decodeDisplayByte (pinLevel s.cfg s.mem D.rsPin)
          (D.pendingNibble ++ BitVec.ofNat 4 (lineValue s.cfg s.mem D.dataPins))).toInstr h)
          (s.setDevice h (.display { D with expectingHighNibble := true })))) ∧
  ∀ (s : State) (pin ts : Nat), HandlesRise s →
    (displaysEnabledBy pin s).Pairwise (· < ·) ∧
    (∀ h, h ∈ displaysEnabledBy pin s ↔ ∃ D, s.display? h = some D ∧ D.enPin = pin) ∧
    exec (.pinchange pin false ts) s = latchRunsAll (displaysEnabledBy pin s) s ∧
    ∃ t, exec (.pinchange pin false ts) s = .next t ∧
      ∀ h D, s.display? h = some D → D.enPin = pin →
        ∃ u, latchRuns h s = .next u ∧ t.display? h = u.display? h

/-! ## Timers (40_timers.md) -/

/-- R123: zero cycles. -/
def Obligations.TickZeroCyclesChangesNothing : Prop :=
  ∀ (t : TimerId) (s : State), exec (.tick t 0) s = .next s

/-- R122: prescaler off. Only the decoded prescaler is recorded (R121). -/
def Obligations.TickPrescalerOffIsNoOp : Prop :=
  ∀ (t : TimerId) (n : Nat) (s : State), 0 < n → s.clock t = .off →
    exec (.tick t n) s = .next (s.setTimer t { s.timer t with prescaler := .off })

/-- R126: an unsupported clock select or a frozen mode warns, and only the decoded prescaler is recorded. -/
def Obligations.TickUnsupportedFreezesAndWarns : Prop :=
  ∀ (t : TimerId) (n : Nat) (s : State), 0 < n → s.clock t ≠ .off →
    (s.clock t = .unsupported ∨ s.countKind t = .frozen) →
    exec (.tick t n) s = .next
      ((s.setTimer t { s.timer t with prescaler := s.clock t }).emit
        (.warning (.timerUnsupported t (s.mode t) (clockSelect s.cfg t s.mem))))

/-- R129, R128: too few cycles for a timer tick only accumulate in the remainder. -/
def Obligations.TickBelowDivisorAccumulates : Prop :=
  ∀ (t : TimerId) (n d : Nat) (s : State), 0 < n → (s.clock t).divisor? = some d →
    s.countKind t ≠ .frozen → (s.timer t).cycleRemainder + n < d →
    exec (.tick t n) s = .next (s.setTimer t { s.timer t with
      prescaler := s.clock t, cycleRemainder := (s.timer t).cycleRemainder + n })

/-- R128, R131, R132, R134: a batch of `k` timer ticks in a mode that counts up. -/
def Obligations.TickUpBatch : Prop :=
  ∀ (t : TimerId) (n d : Nat) (s : State), s.cfg.Accepted → s.mem.wf = true → 0 < n →
    (s.clock t).divisor? = some d → s.countKind t = .up →
    d ≤ (s.timer t).cycleRemainder + n →
    let k := ((s.timer t).cycleRemainder + n) / d
    let c := s.count t
    let top := s.top t
    ∃ u, exec (.tick t n) s = .next u ∧ u.out = s.out ∧
      (u.timer t).cycleRemainder = ((s.timer t).cycleRemainder + n) % d ∧
      (u.timer t).prescaler = s.clock t ∧ (u.timer t).top = top ∧
      (u.timer t).compareA = s.compare t .a ∧ (u.timer t).compareB = s.compare t .b ∧
      (u.timer t).counter = (if top ≤ c + k then 0 else c + k) ∧ readCounter s.cfg t u.mem = (u.timer t).counter ∧
      (u.timer t).countDown = false ∧
      ((u.timer t).overflowed = true ↔ top ≤ c + k) ∧
      ((u.timer t).matchA = true ↔
        (c < s.compare t .a ∧ s.compare t .a ≤ min top (c + k)) ∨
          (top ≤ c + k ∧ s.compare t .a = 0)) ∧
      ((u.timer t).matchB = true ↔
        (c < s.compare t .b ∧ s.compare t .b ≤ min top (c + k)) ∨
          (top ≤ c + k ∧ s.compare t .b = 0))

/-- R128, R131, R133, R134: a batch of `k` timer ticks in a symmetric mode. -/
def Obligations.TickSymmetricBatch : Prop :=
  ∀ (t : TimerId) (n d : Nat) (s : State), s.cfg.Accepted → s.mem.wf = true → 0 < n →
    (s.clock t).divisor? = some d → s.countKind t = .sym →
    d ≤ (s.timer t).cycleRemainder + n →
    let k := ((s.timer t).cycleRemainder + n) / d
    let c := s.count t
    let top := s.top t
    ∃ u, exec (.tick t n) s = .next u ∧ u.out = s.out ∧
      (u.timer t).cycleRemainder = ((s.timer t).cycleRemainder + n) % d ∧
      (u.timer t).prescaler = s.clock t ∧ (u.timer t).top = top ∧
      (u.timer t).compareA = s.compare t .a ∧ (u.timer t).compareB = s.compare t .b ∧
      readCounter s.cfg t u.mem = (u.timer t).counter ∧
      ((s.timer t).countDown = false →
        (u.timer t).counter = min top (c + k) ∧ ((u.timer t).overflowed = true ↔ top ≤ c + k) ∧
        ((u.timer t).countDown = true ↔ top ≤ c + k) ∧
        ((u.timer t).matchA = true ↔
          c < s.compare t .a ∧ s.compare t .a ≤ min top (c + k)) ∧
        ((u.timer t).matchB = true ↔
          c < s.compare t .b ∧ s.compare t .b ≤ min top (c + k))) ∧
      ((s.timer t).countDown = true →
        (u.timer t).counter = c - k ∧ (u.timer t).overflowed = false ∧
        ((u.timer t).countDown = true ↔ k < c) ∧
        ((u.timer t).matchA = true ↔ c - k ≤ s.compare t .a ∧ s.compare t .a < c) ∧
        ((u.timer t).matchB = true ↔ c - k ≤ s.compare t .b ∧ s.compare t .b < c))

/-- R135: after a batch with timer ticks, each detected event has set its flag bit, whatever the mask, and made its
vector pending if it was idle and its enable bit is 1; the other bits of the flag register and the other vectors are
as before. -/
def Obligations.TickSignalsDetectedEvents : Prop :=
  ∀ (t : TimerId) (n d : Nat) (s u : State), s.cfg.Accepted → s.mem.wf = true → 0 < n →
    (s.clock t).divisor? = some d → s.countKind t ≠ .frozen →
    d ≤ (s.timer t).cycleRemainder + n → exec (.tick t n) s = .next u →
    (∀ e, u.mem.bit (flagReg s.cfg t) (flagBit s.cfg t e) =
      ((u.timer t).detected e || s.mem.bit (flagReg s.cfg t) (flagBit s.cfg t e))) ∧
    (∀ j, (∀ e, j ≠ flagBit s.cfg t e) → u.mem.bit (flagReg s.cfg t) j = s.mem.bit (flagReg s.cfg t) j) ∧
    (∀ e, u.ic.vec (eventVector t e) =
      if (u.timer t).detected e = true ∧ s.mem.bit (maskReg s.cfg t) (maskBit s.cfg t e) = true ∧
          s.ic.vec (eventVector t e) = .idle then .pending
      else s.ic.vec (eventVector t e)) ∧
    ∀ v, vectorTimer v ≠ t → u.ic.vec v = s.ic.vec v

/-- R145: a TICK writes only its timer's record, counter and flag register, and the vectors of its timer; and what it
does to them depends only on its timer's record, registers and vectors. -/
def Obligations.TickTimersIndependent : Prop :=
  (∀ (t : TimerId) (n : Nat) (s : State), ∃ u, exec (.tick t n) s = .next u ∧
    (∀ x, x ≠ t → u.timer x = s.timer x) ∧ u.cfg = s.cfg ∧ u.snap = s.snap ∧ u.time = s.time ∧ u.devs = s.devs ∧
    u.stream = s.stream ∧ u.pos = s.pos ∧ u.ic.gie = s.ic.gie ∧
    (∀ a, a ∉ timerWrites s.cfg t → u.mem.read a = s.mem.read a) ∧
    ∀ v, vectorTimer v ≠ t → u.ic.vec v = s.ic.vec v) ∧
  ∀ (t : TimerId) (n : Nat) (s s' u u' : State), s.mem.wf = true → s'.mem.wf = true → TimerViewEq t s s' →
    exec (.tick t n) s = .next u → exec (.tick t n) s' = .next u' →
    TimerViewEq t u u' ∧ newEvents s u = newEvents s' u'

/-- R141: over any sequence of TICK calls under a fixed supported prescaler and a running mode, no cycle is lost or
counted twice; and (R132) a counter that counts up and does not reach its top adds exactly the timer ticks. -/
def Obligations.TickCarryLaw : Prop :=
  ∀ (t : TimerId) (d : Nat) (ns : List Nat) (s : State), s.cfg.Accepted → ns ≠ [] → (∀ n ∈ ns, 0 < n) →
    (s.clock t).divisor? = some d → s.countKind t ≠ .frozen →
    (∃ u, runInstrs (ns.map (.tick t)) s = .next u ∧
      (u.timer t).cycleRemainder = ((s.timer t).cycleRemainder + ns.sum) % d ∧
      totalTicks t d ns s = ((s.timer t).cycleRemainder + ns.sum) / d ∧
      (s.mem.wf = true → s.countKind t = .up →
        s.count t + totalTicks t d ns s < s.top t →
        readCounter s.cfg t u.mem = s.count t + totalTicks t d ns s))

/-- R143: the range of the counter after a batch with timer ticks. -/
def Obligations.TickCounterRange : Prop :=
  ∀ (t : TimerId) (n d : Nat) (s u : State), s.cfg.Accepted → 0 < n →
    (s.clock t).divisor? = some d → d ≤ (s.timer t).cycleRemainder + n →
    exec (.tick t n) s = .next u →
    let k := ((s.timer t).cycleRemainder + n) / d
    let c := s.count t
    let top := s.top t
    (s.countKind t = .up → (u.timer t).counter ≤ top ∧
      ((u.timer t).counter = 0 ∨ ((u.timer t).counter = c + k ∧ c + k < top))) ∧
    (s.countKind t = .sym →
      (c ≤ top → (u.timer t).counter ≤ top) ∧
      (top < (u.timer t).counter → (s.timer t).countDown = true ∧ top < c) ∧
      ((s.timer t).countDown = true → c ≤ k → (u.timer t).counter ≤ top)) ∧
    (s.countKind t ≠ .frozen → (u.timer t).counter < 2 ^ timerWidth s.cfg t)

/-- R366: over TICK calls of at most one timer tick each, a counter started at 0 overflows every `top * d` cycles in a
mode that counts up, and every `2 * top * d` cycles in a symmetric mode started counting up. -/
def Obligations.TimerOverflowPeriod : Prop :=
  ∀ (t : TimerId) (d : Nat) (ns : List Nat) (s : State), s.cfg.Accepted → s.mem.wf = true →
    (s.clock t).divisor? = some d → (∀ n ∈ ns, n ≤ d) →
    (s.timer t).cycleRemainder = 0 → s.count t = 0 → 0 < s.top t →
    let top := s.top t
    (s.countKind t = .up → overflowCount t d ns s = ns.sum / (top * d)) ∧
    (s.countKind t = .sym → (s.timer t).countDown = false →
      overflowCount t d ns s = (ns.sum + top * d) / (2 * top * d))

/-! ## Interrupt controller (41_interrupt_controller.md) -/

/-- R161, R162: RAISE marks an idle vector pending, leaves a pending or in-service one alone, and warns of an unknown
id. -/
def Obligations.RaiseMarksPending : Prop :=
  (∀ (v : IrqVector) (s : State), s.cfg.Accepted → ∃ t, exec (.raise (vectorRow s.cfg v).id) s = .next t ∧
    (∀ u, t.ic.vec u = if u = v ∧ s.ic.vec v = .idle then .pending else s.ic.vec u) ∧
    t = { s with ic := t.ic } ∧ t.ic.gie = s.ic.gie) ∧
  ∀ (id : Nat) (s : State), (∀ v, (vectorRow s.cfg v).id ≠ id) →
    exec (.raise id) s = .next (s.emit (.warning (.irqUnknownVector id)))

/-- R163: SETGIE sets the mirror and nothing else. -/
def Obligations.SetGieMirrorsFlag : Prop :=
  ∀ (b : Bool) (s : State), ∃ t, exec (.setgie b) s = .next t ∧ t.ic.gie = b ∧ (∀ v, t.ic.vec v = s.ic.vec v) ∧
    t = { s with ic := t.ic }

/-- R164 to R166, R168, R169: with the enable set and nothing in service, DISPATCH enters the pending vector with the
least priority number, clears its flag bit and emits its handler's address, and nothing else changes; with the enable
clear, a vector in service, or nothing pending, it changes nothing. -/
def Obligations.DispatchEntersHighest : Prop :=
  (∀ (s : State) (w : IrqVector), s.cfg.Accepted → s.ic.gie = true → (∀ u, s.ic.vec u ≠ .inService) →
  s.ic.vec w = .pending →
    (∀ v, s.ic.vec v = .pending → (vectorRow s.cfg w).priority ≤ (vectorRow s.cfg v).priority) →
    ∃ t, exec .dispatch s = .next t ∧ t = { s with mem := t.mem, ic := t.ic, out := t.out } ∧
      (∀ v, t.ic.vec v = if v = w then .inService else s.ic.vec v) ∧ t.ic.gie = true ∧
      t.out = s.out ++ [.dispatch (vectorRow s.cfg w).id (vectorRow s.cfg w).handlerAddress] ∧
      (s.mem.wf = true →
        ∀ a j, t.mem.bit a j =
          (s.mem.bit a j && !(a == flagReg s.cfg (vectorTimer w) && j == (vectorRow s.cfg w).flagBit)))) ∧
  ∀ s : State, (s.ic.gie = false ∨ (∃ u, s.ic.vec u = .inService) ∨ ∀ v, s.ic.vec v ≠ .pending) →
    exec .dispatch s = .next s

/-- R167: RETI returns the vector in service to idle; with none in service it changes nothing. -/
def Obligations.RetiEndsService : Prop :=
  (∀ (s : State) (u : IrqVector), AtMostOneInService s.ic → s.ic.vec u = .inService →
    ∃ t, exec .reti s = .next t ∧ (∀ v, t.ic.vec v = if v = u then .idle else s.ic.vec v) ∧
      t.ic.gie = s.ic.gie ∧ t = { s with ic := t.ic }) ∧
  ∀ s : State, (∀ v, s.ic.vec v ≠ .inService) → exec .reti s = .next s

/-- R170: at most one vector is in service in any reachable state; a DISPATCH emits at most one event, of the
highest-priority vector pending at that call. -/
def Obligations.AtMostOneVectorInService : Prop :=
  (∀ s : State, Reachable s → ∀ u v, s.ic.vec u = .inService → s.ic.vec v = .inService → u = v) ∧
  ∀ s : State, s.cfg.Accepted → ∃ t, exec .dispatch s = .next t ∧
    (t.out = s.out ∨ ∃ w, t.out =
        s.out ++ [.dispatch (vectorRow s.cfg w).id (vectorRow s.cfg w).handlerAddress] ∧
      s.ic.vec w = .pending ∧
      ∀ v, s.ic.vec v = .pending → v ≠ w → (vectorRow s.cfg w).priority < (vectorRow s.cfg v).priority)

/-- R171, R160: only DISPATCH, a STEP and RESET make a pending vector not pending; and neither DISPATCH nor STEP does
while another vector is in service, or while the enable that it uses is clear. -/
def Obligations.PendingVectorsAreKept : Prop :=
  ∀ (i : Instr) (s t : State) (v : IrqVector), s.cfg.Accepted → exec i s = .next t → s.ic.vec v = .pending →
    i ≠ .reset →
    (i = .dispatch → s.ic.gie = false ∨ ∃ u, s.ic.vec u = .inService) →
    (∀ n, i = .step n → s.mem.bit s.cfg.reg.sreg 7 = false ∨ ∃ u, s.ic.vec u = .inService) →
    t.ic.vec v = .pending

/-- R273: at most one `Dispatch` event per STEP; and none from any other operation but DISPATCH. -/
def Obligations.StepDispatchesAtMostOnce : Prop :=
  (∀ (n : Nat) (s : State), ∃ t, exec (.step n) s = .next t ∧ (newEvents s t).countP Event.isDispatch ≤ 1) ∧
  ∀ (i : Instr) (s t : State), exec i s = .next t → i ≠ .dispatch → (∀ n, i ≠ .step n) →
    (newEvents s t).countP Event.isDispatch = 0

/-- R311, R350, R351, R272: the vector that is highest among those pending after the two timers' ticks of a STEP is
dispatched in that same STEP, if SREG bit 7 is 1 and nothing is in service. -/
def Obligations.StepDispatchesInSameStep : Prop :=
  ∀ (n : Nat) (s u : State) (w : IrqVector), s.cfg.Accepted →
    runInstrs [.timetick n, .tick .t0 n, .tick .t1 n] s = .next u →
    s.mem.bit s.cfg.reg.sreg 7 = true → (∀ v, s.ic.vec v ≠ .inService) → u.ic.vec w = .pending →
    (∀ v, u.ic.vec v = .pending → (vectorRow s.cfg w).priority ≤ (vectorRow s.cfg v).priority) →
    ∃ t, exec (.step n) s = .next t ∧ t.ic.gie = true ∧
      (∀ v, t.ic.vec v = if v = w then .inService else u.ic.vec v) ∧
      Event.dispatch (vectorRow s.cfg w).id (vectorRow s.cfg w).handlerAddress ∈ newEvents s t

/-! ## Observer bridge (42_observer_bridge.md) -/

/-- R182: OBSERVE makes the snapshot equal to register memory at every observed address; only OBSERVE, the STEP that
runs it, and RESET refresh the snapshot; and a write undone before the next OBSERVE produces no event: the run is that
of the OBSERVE alone. -/
def Obligations.ObserveRefreshesSnapshot : Prop :=
  (∀ s : State, s.snap.wf = true → ∃ t, exec .observe s = .next t ∧
    ∀ a, a ∈ observedAddrs s.cfg → t.snap.read a = s.mem.read a) ∧
  (∀ (i : Instr) (s t : State), exec i s = .next t → i ≠ .observe → i ≠ .reset → (∀ n, i ≠ .step n) →
    t.snap = s.snap) ∧
  ∀ (s : State) (a : Nat) (v : Byte), s.mem.wf = true → a < s.cfg.regMemSize →
    runInstrs [.memwrite a v, .memwrite a (s.mem.read a), .observe] s = exec .observe s

/-- R188, R182: an OBSERVE of a state whose register memory and snapshot are those that an OBSERVE left (in a block of
the same configuration) changes nothing and emits nothing. -/
def Obligations.SecondObserveIsSilent : Prop :=
  ∀ s t u : State, s.snap.wf = true → exec .observe s = .next t → u.cfg = t.cfg →
    u.mem = t.mem → u.snap = t.snap →
    exec .observe u = .next u

/-- R180, R183 to R185, R187, R189: the bridge's events of an OBSERVE are the differences between the snapshot and
register memory, in the order of the register list, all with the time of the call; and each is delivered, as the
PINCHANGE or REGCHANGE it stands for, right after it is emitted and before the next one. So the device records and the
output are those that emitting and delivering the events one by one leaves, and only the snapshot differs from that.
The list of observed registers names no byte twice, as R181's does not. -/
def Obligations.ObserveEmitsDifferences : Prop :=
  ∀ s : State, (observedAddrs s.cfg).Nodup →
    ∃ u t, emitAndDeliver (bridgeEvents s) s = .next u ∧ exec .observe s = .next t ∧ t = { u with snap := t.snap } ∧
      (newEvents s t).filter Event.isBridge = bridgeEvents s

/-- R186, R187: OBSERVE writes no byte of register memory and no state but the snapshot and what the decoders it
delivers to may write: display runtime fields and servo targets. -/
def Obligations.ObserveFrame : Prop :=
  ∀ s : State, ∃ t, exec .observe s = .next t ∧ t.cfg = s.cfg ∧ t.mem = s.mem ∧ t.t0 = s.t0 ∧
    t.t1 = s.t1 ∧ t.ic = s.ic ∧ t.time = s.time ∧ t.stream = s.stream ∧ t.pos = s.pos ∧
    t.devs.nextHandle = s.devs.nextHandle ∧
    t.devs.entries.map Prod.fst = s.devs.entries.map Prod.fst ∧ OutputGrows s t ∧
    (∀ a, a ∉ observedAddrs s.cfg → t.snap.read a = s.snap.read a) ∧
    (∀ h D, s.display? h = some D → ∃ D', t.display? h = some D' ∧ SameDisplayConfig D D') ∧
    ∀ h V, s.servo? h = some V → ∃ V', t.servo? h = some V' ∧ DecodeChange V V'

/-! ## Display decoder (43_display_decoder.md) -/

/-- R200, R202 to R204, R219, R221: a rising edge does nothing; a falling edge latches every display on that enable
line, and no other: a 4-bit display takes its first nibble, or assembles a byte; an 8-bit display takes a byte. Nothing
but displays and output changes, and nothing at all when no display has that enable line. -/
def Obligations.FallingEdgeLatchesDisplays : Prop :=
  (∀ (pin ts : Nat) (s : State), exec (.pinchange pin true ts) s = .next s) ∧
  ∀ (pin ts : Nat) (s : State), HandlesRise s → ∃ t, exec (.pinchange pin false ts) s = .next t ∧
    ((∀ h D, s.display? h = some D → D.enPin ≠ pin) → t = s) ∧
    OnlyDevices s t ∧ (∀ h, t.servo? h = s.servo? h) ∧ OutputGrows s t ∧
    ∀ h D, s.display? h = some D → ∃ D', t.display? h = some D' ∧ SameDisplayConfig D D' ∧
      (D.enPin ≠ pin → D' = D) ∧
      (D.enPin = pin → D.bitMode = .four → D.expectingHighNibble = true →
        D' = { D with
          pendingNibble := BitVec.ofNat 4 (lineValue s.cfg s.mem D.dataPins), expectingHighNibble := false }) ∧
      (D.enPin = pin → D.bitMode = .four → D.expectingHighNibble = false →
        D'.expectingHighNibble = true ∧ D'.pendingNibble = D.pendingNibble) ∧
      (D.enPin = pin → D.bitMode = .eight →
        D'.expectingHighNibble = D.expectingHighNibble ∧ D'.pendingNibble = D.pendingNibble)

/-- R210: CLEAR and HOME blank the buffer and home the cursor; with R205 and R208, the notification. -/
def Obligations.ClearAndHomeBlankDisplay : Prop :=
  ∀ (h : Nat) (x : Bool) (s : State) (D : DisplayState), s.display? h = some D →
    ∃ t, exec (.lcdClear h) s = .next t ∧ exec (.lcdHome h x) s = .next t ∧
      DisplayUpdated s h D { D with
        buffer := List.replicate D.rows (List.replicate D.cols 0x20), cursor := ⟨0, 0⟩ } t

/-- R212: DISPLAY_CONTROL sets the three flags. -/
def Obligations.DisplayControlSetsFlags : Prop :=
  ∀ (h : Nat) (d c b : Bool) (s : State) (D : DisplayState), s.display? h = some D →
    ∃ t, exec (.lcdDisplayControl h d c b) s = .next t ∧
      DisplayUpdated s h D { D with displayOn := d, cursorOn := c, blinkOn := b } t

/-- R211, R213, R214, R215: the four ignored commands change nothing and emit nothing. That this includes a handle that
names no display is the model's choice (log entry 8). -/
def Obligations.IgnoredDisplayCommands : Prop :=
  ∀ (h : Nat) (s : State),
    (∀ id shift, exec (.lcdEntryModeSet h id shift) s = .next s) ∧
    (∀ sc rl x, exec (.lcdCursorDisplayShift h sc rl x) s = .next s) ∧
    (∀ dl n f x, exec (.lcdFunctionSet h dl n f x) s = .next s) ∧
    ∀ a, exec (.lcdSetCgramAddress h a) s = .next s

/-- R217: command byte 0x00 warns and changes nothing; it is the only command byte without a meaning. -/
def Obligations.UnknownDisplayByteWarns : Prop :=
  (∀ b : Byte, decodeDisplayCommand b = .unknown ↔ b = 0x00) ∧
  ∀ (h : Nat) (s : State) (D : DisplayState), s.display? h = some D →
    exec (.lcdUnknown h) s = .next (s.emit (.warning (.lcdUnknownOpcode h 0x00)))

/-- R216, R109: SET_DDRAM_ADDRESS moves the cursor to the position of the least row whose addresses hold `a`; an
address that names no position warns and changes nothing. -/
def Obligations.SetDdramAddressMovesCursor : Prop :=
  ∀ (h : Nat) (a : BitVec 7) (s : State) (D : DisplayState), s.display? h = some D → D.rows ≤ 4 →
    let offset : Nat → Nat := fun r => [0x00, 0x40, D.cols, 0x40 + D.cols].getD r 0
    (∀ r, r < D.rows → offset r ≤ a.toNat → a.toNat < offset r + D.cols →
      (∀ r', r' < r → ¬(offset r' ≤ a.toNat ∧ a.toNat < offset r' + D.cols)) →
      ∃ t, exec (.lcdSetDdramAddress h a) s = .next t ∧
        DisplayUpdated s h D { D with cursor := ⟨r, a.toNat - offset r⟩ } t) ∧
    ((∀ r, r < D.rows → ¬(offset r ≤ a.toNat ∧ a.toNat < offset r + D.cols)) →
      exec (.lcdSetDdramAddress h a) s = .next (s.emit (.warning (.lcdBadAddress h a.toNat))))

/-- R206, R207, R107: a data byte is stored as given at the cursor, which then advances: one column, or at the end of a
row to the next row in wrap mode, or nowhere in clamp mode. -/
def Obligations.WriteDataStoresAndAdvances : Prop :=
  ∀ (h : Nat) (c : Byte) (s : State) (D : DisplayState), s.display? h = some D → DisplayInv s.cfg D →
    ∃ t D', exec (.lcdWriteData h c) s = .next t ∧ DisplayUpdated s h D D' t ∧
      D' = { D with buffer := D'.buffer, cursor := D'.cursor } ∧
      (∀ r k, (D'.buffer[r]?.bind fun row => row[k]?) =
        if r = D.cursor.row ∧ k = D.cursor.col then some c else D.buffer[r]?.bind fun row => row[k]?) ∧
      (D.cursor.col + 1 < D.cols → D'.cursor = ⟨D.cursor.row, D.cursor.col + 1⟩) ∧
      (D.cursor.col + 1 = D.cols → D.addressing = .wrap →
        D'.cursor = ⟨if D.cursor.row + 1 = D.rows then 0 else D.cursor.row + 1, 0⟩) ∧
      (D.cursor.col + 1 = D.cols → D.addressing = .clamp → D'.cursor = D.cursor)

/-- R219: a display byte changes display records and output only, and keeps every display's configuration. That it does
nothing for a handle that names no display is the model's choice (log entry 8): R221 speaks of pins, not of handles. -/
def Obligations.DisplayBytesFrame : Prop :=
  ∀ (i : Instr) (h : Nat) (rs : Bool) (s : State), i.source = .lines h rs → ∃ t, exec i s = .next t ∧
    OnlyDevices s t ∧ (∀ k, t.servo? k = s.servo? k) ∧ OutputGrows s t ∧
    (∀ k D, k ≠ h → s.display? k = some D → t.display? k = some D) ∧
    (∀ D, s.display? h = some D → ∃ D', t.display? h = some D' ∧ SameDisplayConfig D D' ∧
      D'.pendingNibble = D.pendingNibble ∧ D'.expectingHighNibble = D.expectingHighNibble) ∧
    (s.display? h = none → t = s)

/-! ## Servo engine (44_servo_engine.md) -/

/-- R240 to R245: REGCHANGE decodes the pulse of every servo that depends on the changed register, from the live
registers, and of no other; with none it changes nothing. It emits the warnings of the rejected pulses, in ascending
handle order, and nothing for an accepted one. That one operation warns once for each rejected pulse is R240's and
R242's word against a sentence of R311: the model's reading (log entry 13). -/
def Obligations.RegChangeDecodesPulse : Prop :=
  ∀ (a old new : Nat) (s : State), HandlesRise s → ∃ t, exec (.regchange a old new) s = .next t ∧
    newEvents s t = servoEvents (pulseEvents a s) s ∧
    ((∀ h V ch, s.servo? h = some V → V.channel = some ch →
      a ≠ compareReg s.cfg ch.timer ch.chan ∧ topSourceAddr s.cfg ch.timer (s.mode ch.timer) ≠ some a) → t = s) ∧
    (∀ h V, s.servo? h = some V → V.channel = none → t.servo? h = some V) ∧
    ∀ h V ch, s.servo? h = some V → V.channel = some ch →
      let top := s.top ch.timer
      let pw := (2 * s.compare ch.timer ch.chan * V.periodMicros + top) / (2 * top)
      let triggered := a = compareReg s.cfg ch.timer ch.chan ∨ topSourceAddr s.cfg ch.timer (s.mode ch.timer) = some a
      let measured := { V with lastPulseWidth := pw, lastPeriod := V.periodMicros }
      (¬triggered → t.servo? h = some V) ∧
      (triggered → s.countKind ch.timer = .frozen ∨ top = 0 →
        t.servo? h = some { V with lastPulseValid := false } ∧
        Event.warning (.servoNoTop h (s.mode ch.timer)) ∈ newEvents s t) ∧
      (triggered → s.countKind ch.timer ≠ .frozen → 0 < top → (pw < s.cfg.pulseMinUs ∨ s.cfg.pulseMaxUs < pw) →
        t.servo? h = some { measured with lastPulseValid := false } ∧
        Event.warning (.servoPulseRange h pw) ∈ newEvents s t) ∧
      (triggered → s.countKind ch.timer ≠ .frozen → 0 < top → s.cfg.pulseMinUs ≤ pw → pw ≤ s.cfg.pulseMaxUs →
        t.servo? h = some { measured with
          lastPulseValid := true,
          targetAngle := max 0 (min 180
            (((pw : ℚ) - s.cfg.pulseAt0Us) * 180 / ((s.cfg.pulseAt180Us : ℚ) - s.cfg.pulseAt0Us))) } ∧
        ∀ x, Event.warning (.servoNoTop h x) ∉ newEvents s t ∧ Event.warning (.servoPulseRange h x) ∉ newEvents s t)

/-- R245, R247: the decode writes targets and pulse records, and the motion update angles, and the servo engine
nothing else; the decode notifies nobody. -/
def Obligations.ServoEngineFrame : Prop :=
  (∀ (a old new : Nat) (s : State), ∃ t, exec (.regchange a old new) s = .next t ∧ OnlyDevices s t ∧
    OutputGrows s t ∧ (newEvents s t).countP Event.isNotify = 0 ∧ (∀ h, t.display? h = s.display? h) ∧
    ∀ h V, s.servo? h = some V → ∃ V', t.servo? h = some V' ∧ DecodeChange V V') ∧
  ∀ s : State, ∃ t, exec .motion s = .next t ∧ OnlyDevices s t ∧ OutputGrows s t ∧
    (∀ h, t.display? h = s.display? h) ∧
    ∀ h V, s.servo? h = some V → ∃ V', t.servo? h = some V' ∧ MotionChange V V'

/-- R250 to R254: MOTION updates every servo at the present time: the timestamp and the stall state always, the angle
when the servo is not stalled and the error is not within the deadband. It emits the notifications of the moves that
are far enough or reach the target, in ascending handle order, and nothing else: an update that does not move never
notifies. -/
def Obligations.MotionUpdatesEveryServo : Prop :=
  ∀ s : State, HandlesRise s → ∃ t, exec .motion s = .next t ∧ newEvents s t = servoEvents (motionEvents s) s ∧
    ∀ h V, s.servo? h = some V →
      let now := s.time.totalCycles * 1000000 / s.cfg.fCpu
      let angle := nextAngle now V
      (Stalls V →
        t.servo? h = some { V with lastUpdateTimestamp := now, isStalled := true } ∧
        ∀ x, Event.notifyServo h x ∉ newEvents s t) ∧
      (¬Stalls V → ¬Moves V →
        t.servo? h = some { V with lastUpdateTimestamp := now, isStalled := false } ∧
        ∀ x, Event.notifyServo h x ∉ newEvents s t) ∧
      (Moves V → Notifies s.cfg now V →
        t.servo? h = some { V with
          lastUpdateTimestamp := now, isStalled := false, currentAngle := angle, lastNotifiedAngle := angle } ∧
        Event.notifyServo h angle ∈ newEvents s t) ∧
      (Moves V → ¬Notifies s.cfg now V →
        t.servo? h = some { V with lastUpdateTimestamp := now, isStalled := false, currentAngle := angle } ∧
        ∀ x, Event.notifyServo h x ∉ newEvents s t)

/-- R255: MOTION moves an angle toward its target and never past it, and never out of its range. -/
def Obligations.MotionNeverOvershoots : Prop :=
  ∀ (s t : State) (h : Nat) (V : ServoState), s.Inv → s.servo? h = some V → exec .motion s = .next t →
    ∃ V', t.servo? h = some V' ∧ V'.targetAngle = V.targetAngle ∧
      0 ≤ V'.currentAngle ∧ V'.currentAngle ≤ 180 ∧
      (V.currentAngle ≤ V.targetAngle →
        V.currentAngle ≤ V'.currentAngle ∧ V'.currentAngle ≤ V.targetAngle) ∧
      (V.targetAngle ≤ V.currentAngle →
        V.targetAngle ≤ V'.currentAngle ∧ V'.currentAngle ≤ V.currentAngle)

/-- R256: apart from registration and RESET, MOTION is the only operation that writes `currentAngle`. -/
def Obligations.CurrentAngleSingleWriter : Prop :=
  ∀ (i : Instr) (s t : State) (h : Nat) (V V' : ServoState), exec i s = .next t → i ≠ .reset → i ≠ .motion →
    s.servo? h = some V → t.servo? h = some V' → V'.currentAngle = V.currentAngle

/-- R257: in a run of TIMETICK and MOTION in turn, and of nothing else, so that the target and the load stay fixed:
with no stall and a speed above 0, motion updates at times that rise without bound bring the angle to the target, or
within the deadband of it, and it stays there. -/
def Obligations.ServoConverges : Prop :=
  ∀ (s : State) (h : Nat) (V : ServoState), s.Inv → s.servo? h = some V →
    ¬Stalls V → 0 < V.speedDegPerSec →
    ∀ cycles : Nat → Nat, (∀ bound, ∃ n, bound ≤ ((List.range n).map cycles).sum) →
      ∃ N, ∀ n, N ≤ n → ∃ t V', runInstrs (motionRun ((List.range n).map cycles)) s = .next t ∧
        t.servo? h = some V' ∧ V'.targetAngle = V.targetAngle ∧
        (V'.currentAngle = V.targetAngle ∨ |V.targetAngle - V'.currentAngle| < V.deadbandDeg)

/-! ## Step, time, registration and the CPU's writes (45_step_time_host.md) -/

/-- R271, R272: STEP is its six operations in order, the global enable taken from SREG bit 7 after the ticks. -/
def Obligations.StepIsSequence : Prop :=
  ∀ (n : Nat) (s : State), ∃ u t, runInstrs [.timetick n, .tick .t0 n, .tick .t1 n] s = .next u ∧
    runInstrs [.setgie (u.mem.bit s.cfg.reg.sreg 7), .dispatch, .observe] u = .next t ∧
    exec (.step n) s = .next t

/-- R276 to R278: TIMETICK adds its cycles to the time; NOWUS and NOWMS report it, truncated. -/
def Obligations.TimeCommands : Prop :=
  (∀ (n : Nat) (s : State), ∃ t, exec (.timetick n) s = .next t ∧
    t.time.totalCycles = s.time.totalCycles + n ∧ t = { s with time := t.time }) ∧
  (∀ s : State, exec .nowus s = .next (s.emit (.value (s.time.totalCycles * 1000000 / s.cfg.fCpu)))) ∧
  ∀ s : State, exec .nowms s = .next (s.emit (.value (s.time.totalCycles * 1000 / s.cfg.fCpu)))

/-- R280, R284, R300: REGDISPLAY. That a pin is valid if the configured pin map has it is the model's reading of
R284's "in 0 to 19", which is the same under R99's map (log entry 3). The order of the operands in the warning is the
model's (log entry 12). -/
def Obligations.RegisterDisplayCommand : Prop :=
  ∀ (rs en : Nat) (d : List Nat) (rows cols : Nat) (mode : Addressing) (s : State),
    (∀ e ∈ s.devs.entries, e.1 < s.devs.nextHandle) → (d.length = 4 ∨ d.length = 8) →
    let rows' := if rows = 0 then s.cfg.lcdDefaultRows else rows
    let cols' := if cols = 0 then s.cfg.lcdDefaultCols else cols
    let board := s.cfg.pinMap.map PinRow.pin
    let valid := rs ∈ board ∧ en ∈ board ∧ (∀ p ∈ d, p ∈ board) ∧ 1 ≤ rows' ∧ rows' ≤ 4 ∧ 1 ≤ cols' ∧ cols' ≤ 40
    (valid → ∃ t D, exec (.regdisplay rs en d rows cols mode) s = .next t ∧
      (∀ h, t.device? h = if h = s.devs.nextHandle then some (.display D) else s.device? h) ∧
      t.devs.nextHandle = s.devs.nextHandle + 1 ∧ t.out = s.out ++ [.handle s.devs.nextHandle] ∧
      t = { s with devs := t.devs, out := t.out } ∧
      D.rsPin = rs ∧ D.enPin = en ∧ D.dataPins = d ∧ D.bitMode = (if d.length = 8 then .eight else .four) ∧
      D.rows = rows' ∧ D.cols = cols' ∧ D.addressing = mode ∧ D.pendingNibble = 0 ∧
      D.expectingHighNibble = true ∧ D.buffer = List.replicate rows' (List.replicate cols' 0x20) ∧
      D.cursor = ⟨0, 0⟩ ∧ D.displayOn = false ∧ D.cursorOn = false ∧ D.blinkOn = false) ∧
    (¬valid → exec (.regdisplay rs en d rows cols mode) s =
      .next (s.emit (.warning (.regBadConfig ([rs, en, d.length] ++ d ++ [rows, cols, mode.operand])))))

/-- R281, R284, R100, R300, and R65 for the load and the arm that a RESET returns to: REGSERVO, its rational operands
in thousandths. That a pin is valid if the configured pin map has it is the model's reading of R284's "in 0 to 19",
which is the same under R99's map (log entry 3). The order of the operands in the warning is the model's (log entry
12), and so are the two fields that keep the load and the arm given (log entry 9). -/
def Obligations.RegisterServoCommand : Prop :=
  ∀ (pin speed deadband maxTorque load arm period initAngle : Nat) (s : State),
    (∀ e ∈ s.devs.entries, e.1 < s.devs.nextHandle) →
    let valid := pin ∈ s.cfg.pinMap.map PinRow.pin ∧ 0 < period ∧ initAngle ≤ 180000
    let channel : Option ServoChannel :=
      if pin = 9 then some ⟨.t1, .a⟩ else if pin = 10 then some ⟨.t1, .b⟩
      else if pin = 6 then some ⟨.t0, .a⟩ else if pin = 5 then some ⟨.t0, .b⟩ else none
    (valid → ∃ t V, exec (.regservo pin speed deadband maxTorque load arm period initAngle) s = .next t ∧
      (∀ h, t.device? h = if h = s.devs.nextHandle then some (.servo V) else s.device? h) ∧
      t.devs.nextHandle = s.devs.nextHandle + 1 ∧
      t.out = s.out ++ (if channel = none then [.warning (.servoNoChannel pin)] else []) ++
        [.handle s.devs.nextHandle] ∧
      t = { s with devs := t.devs, out := t.out } ∧
      V.signalPin = pin ∧ V.channel = channel ∧ V.speedDegPerSec = (speed : ℚ) / 1000 ∧
      V.deadbandDeg = (deadband : ℚ) / 1000 ∧ V.maxTorque = (maxTorque : ℚ) / 1000 ∧
      V.loadWeight = (load : ℚ) / 1000 ∧ V.armLength = (arm : ℚ) / 1000 ∧
      V.initialLoadWeight = (load : ℚ) / 1000 ∧ V.initialArmLength = (arm : ℚ) / 1000 ∧ V.periodMicros = period ∧
      V.initialAngle = (initAngle : ℚ) / 1000 ∧ V.currentAngle = (initAngle : ℚ) / 1000 ∧
      V.targetAngle = (initAngle : ℚ) / 1000 ∧ V.lastNotifiedAngle = (initAngle : ℚ) / 1000 ∧
      V.isStalled = false ∧ V.lastUpdateTimestamp = s.time.totalCycles * 1000000 / s.cfg.fCpu ∧
      V.lastPulseWidth = 0 ∧ V.lastPeriod = period ∧ V.lastPulseValid = false) ∧
    (¬valid → exec (.regservo pin speed deadband maxTorque load arm period initAngle) s =
      .next (s.emit (.warning
        (.regBadConfig [pin, speed, deadband, maxTorque, load, arm, period, initAngle]))))

/-- R282, R283, R301: UNREG removes a device; SETLOAD changes a servo's load; neither does anything for a handle it
does not name. -/
def Obligations.UnregisterAndSetLoad : Prop :=
  (∀ (h : Nat) (s : State), ∃ t, exec (.unreg h) s = .next t ∧
    (∀ k, t.device? k = if k = h then none else s.device? k) ∧ t.devs.nextHandle = s.devs.nextHandle ∧
    t = { s with devs := t.devs } ∧ (s.device? h = none → t = s)) ∧
  (∀ (h load arm : Nat) (s : State) (V : ServoState), s.servo? h = some V →
    ∃ t, exec (.setload h load arm) s = .next t ∧ OnlyDevices s t ∧ t.out = s.out ∧
      ∀ k, t.device? k =
        if k = h then some (.servo { V with loadWeight := (load : ℚ) / 1000, armLength := (arm : ℚ) / 1000 })
        else s.device? k) ∧
  ∀ (h load arm : Nat) (s : State), s.servo? h = none → exec (.setload h load arm) s = .next s

/-- R285, R10: MEMWRITE writes one byte and produces no event; nothing else changes. -/
def Obligations.MemWriteStoresByte : Prop :=
  ∀ (a : Nat) (v : Byte) (s : State), s.mem.wf = true → a < s.cfg.regMemSize →
    ∃ t, exec (.memwrite a v) s = .next t ∧ t = { s with mem := t.mem } ∧
      ∀ x, t.mem.read x = if x = a then v else s.mem.read x

/-- R105, R70, R184: the two writes of SET16 leave the 16-bit register holding the value, and every other byte as
before. -/
def Obligations.Set16WritesRegister : Prop :=
  ∀ (a v : Nat) (s : State), s.mem.wf = true → a + 1 < s.cfg.regMemSize → v < 65536 →
    ∃ t, runInstrs (expandSet16 a v) s = .next t ∧ t = { s with mem := t.mem } ∧ t.mem.read16 a = v ∧
      ∀ x, x ≠ a → x ≠ a + 1 → t.mem.read x = s.mem.read x

/-! ## Every operation -/

/-- R72, R74: the only bytes of register memory that an operation of the block writes are the counters and the flag
registers; only MEMWRITE, the CPU's write, reaches another byte. And (R30, R75) it reads no byte outside the register
map: with two register memories that agree on the register map, whatever they hold elsewhere, an operation does the
same, and leaves two that agree on it. -/
def Obligations.BlockWritesOnlyTimerBytes : Prop :=
  (∀ (i : Instr) (s t : State) (a : Nat), exec i s = .next t → (∀ v, i ≠ .memwrite a v) →
    a ∉ [s.cfg.reg.tcnt0, s.cfg.reg.tcnt1, s.cfg.reg.tcnt1 + 1, s.cfg.reg.tifr0, s.cfg.reg.tifr1] →
    t.mem.read a = s.mem.read a) ∧
  ∀ (i : Instr) (s t : State) (m : Memory), s.mem.wf = true → m.wf = true →
    (∀ a ∈ s.cfg.reg.bytes, m.read a = s.mem.read a) → exec i s = .next t →
    ∃ u, exec i { s with mem := m } = .next u ∧ u = { t with mem := u.mem } ∧
      ∀ a ∈ s.cfg.reg.bytes, u.mem.read a = t.mem.read a

/-- R7, R48, R270, R276, R342: no operation changes a parameter or takes back output; time runs back in RESET only; a
handle is never issued twice. -/
def Obligations.HistoryOnlyGrows : Prop :=
  ∀ (i : Instr) (s t : State), exec i s = .next t →
    t.cfg = s.cfg ∧ OutputGrows s t ∧ (i ≠ .reset → s.time.totalCycles ≤ t.time.totalCycles) ∧
    s.devs.nextHandle ≤ t.devs.nextHandle ∧
    ∀ h d, t.device? h = some d → s.device? h = none → h = s.devs.nextHandle ∧ h < t.devs.nextHandle

/-- R270: every operation is total. -/
def Obligations.EveryOperationCompletes : Prop :=
  ∀ (i : Instr) (s : State), i.WellFormed s.cfg → ∃ t, exec i s = .next t

/-- The invariant of the block (R27, R40, R48, R50, R55, R170, R220, R255) is kept by every step. -/
def Obligations.StepKeepsInvariant : Prop :=
  ∀ s t : State, s.Inv → step s = .next t → t.Inv

end Statements
end

