-- ==== Sys2Proof/Laws/State.lean ====
section
/-! SUPPORT. The small lemmas of the state's updates: one per field per update, so that no later proof unfolds a record
update. -/

namespace Sys2Proof.Machine

/-! ## emit and warn -/

@[simp] theorem State.emit_cfg (s : State) (e : Event) : (s.emit e).cfg = s.cfg := rfl

@[simp] theorem State.emit_mem (s : State) (e : Event) : (s.emit e).mem = s.mem := rfl

@[simp] theorem State.emit_t0 (s : State) (e : Event) : (s.emit e).t0 = s.t0 := rfl

@[simp] theorem State.emit_t1 (s : State) (e : Event) : (s.emit e).t1 = s.t1 := rfl

@[simp] theorem State.emit_ic (s : State) (e : Event) : (s.emit e).ic = s.ic := rfl

@[simp] theorem State.emit_snap (s : State) (e : Event) : (s.emit e).snap = s.snap := rfl

@[simp] theorem State.emit_time (s : State) (e : Event) : (s.emit e).time = s.time := rfl

@[simp] theorem State.emit_devs (s : State) (e : Event) : (s.emit e).devs = s.devs := rfl

@[simp] theorem State.emit_stream (s : State) (e : Event) : (s.emit e).stream = s.stream := rfl

@[simp] theorem State.emit_pos (s : State) (e : Event) : (s.emit e).pos = s.pos := rfl

@[simp] theorem State.emit_out (s : State) (e : Event) : (s.emit e).out = s.out ++ [e] := rfl

/-! ## warn -/

@[simp] theorem State.warn_cfg (s : State) (w : Warning) : (s.warn w).cfg = s.cfg := rfl

@[simp] theorem State.warn_mem (s : State) (w : Warning) : (s.warn w).mem = s.mem := rfl

@[simp] theorem State.warn_t0 (s : State) (w : Warning) : (s.warn w).t0 = s.t0 := rfl

@[simp] theorem State.warn_t1 (s : State) (w : Warning) : (s.warn w).t1 = s.t1 := rfl

@[simp] theorem State.warn_ic (s : State) (w : Warning) : (s.warn w).ic = s.ic := rfl

@[simp] theorem State.warn_snap (s : State) (w : Warning) : (s.warn w).snap = s.snap := rfl

@[simp] theorem State.warn_time (s : State) (w : Warning) : (s.warn w).time = s.time := rfl

@[simp] theorem State.warn_devs (s : State) (w : Warning) : (s.warn w).devs = s.devs := rfl

@[simp] theorem State.warn_stream (s : State) (w : Warning) : (s.warn w).stream = s.stream := rfl

@[simp] theorem State.warn_pos (s : State) (w : Warning) : (s.warn w).pos = s.pos := rfl

@[simp] theorem State.warn_out (s : State) (w : Warning) : (s.warn w).out = s.out ++ [.warning w] := rfl

/-! ## setDevice -/

@[simp] theorem State.setDevice_cfg (s : State) (h : Nat) (d : Device) : (s.setDevice h d).cfg = s.cfg := rfl

@[simp] theorem State.setDevice_mem (s : State) (h : Nat) (d : Device) : (s.setDevice h d).mem = s.mem := rfl

@[simp] theorem State.setDevice_t0 (s : State) (h : Nat) (d : Device) : (s.setDevice h d).t0 = s.t0 := rfl

@[simp] theorem State.setDevice_t1 (s : State) (h : Nat) (d : Device) : (s.setDevice h d).t1 = s.t1 := rfl

@[simp] theorem State.setDevice_ic (s : State) (h : Nat) (d : Device) : (s.setDevice h d).ic = s.ic := rfl

@[simp] theorem State.setDevice_snap (s : State) (h : Nat) (d : Device) : (s.setDevice h d).snap = s.snap := rfl

@[simp] theorem State.setDevice_time (s : State) (h : Nat) (d : Device) : (s.setDevice h d).time = s.time := rfl

@[simp] theorem State.setDevice_devs (s : State) (h : Nat) (d : Device) : (s.setDevice h d).devs = { s.devs with entries := s.devs.entries.map fun e => if e.1 = h then (e.1, d) else e } := rfl

@[simp] theorem State.setDevice_stream (s : State) (h : Nat) (d : Device) : (s.setDevice h d).stream = s.stream := rfl

@[simp] theorem State.setDevice_pos (s : State) (h : Nat) (d : Device) : (s.setDevice h d).pos = s.pos := rfl

@[simp] theorem State.setDevice_out (s : State) (h : Nat) (d : Device) : (s.setDevice h d).out = s.out := rfl

/-! ## addDevice -/

@[simp] theorem State.addDevice_cfg (s : State) (d : Device) : (s.addDevice d).cfg = s.cfg := rfl

@[simp] theorem State.addDevice_mem (s : State) (d : Device) : (s.addDevice d).mem = s.mem := rfl

@[simp] theorem State.addDevice_t0 (s : State) (d : Device) : (s.addDevice d).t0 = s.t0 := rfl

@[simp] theorem State.addDevice_t1 (s : State) (d : Device) : (s.addDevice d).t1 = s.t1 := rfl

@[simp] theorem State.addDevice_ic (s : State) (d : Device) : (s.addDevice d).ic = s.ic := rfl

@[simp] theorem State.addDevice_snap (s : State) (d : Device) : (s.addDevice d).snap = s.snap := rfl

@[simp] theorem State.addDevice_time (s : State) (d : Device) : (s.addDevice d).time = s.time := rfl

@[simp] theorem State.addDevice_devs (s : State) (d : Device) : (s.addDevice d).devs = ⟨s.devs.entries ++ [(s.devs.nextHandle, d)], s.devs.nextHandle + 1⟩ := rfl

@[simp] theorem State.addDevice_stream (s : State) (d : Device) : (s.addDevice d).stream = s.stream := rfl

@[simp] theorem State.addDevice_pos (s : State) (d : Device) : (s.addDevice d).pos = s.pos := rfl

@[simp] theorem State.addDevice_out (s : State) (d : Device) : (s.addDevice d).out = s.out ++ [.handle s.devs.nextHandle] := rfl

/-! ## removeDevice -/

@[simp] theorem State.removeDevice_cfg (s : State) (h : Nat) : (s.removeDevice h).cfg = s.cfg := rfl

@[simp] theorem State.removeDevice_mem (s : State) (h : Nat) : (s.removeDevice h).mem = s.mem := rfl

@[simp] theorem State.removeDevice_t0 (s : State) (h : Nat) : (s.removeDevice h).t0 = s.t0 := rfl

@[simp] theorem State.removeDevice_t1 (s : State) (h : Nat) : (s.removeDevice h).t1 = s.t1 := rfl

@[simp] theorem State.removeDevice_ic (s : State) (h : Nat) : (s.removeDevice h).ic = s.ic := rfl

@[simp] theorem State.removeDevice_snap (s : State) (h : Nat) : (s.removeDevice h).snap = s.snap := rfl

@[simp] theorem State.removeDevice_time (s : State) (h : Nat) : (s.removeDevice h).time = s.time := rfl

@[simp] theorem State.removeDevice_devs (s : State) (h : Nat) : (s.removeDevice h).devs = { s.devs with entries := s.devs.entries.filter fun e => e.1 != h } := rfl

@[simp] theorem State.removeDevice_stream (s : State) (h : Nat) : (s.removeDevice h).stream = s.stream := rfl

@[simp] theorem State.removeDevice_pos (s : State) (h : Nat) : (s.removeDevice h).pos = s.pos := rfl

@[simp] theorem State.removeDevice_out (s : State) (h : Nat) : (s.removeDevice h).out = s.out := rfl

/-! ## consume -/

@[simp] theorem State.consume_cfg (s : State) (n : Nat) : (s.consume n).cfg = s.cfg := rfl

@[simp] theorem State.consume_mem (s : State) (n : Nat) : (s.consume n).mem = s.mem := rfl

@[simp] theorem State.consume_t0 (s : State) (n : Nat) : (s.consume n).t0 = s.t0 := rfl

@[simp] theorem State.consume_t1 (s : State) (n : Nat) : (s.consume n).t1 = s.t1 := rfl

@[simp] theorem State.consume_ic (s : State) (n : Nat) : (s.consume n).ic = s.ic := rfl

@[simp] theorem State.consume_snap (s : State) (n : Nat) : (s.consume n).snap = s.snap := rfl

@[simp] theorem State.consume_time (s : State) (n : Nat) : (s.consume n).time = s.time := rfl

@[simp] theorem State.consume_devs (s : State) (n : Nat) : (s.consume n).devs = s.devs := rfl

@[simp] theorem State.consume_stream (s : State) (n : Nat) : (s.consume n).stream = s.stream.drop n := rfl

@[simp] theorem State.consume_pos (s : State) (n : Nat) : (s.consume n).pos = s.pos + n := rfl

@[simp] theorem State.consume_out (s : State) (n : Nat) : (s.consume n).out = s.out := rfl

/-! ## setTimer -/

@[simp] theorem State.setTimer_cfg (s : State) (t : TimerId) (T : TimerState) : (s.setTimer t T).cfg = s.cfg := by
  cases t <;> rfl

@[simp] theorem State.setTimer_mem (s : State) (t : TimerId) (T : TimerState) : (s.setTimer t T).mem = s.mem := by
  cases t <;> rfl

@[simp] theorem State.setTimer_ic (s : State) (t : TimerId) (T : TimerState) : (s.setTimer t T).ic = s.ic := by
  cases t <;> rfl

@[simp] theorem State.setTimer_snap (s : State) (t : TimerId) (T : TimerState) : (s.setTimer t T).snap = s.snap := by
  cases t <;> rfl

@[simp] theorem State.setTimer_time (s : State) (t : TimerId) (T : TimerState) : (s.setTimer t T).time = s.time := by
  cases t <;> rfl

@[simp] theorem State.setTimer_devs (s : State) (t : TimerId) (T : TimerState) : (s.setTimer t T).devs = s.devs := by
  cases t <;> rfl

@[simp] theorem State.setTimer_stream (s : State) (t : TimerId) (T : TimerState) : (s.setTimer t T).stream = s.stream := by
  cases t <;> rfl

@[simp] theorem State.setTimer_pos (s : State) (t : TimerId) (T : TimerState) : (s.setTimer t T).pos = s.pos := by
  cases t <;> rfl

@[simp] theorem State.setTimer_out (s : State) (t : TimerId) (T : TimerState) : (s.setTimer t T).out = s.out := by
  cases t <;> rfl

@[simp] theorem State.timer_setTimer_same (s : State) (t : TimerId) (T : TimerState) : (s.setTimer t T).timer t = T := by
  cases t <;> rfl

theorem State.timer_setTimer_other (s : State) {t u : TimerId} (T : TimerState) (h : u ≠ t) :
    (s.setTimer t T).timer u = s.timer u := by
  cases t <;> cases u <;> first | rfl | exact absurd rfl h

@[simp] theorem State.setTimer_setTimer (s : State) (t : TimerId) (T U : TimerState) :
    (s.setTimer t T).setTimer t U = s.setTimer t U := by
  cases t <;> rfl

@[simp] theorem State.timer_t0 (s : State) : s.timer .t0 = s.t0 := rfl

@[simp] theorem State.timer_t1 (s : State) : s.timer .t1 = s.t1 := rfl

/-- A timer reads the two timer fields only. -/
theorem State.timer_congr {s u : State} (h0 : s.t0 = u.t0) (h1 : s.t1 = u.t1) (t : TimerId) : s.timer t = u.timer t := by
  cases t <;> assumption

/-! ## Interrupt controller -/

@[simp] theorem IcState.vec_setVec_same (ic : IcState) (v : IrqVector) (x : VecState) : (ic.setVec v x).vec v = x := by
  cases v <;> rfl

theorem IcState.vec_setVec_other (ic : IcState) {u v : IrqVector} (x : VecState) (h : u ≠ v) :
    (ic.setVec v x).vec u = ic.vec u := by
  cases u <;> cases v <;> first | rfl | exact absurd rfl h

theorem IcState.vec_setVec (ic : IcState) (u v : IrqVector) (x : VecState) :
    (ic.setVec v x).vec u = if u = v then x else ic.vec u := by
  by_cases h : u = v
  · subst h; simp
  · simp [h, IcState.vec_setVec_other]

@[simp] theorem IcState.setVec_gie (ic : IcState) (v : IrqVector) (x : VecState) : (ic.setVec v x).gie = ic.gie := by
  cases v <;> rfl

@[simp] theorem IcState.vec_gie (ic : IcState) (b : Bool) (v : IrqVector) :
    IcState.vec { ic with gie := b } v = ic.vec v := by
  cases v <;> rfl

/-- Two controllers with the same vectors and the same mirror are equal. -/
theorem IcState.ext_vec {ic jc : IcState} (hv : ∀ v, ic.vec v = jc.vec v) (hg : ic.gie = jc.gie) : ic = jc := by
  obtain ⟨a, b, c, d, e, f, g⟩ := ic
  obtain ⟨a', b', c', d', e', f', g'⟩ := jc
  have h1 := hv .timer1CompA
  have h2 := hv .timer1CompB
  have h3 := hv .timer1Ovf
  have h4 := hv .timer0CompA
  have h5 := hv .timer0CompB
  have h6 := hv .timer0Ovf
  simp only [IcState.vec] at h1 h2 h3 h4 h5 h6 hg
  subst h1 h2 h3 h4 h5 h6 hg
  rfl

end Sys2Proof.Machine
end

