-- ==== Sys2Proof/Laws/Config.lean ====
section
/-! SUPPORT. The values of the default configuration (R7, R30, R97), for simp, and what an accepted configuration gives
(R71, R98, log entry 3): registers apart, ids and priorities apart, divisors above 0. -/

namespace Sys2Proof

@[simp] theorem config_regMemSize : config.regMemSize = 0x100 := rfl
@[simp] theorem config_fCpu : config.fCpu = 16000000 := rfl
@[simp] theorem config_t0Width : config.t0Width = 8 := rfl
@[simp] theorem config_t1Width : config.t1Width = 16 := rfl
@[simp] theorem config_portb : config.reg.portb = 0x25 := rfl
@[simp] theorem config_portc : config.reg.portc = 0x28 := rfl
@[simp] theorem config_portd : config.reg.portd = 0x2B := rfl
@[simp] theorem config_tifr0 : config.reg.tifr0 = 0x35 := rfl
@[simp] theorem config_tifr1 : config.reg.tifr1 = 0x36 := rfl
@[simp] theorem config_tccr0a : config.reg.tccr0a = 0x44 := rfl
@[simp] theorem config_tccr0b : config.reg.tccr0b = 0x45 := rfl
@[simp] theorem config_tcnt0 : config.reg.tcnt0 = 0x46 := rfl
@[simp] theorem config_ocr0a : config.reg.ocr0a = 0x47 := rfl
@[simp] theorem config_ocr0b : config.reg.ocr0b = 0x48 := rfl
@[simp] theorem config_sreg : config.reg.sreg = 0x5F := rfl
@[simp] theorem config_timsk0 : config.reg.timsk0 = 0x6E := rfl
@[simp] theorem config_timsk1 : config.reg.timsk1 = 0x6F := rfl
@[simp] theorem config_tccr1a : config.reg.tccr1a = 0x80 := rfl
@[simp] theorem config_tccr1b : config.reg.tccr1b = 0x81 := rfl
@[simp] theorem config_tcnt1 : config.reg.tcnt1 = 0x84 := rfl
@[simp] theorem config_icr1 : config.reg.icr1 = 0x86 := rfl
@[simp] theorem config_ocr1a : config.reg.ocr1a = 0x88 := rfl
@[simp] theorem config_ocr1b : config.reg.ocr1b = 0x8A := rfl
@[simp] theorem config_prescalers : config.prescalers = [1, 8, 64, 256, 1024] := rfl
@[simp] theorem config_pulseMinUs : config.pulseMinUs = 700 := rfl
@[simp] theorem config_pulseMaxUs : config.pulseMaxUs = 2500 := rfl
@[simp] theorem config_pulseAt0Us : config.pulseAt0Us = 1000 := rfl
@[simp] theorem config_pulseAt180Us : config.pulseAt180Us = 2000 := rfl
@[simp] theorem config_notifyThresholdDeg : config.notifyThresholdDeg = 1 / 2 := rfl
@[simp] theorem config_lcdDefaultRows : config.lcdDefaultRows = 2 := rfl
@[simp] theorem config_lcdDefaultCols : config.lcdDefaultCols = 16 := rfl


/-! ## Accepted configurations -/

/-- All that an accepted configuration gives. -/
structure Config.Facts (c : Config) : Prop where
  priorities : (IrqVector.all.map fun v => (c.vectorTable.row v).priority).Nodup
  ids : (IrqVector.all.map fun v => (c.vectorTable.row v).id).Nodup
  bits : ∀ t, c.vectorTable.goodBits t = true
  bytes : c.reg.bytes.Nodup
  t0Width : c.t0Width = 8
  t1Width : c.t1Width = 16
  fCpu : 0 < c.fCpu
  references : c.pulseAt0Us ≠ c.pulseAt180Us
  prescalers : ∀ d ∈ c.prescalers, 0 < d
  pins : (c.pinMap.map PinRow.pin).Nodup
  places : (c.pinMap.map fun r => (r.port, r.bit)).Nodup
  inside : ∀ a ∈ c.reg.bytes, a < c.regMemSize

theorem Config.Accepted.facts {c : Config} (h : c.Accepted) : c.Facts := by
  unfold Config.Accepted Config.check at h
  split_ifs at h with h1 h2 h3 h4 h5 h6 h7
  simp at h1 h2 h3 h4 h5 h6 h7 h
  refine ⟨by simpa using h1, by simpa using h2, fun t => by cases t <;> simp [h3], h4, h5.1, h5.2, by omega, h6.1.2, ?_,
    h7.1, h7.2, h⟩
  intro d hd
  rcases Nat.eq_zero_or_pos d with rfl | h0
  · exact absurd hd h6.2
  · exact h0

/-- R7's defaults are accepted. -/
theorem config_accepted : config.Accepted := by decide

open Machine

/-! ## Registers (R30) -/

/-- Two different places of the register map hold two different addresses. -/
theorem RegMap.ne_of_nodup {r : RegMap} (h : r.bytes.Nodup) (i j : Fin 23) (hij : i ≠ j) :
    r.bytes[i.val]'i.isLt ≠ r.bytes[j.val]'j.isLt :=
  fun e => hij (Fin.ext ((List.Nodup.getElem_inj_iff h).mp e))

variable {c : Config}

/-- A byte of the register map that is no counter and no flag byte is none that a timer writes. -/
theorem Config.Facts.byte_apart (h : c.Facts) (i : Fin 23)
    (hi : i ≠ 3 ∧ i ≠ 4 ∧ i ≠ 7 ∧ i ≠ 15 ∧ i ≠ 16) (u : TimerId) :
    c.reg.bytes[i.val]'i.isLt ∉ timerWrites c u := by
  have n := fun j => RegMap.ne_of_nodup h.bytes i j
  obtain ⟨h3, h4, h7, h15, h16⟩ := hi
  cases u
  · simp only [timerWrites, List.mem_cons, List.not_mem_nil, or_false, not_or]
    exact ⟨n 7 h7, n 3 h3⟩
  · simp only [timerWrites, List.mem_cons, List.not_mem_nil, or_false, not_or]
    exact ⟨n 15 h15, n 16 h16, n 4 h4⟩

theorem Config.Facts.controlA_apart (h : c.Facts) (t u : TimerId) : controlA c t ∉ timerWrites c u := by
  cases t
  · exact h.byte_apart 5 (by decide) u
  · exact h.byte_apart 13 (by decide) u

theorem Config.Facts.controlB_apart (h : c.Facts) (t u : TimerId) : controlB c t ∉ timerWrites c u := by
  cases t
  · exact h.byte_apart 6 (by decide) u
  · exact h.byte_apart 14 (by decide) u

theorem Config.Facts.maskReg_apart (h : c.Facts) (t u : TimerId) : maskReg c t ∉ timerWrites c u := by
  cases t
  · exact h.byte_apart 11 (by decide) u
  · exact h.byte_apart 12 (by decide) u

theorem Config.Facts.sreg_apart (h : c.Facts) (u : TimerId) : c.reg.sreg ∉ timerWrites c u :=
  h.byte_apart 10 (by decide) u

theorem Config.Facts.icr1_apart (h : c.Facts) (u : TimerId) :
    c.reg.icr1 ∉ timerWrites c u ∧ c.reg.icr1 + 1 ∉ timerWrites c u :=
  ⟨h.byte_apart 17 (by decide) u, h.byte_apart 18 (by decide) u⟩

theorem Config.Facts.compareReg_apart (h : c.Facts) (t : TimerId) (x : CompareChannel) (u : TimerId) :
    compareReg c t x ∉ timerWrites c u ∧ (t = .t1 → compareReg c t x + 1 ∉ timerWrites c u) := by
  cases t <;> cases x
  · exact ⟨h.byte_apart 8 (by decide) u, by simp⟩
  · exact ⟨h.byte_apart 9 (by decide) u, by simp⟩
  · exact ⟨h.byte_apart 19 (by decide) u, fun _ => h.byte_apart 20 (by decide) u⟩
  · exact ⟨h.byte_apart 21 (by decide) u, fun _ => h.byte_apart 22 (by decide) u⟩

/-- The flag register of a timer is none of its counter bytes. -/
theorem Config.Facts.flagReg_ne_counter (h : c.Facts) (t u : TimerId) :
    flagReg c t ≠ counterReg c u ∧ (u = .t1 → flagReg c t ≠ counterReg c u + 1) := by
  have n := RegMap.ne_of_nodup h.bytes
  cases t <;> cases u
  · exact ⟨n 3 7 (by decide), by simp⟩
  · exact ⟨n 3 15 (by decide), fun _ => n 3 16 (by decide)⟩
  · exact ⟨n 4 7 (by decide), by simp⟩
  · exact ⟨n 4 15 (by decide), fun _ => n 4 16 (by decide)⟩

/-- The bytes that a timer writes lie inside register memory (R71, log entry 3). -/
theorem Config.Facts.timerWrites_inside (h : c.Facts) (t : TimerId) {a : Nat} (ha : a ∈ timerWrites c t) :
    a < c.regMemSize := by
  refine h.inside a ?_
  cases t <;> simp only [timerWrites, List.mem_cons, List.not_mem_nil, or_false] at ha <;>
    rcases ha with rfl | rfl | rfl <;> simp [RegMap.bytes]

/-! ## Every address that a register name, a board pin or an observed register stands for is RegMap's (R75) -/

theorem Machine.registerAddr_mem (r : Register) :
    registerAddr c r ∈ c.reg.bytes ∧ (isWideRegister r = true → registerAddr c r + 1 ∈ c.reg.bytes) := by
  cases r <;> simp [registerAddr, isWideRegister, RegMap.bytes]

theorem Machine.portAddr_mem (p : Port) : portAddr c p ∈ c.reg.bytes := by
  cases p <;> simp [portAddr, registerAddr, RegMap.bytes]

theorem Machine.pinLocation_mem {p a i : Nat} (h : pinLocation c p = some (a, i)) : a ∈ c.reg.bytes ∧ i < 8 := by
  obtain ⟨r, -, hr⟩ := Option.map_eq_some_iff.mp h
  obtain ⟨rfl, rfl⟩ := Prod.mk.inj hr
  exact ⟨portAddr_mem _, r.bit.isLt⟩

theorem Machine.observedAddrs_mem {a : Nat} (h : a ∈ observedAddrs c) : a ∈ c.reg.bytes := by
  obtain ⟨r, -, ha⟩ := List.mem_flatMap.mp h
  obtain ⟨h1, h2⟩ := registerAddr_mem (c := c) r.reg
  simp only [observedBytes] at ha
  split at ha
  · rw [List.mem_singleton.mp ha]
    exact h1
  · split at ha
    · rename_i hw
      rcases List.mem_pair.mp ha with rfl | rfl
      · exact h1
      · exact h2 hw
    · rw [List.mem_singleton.mp ha]
      exact h1

/-! ## Vectors and their bits (R97, R98) -/

theorem IrqVector.mem_all (v : IrqVector) : v ∈ IrqVector.all := by cases v <;> decide

/-- Priorities are distinct (R98). -/
theorem Config.Facts.priority_injective (h : c.Facts) {u v : IrqVector}
    (he : (vectorRow c u).priority = (vectorRow c v).priority) : u = v :=
  List.inj_on_of_nodup_map h.priorities (IrqVector.mem_all u) (IrqVector.mem_all v) he

/-- Ids are distinct (R97). -/
theorem Config.Facts.id_injective (h : c.Facts) {u v : IrqVector} (he : (vectorRow c u).id = (vectorRow c v).id) :
    u = v :=
  List.inj_on_of_nodup_map h.ids (IrqVector.mem_all u) (IrqVector.mem_all v) he

/-- The vector that an id names is the one whose table row holds it (R97). -/
theorem Config.Facts.vectorOfId_id (h : c.Facts) (v : IrqVector) : vectorOfId c (vectorRow c v).id = some v := by
  cases hv : vectorOfId c (vectorRow c v).id with
  | none =>
    simp only [vectorOfId, List.find?_eq_none] at hv
    exact absurd (hv v (IrqVector.mem_all v)) (by simp)
  | some u =>
    have := List.find?_some hv
    have e : u = v := h.id_injective (by simpa using this)
    rw [e]

/-- An id outside the table names no vector (R161). -/
theorem Machine.vectorOfId_unknown {id : Nat} (h : ∀ v, (vectorRow c v).id ≠ id) : vectorOfId c id = none := by
  simp only [vectorOfId, List.find?_eq_none]
  intro v _
  simp [h v]

theorem Config.Facts.flagBit_lt (h : c.Facts) (t : TimerId) (e : TimerEvent) :
    flagBit c t e < 8 ∧ maskBit c t e < 8 := by
  have hb := h.bits t
  simp only [VectorTable.goodBits, Bool.and_eq_true, List.all_eq_true, decide_eq_true_eq] at hb
  cases t <;> cases e <;> exact hb.2 _ (by decide)

/-- The flag bits of one timer's events are distinct (R97). -/
theorem Config.Facts.flagBit_injective (h : c.Facts) {t : TimerId} {e f : TimerEvent}
    (he : flagBit c t e = flagBit c t f) : e = f := by
  have hb := h.bits t
  simp only [VectorTable.goodBits, Bool.and_eq_true, decide_eq_true_eq] at hb
  have hi := fun hu hv => List.inj_on_of_nodup_map hb.1 (x := eventVector t e) hu (y := eventVector t f) hv he
  have := hi (by cases t <;> cases e <;> decide) (by cases t <;> cases f <;> decide)
  revert this
  cases t <;> cases e <;> cases f <;> decide

theorem Config.Facts.timerWidth_eq (h : c.Facts) (t : TimerId) :
    timerWidth c t = (match t with | .t0 => 8 | .t1 => 16) := by
  cases t
  · exact h.t0Width
  · exact h.t1Width

/-! ## Divisors (R92) -/

/-- The clock select decodes to a divisor of the configuration. -/
theorem Machine.clockDecode_divisor {k d : Nat} (h : (clockDecode c k).divisor? = some d) : d ∈ c.prescalers := by
  cases k with
  | zero => simp [clockDecode, Prescaler.divisor?] at h
  | succ k =>
    simp only [clockDecode] at h
    split at h
    · rename_i e he
      simp only [Prescaler.divisor?, Option.some.injEq] at h
      subst h
      exact List.mem_of_getElem? he
    · simp [Prescaler.divisor?] at h

theorem Machine.le_foldr_max {l : List Nat} {d : Nat} (h : d ∈ l) : d ≤ l.foldr max 1 := by
  induction l with
  | nil => simp at h
  | cons x l ih =>
    simp only [List.foldr_cons]
    rcases List.mem_cons.mp h with rfl | h
    · exact le_max_left _ _
    · exact le_trans (ih h) (le_max_right _ _)

/-- A divisor lies above 0 and is at most the largest one. -/
theorem Config.Facts.divisor_bounds (h : c.Facts) {k d : Nat} (hd : (clockDecode c k).divisor? = some d) :
    0 < d ∧ d ≤ maxDivisor c :=
  ⟨h.prescalers d (clockDecode_divisor hd), le_foldr_max (clockDecode_divisor hd)⟩

/-! ## Board pins (R99) -/

/-- The board pins are those of the pin map. -/
theorem Machine.isBoardPin_iff (p : Nat) : isBoardPin c p = true ↔ p ∈ c.pinMap.map PinRow.pin := by
  simp [isBoardPin, pinLocation, List.find?_isSome]

/-- The board pins of the default pin map are 0 to 19 (R99). -/
theorem Machine.isBoardPin_config (p : Nat) : isBoardPin config p = true ↔ p ≤ 19 := by
  rw [isBoardPin_iff]
  constructor
  · intro h
    fin_cases h <;> decide
  · intro h
    interval_cases p <;> decide

end Sys2Proof
end

