-- ==== Sys2Proof/Laws/Registry.lean ====
section
/-! SUPPORT. The device registry: what a lookup answers after each change of the registry (R48), and the relation
`OnlyDevices` of the two device engines. -/

namespace Sys2Proof.Machine

/-! ## Lookups -/

theorem lookupDevice_set (es : List (Nat × Device)) (h : Nat) (d : Device) (k : Nat) :
    lookupDevice (es.map fun e => if e.1 = h then (e.1, d) else e) k =
      if k = h then (lookupDevice es h).map (fun _ => d) else lookupDevice es k := by
  induction es with
  | nil => simp [lookupDevice]
  | cons e es ih =>
    obtain ⟨j, x⟩ := e
    by_cases hj : j = h
    · subst hj
      by_cases hk : k = j
      · simp [lookupDevice, hk]
      · simp [lookupDevice, hk, ih]
    · by_cases hk : k = h
      · subst hk
        have : ¬k = j := fun e => hj e.symm
        simp [lookupDevice, hj, this, ih]
      · simp [lookupDevice, hj, hk, ih]

theorem lookupDevice_map (es : List (Nat × Device)) (f : Device → Device) (k : Nat) :
    lookupDevice (es.map fun e => (e.1, f e.2)) k = (lookupDevice es k).map f := by
  induction es with
  | nil => rfl
  | cons e es ih =>
    obtain ⟨j, x⟩ := e
    by_cases hk : k = j <;> simp [lookupDevice, hk, ih]

theorem lookupDevice_append (es fs : List (Nat × Device)) (k : Nat) :
    lookupDevice (es ++ fs) k = (lookupDevice es k).or (lookupDevice fs k) := by
  induction es with
  | nil => simp [lookupDevice]
  | cons e es ih =>
    obtain ⟨j, x⟩ := e
    by_cases hk : k = j <;> simp [lookupDevice, hk, ih]

theorem lookupDevice_filter (es : List (Nat × Device)) (h k : Nat) :
    lookupDevice (es.filter fun e => e.1 != h) k = if k = h then none else lookupDevice es k := by
  induction es with
  | nil => simp [lookupDevice]
  | cons e es ih =>
    obtain ⟨j, x⟩ := e
    by_cases hj : j = h
    · subst hj
      by_cases hk : k = j
      · subst hk
        simpa using ih
      · simp [lookupDevice, ih, hk]
    · by_cases hk : k = j
      · simp [lookupDevice, hj, hk]
      · simp [lookupDevice, hj, hk, ih]

/-- A device found is an entry of the registry. -/
theorem mem_of_lookupDevice {es : List (Nat × Device)} {k : Nat} {d : Device} (h : lookupDevice es k = some d) :
    (k, d) ∈ es := by
  induction es with
  | nil => simp [lookupDevice] at h
  | cons e es ih =>
    obtain ⟨j, x⟩ := e
    simp only [lookupDevice] at h
    split at h
    · rename_i hk
      simp only [Option.some.injEq] at h
      simp [hk, h]
    · exact List.mem_cons_of_mem _ (ih h)

/-- In a registry whose handles rise strictly, every entry is the one its handle finds. -/
theorem lookupDevice_of_mem {es : List (Nat × Device)} (hs : (es.map Prod.fst).Pairwise (· < ·)) {k : Nat} {d : Device}
    (h : (k, d) ∈ es) : lookupDevice es k = some d := by
  induction es with
  | nil => simp at h
  | cons e es ih =>
    obtain ⟨j, x⟩ := e
    simp only [List.map_cons, List.pairwise_cons] at hs
    rcases List.mem_cons.mp h with h | h
    · simp only [Prod.mk.injEq] at h
      simp [lookupDevice, h.1, h.2]
    · have hlt := hs.1 k (List.mem_map_of_mem (f := Prod.fst) h)
      simp only [lookupDevice, if_neg (show ¬k = j by omega)]
      exact ih hs.2 h

/-! ## Lookups after an update -/

@[simp] theorem State.device?_emit (s : State) (e : Event) (k : Nat) : (s.emit e).device? k = s.device? k := rfl
@[simp] theorem State.device?_warn (s : State) (w : Warning) (k : Nat) : (s.warn w).device? k = s.device? k := rfl
@[simp] theorem State.display?_emit (s : State) (e : Event) (k : Nat) : (s.emit e).display? k = s.display? k := rfl
@[simp] theorem State.display?_warn (s : State) (w : Warning) (k : Nat) : (s.warn w).display? k = s.display? k := rfl
@[simp] theorem State.servo?_emit (s : State) (e : Event) (k : Nat) : (s.emit e).servo? k = s.servo? k := rfl
@[simp] theorem State.servo?_warn (s : State) (w : Warning) (k : Nat) : (s.warn w).servo? k = s.servo? k := rfl

theorem State.device?_congr {s u : State} (h : u.devs = s.devs) (k : Nat) : u.device? k = s.device? k := by
  simp [State.device?, h]

theorem State.device?_setDevice (s : State) (h : Nat) (d : Device) (k : Nat) :
    (s.setDevice h d).device? k = if k = h then (s.device? h).map (fun _ => d) else s.device? k :=
  lookupDevice_set _ _ _ _

theorem State.device?_setDevice_other (s : State) {h k : Nat} (d : Device) (hk : k ≠ h) :
    (s.setDevice h d).device? k = s.device? k := by
  rw [State.device?_setDevice, if_neg hk]

theorem State.device?_addDevice (s : State) (d : Device) (k : Nat) :
    (s.addDevice d).device? k = (s.device? k).or (if k = s.devs.nextHandle then some d else none) := by
  simp only [State.device?, State.addDevice_devs, lookupDevice_append]
  rfl

theorem State.device?_removeDevice (s : State) (h k : Nat) :
    (s.removeDevice h).device? k = if k = h then none else s.device? k := lookupDevice_filter _ _ _

theorem State.display?_eq_some {s : State} {h : Nat} {D : DisplayState} :
    s.display? h = some D ↔ s.device? h = some (.display D) := by
  unfold State.display?
  split <;> simp_all

theorem State.servo?_eq_some {s : State} {h : Nat} {V : ServoState} :
    s.servo? h = some V ↔ s.device? h = some (.servo V) := by
  unfold State.servo?
  split <;> simp_all

/-- The displays after a registered display was written. -/
theorem State.display?_setDisplay {s : State} {h : Nat} {D : DisplayState} (hD : s.display? h = some D)
    (D' : DisplayState) (k : Nat) :
    (s.setDevice h (.display D')).display? k = if k = h then some D' else s.display? k := by
  have hd := State.display?_eq_some.mp hD
  unfold State.display?
  rw [State.device?_setDevice, hd]
  by_cases hk : k = h <;> simp [hk]

/-- The servos after a registered display was written: the same. -/
theorem State.servo?_setDisplay {s : State} {h : Nat} {D : DisplayState} (hD : s.display? h = some D)
    (D' : DisplayState) (k : Nat) : (s.setDevice h (.display D')).servo? k = s.servo? k := by
  have hd := State.display?_eq_some.mp hD
  unfold State.servo?
  rw [State.device?_setDevice, hd]
  by_cases hk : k = h
  · subst hk
    simp [hd]
  · simp [hk]

/-- The servos after a registered servo was written. -/
theorem State.servo?_setServo {s : State} {h : Nat} {V : ServoState} (hV : s.servo? h = some V)
    (V' : ServoState) (k : Nat) :
    (s.setDevice h (.servo V')).servo? k = if k = h then some V' else s.servo? k := by
  have hd := State.servo?_eq_some.mp hV
  unfold State.servo?
  rw [State.device?_setDevice, hd]
  by_cases hk : k = h <;> simp [hk]

/-- The displays after a registered servo was written: the same. -/
theorem State.display?_setServo {s : State} {h : Nat} {V : ServoState} (hV : s.servo? h = some V)
    (V' : ServoState) (k : Nat) : (s.setDevice h (.servo V')).display? k = s.display? k := by
  have hd := State.servo?_eq_some.mp hV
  unfold State.display?
  rw [State.device?_setDevice, hd]
  by_cases hk : k = h
  · subst hk
    simp [hd]
  · simp [hk]

@[simp] theorem State.setDevice_handles (s : State) (h : Nat) (d : Device) :
    (s.setDevice h d).devs.entries.map Prod.fst = s.devs.entries.map Prod.fst := by
  rw [State.setDevice_devs, List.map_map]
  apply List.map_congr_left
  intro e _
  by_cases he : e.1 = h <;> simp [he]

/-- The entries after a write of one device: each is an old entry or the device written. -/
theorem State.mem_setDevice {s : State} {h : Nat} {d : Device} {e : Nat × Device}
    (he : e ∈ (s.setDevice h d).devs.entries) : e ∈ s.devs.entries ∨ e = (h, d) := by
  simp only [State.setDevice_devs, List.mem_map] at he
  obtain ⟨x, hx, rfl⟩ := he
  by_cases hk : x.1 = h
  · simp [hk]
  · simp [hk, hx]

/-! ## OnlyDevices and OutputGrows -/

theorem OnlyDevices.refl (s : State) : OnlyDevices s s := ⟨rfl, rfl, rfl, rfl, rfl, rfl, rfl, rfl, rfl, rfl, rfl⟩

theorem OnlyDevices.trans {s t u : State} (h : OnlyDevices s t) (k : OnlyDevices t u) : OnlyDevices s u :=
  ⟨k.cfg.trans h.cfg, k.mem.trans h.mem, k.t0.trans h.t0, k.t1.trans h.t1, k.ic.trans h.ic, k.snap.trans h.snap,
    k.time.trans h.time, k.stream.trans h.stream, k.pos.trans h.pos, k.nextHandle.trans h.nextHandle,
    k.handles.trans h.handles⟩

theorem OnlyDevices.emit (s : State) (e : Event) : OnlyDevices s (s.emit e) :=
  ⟨rfl, rfl, rfl, rfl, rfl, rfl, rfl, rfl, rfl, rfl, rfl⟩

theorem OnlyDevices.warn (s : State) (w : Warning) : OnlyDevices s (s.warn w) :=
  ⟨rfl, rfl, rfl, rfl, rfl, rfl, rfl, rfl, rfl, rfl, rfl⟩

theorem OnlyDevices.setDevice (s : State) (h : Nat) (d : Device) : OnlyDevices s (s.setDevice h d) :=
  ⟨rfl, rfl, rfl, rfl, rfl, rfl, rfl, rfl, rfl, rfl, State.setDevice_handles s h d⟩

theorem OutputGrows.refl (s : State) : OutputGrows s s := ⟨[], (List.append_nil _).symm⟩

theorem OutputGrows.trans {s t u : State} (h : OutputGrows s t) (k : OutputGrows t u) : OutputGrows s u := by
  obtain ⟨es, h⟩ := h
  obtain ⟨fs, k⟩ := k
  exact ⟨es ++ fs, by rw [k, h, List.append_assoc]⟩

theorem OutputGrows.emit (s : State) (e : Event) : OutputGrows s (s.emit e) := ⟨[e], rfl⟩

theorem OutputGrows.of_eq {s t : State} (h : t.out = s.out) : OutputGrows s t := ⟨[], by simp [h]⟩

/-! ## Loops over handles -/

/-- What every round of a loop keeps, the loop keeps. -/
theorem foldl_keeps {α : Type} (P : State → Prop) (f : State → α → State) (hf : ∀ s a, P s → P (f s a)) (l : List α)
    (s : State) (hs : P s) : P (l.foldl f s) := by
  induction l generalizing s with
  | nil => exact hs
  | cons a l ih => exact ih _ (hf s a hs)

/-- A reflexive and transitive relation that every round of a loop obeys, the loop obeys. -/
theorem foldl_relates {α : Type} (R : State → State → Prop) (hr : ∀ s, R s s) (ht : ∀ s t u, R s t → R t u → R s u)
    (f : State → α → State) (hf : ∀ s a, R s (f s a)) (l : List α) (s : State) : R s (l.foldl f s) :=
  foldl_keeps (fun t => R s t) f (fun t a h => ht s t _ h (hf t a)) l s (hr s)

/-- A loop whose rounds each leave the devices of the other handles alone leaves a device alone whose handle it does not
visit. -/
theorem foldl_unvisited (f : State → Nat → State) (hk : ∀ s a k, k ≠ a → (f s a).device? k = s.device? k) {l : List Nat}
    {h : Nat} (hh : h ∉ l) (s : State) : (l.foldl f s).device? h = s.device? h := by
  induction l generalizing s with
  | nil => rfl
  | cons a l ih =>
    simp only [List.mem_cons, not_or] at hh
    rw [List.foldl_cons, ih hh.2, hk _ _ _ hh.1]

/-- Such a loop visits each handle of a list without repeats once: the device it finds there is the one of the start,
and the one it leaves there stays. -/
theorem foldl_visit (R : State → State → Prop) (hr : ∀ s, R s s) (ht : ∀ s t u, R s t → R t u → R s u)
    (f : State → Nat → State) (hf : ∀ s a, R s (f s a)) (hk : ∀ s a k, k ≠ a → (f s a).device? k = s.device? k)
    {l : List Nat} (hl : l.Nodup) {h : Nat} (hh : h ∈ l) (s : State) :
    ∃ u, R s u ∧ u.device? h = s.device? h ∧ R (f u h) (l.foldl f s) ∧
      (l.foldl f s).device? h = (f u h).device? h := by
  induction l generalizing s with
  | nil => simp at hh
  | cons a l ih =>
    obtain ⟨ha, hl⟩ := List.nodup_cons.mp hl
    by_cases he : h = a
    · subst he
      exact ⟨s, hr s, rfl, foldl_relates R hr ht f hf l _, foldl_unvisited f hk ha _⟩
    · have hm : h ∈ l := by simpa [he] using hh
      obtain ⟨u, h1, h2, h3, h4⟩ := ih hl hm (f s a)
      exact ⟨u, ht _ _ _ (hf s a) h1, by rw [h2, hk _ _ _ he], h3, h4⟩

/-- The handles of a registry whose handles rise strictly, taken from some of its entries, have no repeats. -/
theorem handles_nodup {es : List (Nat × Device)} (hs : (es.map Prod.fst).Pairwise (· < ·)) (p : Nat × Device → Bool) :
    ((es.filter p).map Prod.fst).Nodup := by
  have h : (es.map Prod.fst).Nodup := List.Pairwise.imp (fun {a b} (hab : a < b) => Nat.ne_of_lt hab) hs
  exact (List.filter_sublist.map Prod.fst).nodup h

/-- Which handles such a selection holds. -/
theorem mem_handles {es : List (Nat × Device)} (hs : (es.map Prod.fst).Pairwise (· < ·)) (p : Device → Bool) (h : Nat) :
    h ∈ (es.filter fun e => p e.2).map Prod.fst ↔ ∃ d, lookupDevice es h = some d ∧ p d = true := by
  simp only [List.mem_map, List.mem_filter]
  constructor
  · rintro ⟨⟨k, d⟩, ⟨hm, hp⟩, rfl⟩
    exact ⟨d, lookupDevice_of_mem hs hm, hp⟩
  · rintro ⟨d, hd, hp⟩
    exact ⟨(h, d), ⟨mem_of_lookupDevice hd, hp⟩, rfl⟩

end Sys2Proof.Machine
end

