-- ==== Sys2Proof/Laws/Display.lean ====
section
/-! SUPPORT. What the display decoder can do (43_display_decoder.md): one relation that every operation of it obeys, and
the byte dispatch as the meaning of the decoded instruction. -/

namespace Sys2Proof.Machine

/-- All that the display decoder may do to a state (R219): display records and output only, configurations kept. -/
structure DisplayStep (s t : State) : Prop where
  only : OnlyDevices s t
  grows : OutputGrows s t
  servos : ∀ k, t.servo? k = s.servo? k
  displays : ∀ k D, s.display? k = some D → ∃ D', t.display? k = some D' ∧ SameDisplayConfig D D'
  absent : ∀ k, s.display? k = none → t.display? k = none

theorem SameDisplayConfig.refl (D : DisplayState) : SameDisplayConfig D D := ⟨rfl, rfl, rfl, rfl, rfl, rfl, rfl⟩

theorem SameDisplayConfig.trans {D E F : DisplayState} (h : SameDisplayConfig D E) (k : SameDisplayConfig E F) :
    SameDisplayConfig D F := by
  obtain ⟨h1, h2, h3, h4, h5, h6, h7⟩ := h
  obtain ⟨k1, k2, k3, k4, k5, k6, k7⟩ := k
  exact ⟨k1.trans h1, k2.trans h2, k3.trans h3, k4.trans h4, k5.trans h5, k6.trans h6, k7.trans h7⟩

theorem DisplayStep.refl (s : State) : DisplayStep s s :=
  ⟨.refl s, .refl s, fun _ => rfl, fun _ D h => ⟨D, h, .refl D⟩, fun _ h => h⟩

theorem DisplayStep.trans {s t u : State} (h : DisplayStep s t) (k : DisplayStep t u) : DisplayStep s u := by
  refine ⟨h.only.trans k.only, h.grows.trans k.grows, fun j => (k.servos j).trans (h.servos j), ?_,
    fun j hj => k.absent j (h.absent j hj)⟩
  intro j D hD
  obtain ⟨E, hE, hDE⟩ := h.displays j D hD
  obtain ⟨F, hF, hEF⟩ := k.displays j E hE
  exact ⟨F, hF, hDE.trans hEF⟩

theorem DisplayStep.emit (s : State) (e : Event) : DisplayStep s (s.emit e) :=
  ⟨.emit s e, .emit s e, fun _ => rfl, fun _ D h => ⟨D, h, .refl D⟩, fun _ h => h⟩

/-- Writing a registered display with its configuration kept. -/
theorem DisplayStep.setDisplay {s : State} {h : Nat} {D : DisplayState} (hD : s.display? h = some D) {D' : DisplayState}
    (hc : SameDisplayConfig D D') : DisplayStep s (s.setDevice h (.display D')) := by
  refine ⟨.setDevice s h _, .of_eq rfl, State.servo?_setDisplay hD D', ?_, ?_⟩
  · intro k E hE
    rw [State.display?_setDisplay hD]
    by_cases hk : k = h
    · subst hk
      rw [hD, Option.some.injEq] at hE
      subst hE
      exact ⟨D', by simp, hc⟩
    · exact ⟨E, by simp [hk, hE], .refl E⟩
  · intro k hk
    rw [State.display?_setDisplay hD, if_neg]
    · exact hk
    · intro e
      rw [e, hD] at hk
      exact absurd hk (by simp)

/-! ## Dispatching a byte -/

theorem onDisplay_none {s : State} {h : Nat} (hn : s.display? h = none) (f : DisplayState → DisplayState) :
    onDisplay h f s = s := by
  simp [onDisplay, hn]

/-- A dispatched byte updates its display, and notifies exactly when what a subscriber sees has changed (R205). -/
theorem onDisplay_some {s : State} {h : Nat} {D : DisplayState} (hD : s.display? h = some D)
    (f : DisplayState → DisplayState) :
    onDisplay h f s =
      if displaySnapshot (f D) = displaySnapshot D then s.setDevice h (.display (f D))
      else (s.setDevice h (.display (f D))).emit (.notifyDisplay h (displaySnapshot (f D))) := by
  simp only [onDisplay, hD, ne_eq]
  split <;> simp_all

theorem onDisplay_step (h : Nat) {f : DisplayState → DisplayState} (hf : ∀ D, SameDisplayConfig D (f D)) (s : State) :
    DisplayStep s (onDisplay h f s) := by
  cases hD : s.display? h with
  | none => rw [onDisplay_none hD]; exact .refl s
  | some D =>
    rw [onDisplay_some hD]
    split
    · exact .setDisplay hD (hf D)
    · exact (DisplayStep.setDisplay hD (hf D)).trans (.emit _ _)

theorem warnOnDisplay_step (h : Nat) (w : Warning) (s : State) : DisplayStep s (warnOnDisplay h w s) := by
  unfold warnOnDisplay
  split
  · exact .refl s
  · exact .emit s _

theorem clearDisplay_config (D : DisplayState) : SameDisplayConfig D (clearDisplay D) :=
  ⟨rfl, rfl, rfl, rfl, rfl, rfl, rfl⟩

theorem controlDisplay_config (d c b : Bool) (D : DisplayState) : SameDisplayConfig D (controlDisplay d c b D) :=
  ⟨rfl, rfl, rfl, rfl, rfl, rfl, rfl⟩

theorem moveCursor_config (pos : Cursor) (D : DisplayState) : SameDisplayConfig D (moveCursor pos D) :=
  ⟨rfl, rfl, rfl, rfl, rfl, rfl, rfl⟩

theorem advanceCursor_config (D : DisplayState) : SameDisplayConfig D (advanceCursor D) := by
  unfold advanceCursor
  split
  · exact ⟨rfl, rfl, rfl, rfl, rfl, rfl, rfl⟩
  · split <;> exact ⟨rfl, rfl, rfl, rfl, rfl, rfl, rfl⟩

theorem writeChar_config (b : Byte) (D : DisplayState) : SameDisplayConfig D (writeChar b D) :=
  advanceCursor_config { D with buffer := writeCell D.buffer D.cursor b }

theorem setDdramAddress_step (h a : Nat) (s : State) : DisplayStep s (setDdramAddress h a s) := by
  unfold setDdramAddress
  split
  · exact .refl s
  · split
    · exact warnOnDisplay_step h _ s
    · exact onDisplay_step h (moveCursor_config _) s

theorem dispatchByte_step (h : Nat) (rs : Bool) (b : Byte) (s : State) : DisplayStep s (dispatchByte h rs b s) := by
  unfold dispatchByte
  split
  · exact warnOnDisplay_step h _ s
  · exact onDisplay_step h clearDisplay_config s
  · exact onDisplay_step h clearDisplay_config s
  · exact .refl s
  · exact onDisplay_step h (controlDisplay_config _ _ _) s
  · exact .refl s
  · exact .refl s
  · exact .refl s
  · exact setDdramAddress_step h _ s
  · exact onDisplay_step h (writeChar_config _) s

/-- Dispatching a byte is the meaning of the instruction that the byte decodes to (R205). -/
theorem exec_displayOp (h : Nat) (rs : Bool) (b : Byte) (s : State) :
    exec ((decodeDisplayByte rs b).toInstr h) s = .next (dispatchByte h rs b s) := by
  unfold dispatchByte
  cases decodeDisplayByte rs b <;> rfl

/-! ## Latches and pin changes -/

theorem assemble_step {h : Nat} {D : DisplayState} {s : State} (hD : s.display? h = some D) (rs : Bool) (v : BitVec 4) :
    DisplayStep s (assemble h D rs v s) := by
  unfold assemble
  split
  · exact .setDisplay hD ⟨rfl, rfl, rfl, rfl, rfl, rfl, rfl⟩
  · refine DisplayStep.trans (.setDisplay hD ?_) (dispatchByte_step h rs _ _)
    exact ⟨rfl, rfl, rfl, rfl, rfl, rfl, rfl⟩

theorem latch_step (h : Nat) (s : State) : DisplayStep s (latch h s) := by
  cases hD : s.display? h with
  | none => simp only [latch, hD]; exact .refl s
  | some D =>
    simp only [latch, hD]
    split
    · exact dispatchByte_step h _ _ s
    · exact assemble_step hD _ _

theorem onDisplay_other (s : State) (h k : Nat) (f : DisplayState → DisplayState) (hk : k ≠ h) :
    (onDisplay h f s).device? k = s.device? k := by
  unfold onDisplay
  split
  · rfl
  · dsimp only
    split <;> simp [State.device?_setDevice_other _ _ hk]

theorem warnOnDisplay_device? (s : State) (h k : Nat) (w : Warning) :
    (warnOnDisplay h w s).device? k = s.device? k := by
  unfold warnOnDisplay
  split <;> rfl

theorem dispatchByte_other (s : State) (h k : Nat) (rs : Bool) (b : Byte) (hk : k ≠ h) :
    (dispatchByte h rs b s).device? k = s.device? k := by
  unfold dispatchByte
  split <;> first
    | exact onDisplay_other _ _ _ _ hk
    | exact warnOnDisplay_device? _ _ _ _
    | rfl
    | skip
  unfold setDdramAddress
  split
  · rfl
  · split
    · exact warnOnDisplay_device? _ _ _ _
    · exact onDisplay_other _ _ _ _ hk

/-- A latch of one display leaves the devices of the other handles alone. -/
theorem latch_other (s : State) (h k : Nat) (hk : k ≠ h) : (latch h s).device? k = s.device? k := by
  unfold latch
  split
  · rfl
  · dsimp only
    split
    · exact dispatchByte_other _ _ _ _ _ hk
    · unfold assemble
      split
      · exact State.device?_setDevice_other _ _ hk
      · rw [dispatchByte_other _ _ _ _ _ hk, State.device?_setDevice_other _ _ hk]

theorem pinChange_step (pin : Nat) (level : Bool) (s : State) : DisplayStep s (pinChange pin level s) := by
  unfold pinChange
  split
  · exact .refl s
  · exact foldl_relates DisplayStep .refl (fun _ _ _ => .trans) _ (fun s h => latch_step h s) _ s

end Sys2Proof.Machine
end

