-- ==== Sys2Proof/Laws/Encoding.lean ====
section
/-! SUPPORT. The little-endian integers of R101: reading back what was written. -/

namespace Sys2Proof

@[simp] theorem leBytes_length (k n : Nat) : (leBytes k n).length = k := by
  induction k generalizing n with
  | zero => rfl
  | succ k ih => simp [leBytes, ih]

/-- A natural that fits its width is read back from its bytes. -/
theorem leNat_leBytes {k n : Nat} (h : n < 256 ^ k) : leNat (leBytes k n) = n := by
  induction k generalizing n with
  | zero => simp only [pow_zero, Nat.lt_one_iff] at h; simp [leBytes, leNat, h]
  | succ k ih =>
    have hd : n / 256 < 256 ^ k := by
      rw [pow_succ] at h
      omega
    simp only [leBytes, leNat, ih hd, BitVec.toNat_ofNat]
    omega

theorem leNat_lt (bs : List Byte) : leNat bs < 256 ^ bs.length := by
  induction bs with
  | nil => simp [leNat]
  | cons b bs ih =>
    have hb := b.isLt
    simp only [leNat, List.length_cons, pow_succ]
    omega

/-- The bytes of a natural that was read from bytes are those bytes. -/
theorem leBytes_leNat (bs : List Byte) : leBytes bs.length (leNat bs) = bs := by
  induction bs with
  | nil => rfl
  | cons b bs ih =>
    have hb := b.isLt
    have hm : BitVec.ofNat 8 (b.toNat + 256 * leNat bs) = b := by
      apply BitVec.eq_of_toNat_eq
      simp only [BitVec.toNat_ofNat]
      omega
    have hd : (b.toNat + 256 * leNat bs) / 256 = leNat bs := by omega
    simp only [List.length_cons, leBytes, leNat, hm, hd, ih]

/-- A u8 operand is one byte. -/
theorem leBytes_one (n : Nat) : leBytes 1 n = [BitVec.ofNat 8 n] := rfl

theorem fitsBytes_iff {k n : Nat} : fitsBytes k n = true ↔ n < 256 ^ k := by simp [fitsBytes]

theorem timerOfOperand_operand (t : TimerId) : timerOfOperand t.operand = some t := by cases t <;> rfl

theorem addressingOfOperand_operand (a : Addressing) : addressingOfOperand a.operand = some a := by cases a <;> rfl

theorem boolOfOperand_toNat (b : Bool) : boolOfOperand b.toNat = some b := by cases b <;> rfl

theorem timerOfOperand_some {n : Nat} {t : TimerId} (h : timerOfOperand n = some t) : n = t.operand := by
  unfold timerOfOperand at h
  split at h <;> simp_all [TimerId.operand]
  all_goals (subst h; rfl)

theorem addressingOfOperand_some {n : Nat} {a : Addressing} (h : addressingOfOperand n = some a) : n = a.operand := by
  unfold addressingOfOperand at h
  split at h <;> simp_all [Addressing.operand]
  all_goals (subst h; rfl)

theorem boolOfOperand_some {n : Nat} {b : Bool} (h : boolOfOperand n = some b) : n = b.toNat := by
  unfold boolOfOperand at h
  split at h <;> simp_all

end Sys2Proof
end

