-- ==== Sys2Proof/Laws/Exec.lean ====
section
/-! SUPPORT. What each instruction answers: the state that its operation gives. To take a next state apart, rewrite with
the instruction's equation first. -/

namespace Sys2Proof.Machine

variable (s : State)

theorem exec_reset : exec .reset s = .next (resetBlock s) := rfl
theorem exec_step (n : Nat) : exec (.step n) s = .next (stepCycles n s) := rfl
theorem exec_memwrite (a : Nat) (v : Byte) (h : a < s.cfg.regMemSize) :
    exec (.memwrite a v) s = .next { s with mem := s.mem.write a v } := if_pos h
theorem exec_motion : exec .motion s = .next (motion s) := rfl
theorem exec_tick (t : TimerId) (n : Nat) : exec (.tick t n) s = .next (tick t n s) := rfl
theorem exec_raise (v : Nat) : exec (.raise v) s = .next (raise v s) := rfl
theorem exec_setgie (b : Bool) : exec (.setgie b) s = .next (setGie b s) := rfl
theorem exec_dispatch : exec .dispatch s = .next (dispatchPending s) := rfl
theorem exec_reti : exec .reti s = .next (returnFromInterrupt s) := rfl
theorem exec_observe : exec .observe s = .next (observe s) := rfl
theorem exec_pinchange (pin : Nat) (level : Bool) (ts : Nat) :
    exec (.pinchange pin level ts) s = .next (pinChange pin level s) := rfl
theorem exec_regchange (a old new : Nat) : exec (.regchange a old new) s = .next (regChange a s) := rfl
theorem exec_regdisplay (rs en : Nat) (d : List Nat) (rows cols : Nat) (mode : Addressing) :
    exec (.regdisplay rs en d rows cols mode) s = .next (registerDisplay rs en d rows cols mode s) := rfl
theorem exec_regservo (pin speed deadband maxTorque load arm period initAngle : Nat) :
    exec (.regservo pin speed deadband maxTorque load arm period initAngle) s =
      .next (registerServo pin speed deadband maxTorque load arm period initAngle s) := rfl
theorem exec_unreg (h : Nat) : exec (.unreg h) s = .next (s.removeDevice h) := rfl
theorem exec_setload (h load arm : Nat) : exec (.setload h load arm) s = .next (setLoad h load arm s) := rfl
theorem exec_timetick (n : Nat) : exec (.timetick n) s = .next (timeTick n s) := rfl
theorem exec_nowus : exec .nowus s = .next (s.emit (.value s.nowMicros)) := rfl
theorem exec_nowms : exec .nowms s = .next (s.emit (.value s.nowMillis)) := rfl
theorem exec_lcdUnknown (h : Nat) :
    exec (.lcdUnknown h) s = .next (warnOnDisplay h (.lcdUnknownOpcode h 0x00) s) := rfl
theorem exec_lcdClear (h : Nat) : exec (.lcdClear h) s = .next (onDisplay h clearDisplay s) := rfl
theorem exec_lcdHome (h : Nat) (x : Bool) : exec (.lcdHome h x) s = .next (onDisplay h clearDisplay s) := rfl
theorem exec_lcdEntryModeSet (h : Nat) (inc shift : Bool) : exec (.lcdEntryModeSet h inc shift) s = .next s := rfl
theorem exec_lcdDisplayControl (h : Nat) (d c b : Bool) :
    exec (.lcdDisplayControl h d c b) s = .next (onDisplay h (controlDisplay d c b) s) := rfl
theorem exec_lcdCursorDisplayShift (h : Nat) (sc rl : Bool) (x : BitVec 2) :
    exec (.lcdCursorDisplayShift h sc rl x) s = .next s := rfl
theorem exec_lcdFunctionSet (h : Nat) (dl n f : Bool) (x : BitVec 2) :
    exec (.lcdFunctionSet h dl n f x) s = .next s := rfl
theorem exec_lcdSetCgramAddress (h : Nat) (a : BitVec 6) : exec (.lcdSetCgramAddress h a) s = .next s := rfl
theorem exec_lcdSetDdramAddress (h : Nat) (a : BitVec 7) :
    exec (.lcdSetDdramAddress h a) s = .next (setDdramAddress h a.toNat s) := rfl
theorem exec_lcdWriteData (h : Nat) (c : Byte) :
    exec (.lcdWriteData h c) s = .next (onDisplay h (writeChar c) s) := rfl

/-- A MEMWRITE that answers a next state wrote inside register memory. -/
theorem exec_memwrite_next {s t : State} {a : Nat} {v : Byte} (h : exec (.memwrite a v) s = .next t) :
    a < s.cfg.regMemSize ∧ t = { s with mem := s.mem.write a v } := by
  by_cases ha : a < s.cfg.regMemSize
  · rw [exec_memwrite s a v ha, Host.Outcome.next.injEq] at h
    exact ⟨ha, h.symm⟩
  · have : exec (.memwrite a v) s = .fault (.outsideMemory a) := if_neg ha
    rw [this] at h
    exact absurd h (by simp)

end Sys2Proof.Machine
end

