-- ==== Sys2Proof/Laws/Memory.lean ====
section
/-! SUPPORT. The laws of memory: read after write, and the canonical form, which every memory operation keeps. -/

namespace Sys2Proof.Machine

/-! ## Read after write -/

@[simp] theorem Memory.read_nil (a : Nat) : Memory.read [] a = Memory.unlisted := rfl

/-- An address below every listed one reads as unlisted. -/
theorem Memory.read_below {lo : Nat} {m : Memory} (h : Memory.wfFrom lo m = true) {a : Nat} (ha : a < lo) :
    m.read a = Memory.unlisted := by
  induction m generalizing lo with
  | nil => rfl
  | cons c m ih =>
    obtain ⟨b, v⟩ := c
    simp only [Memory.wfFrom, Bool.and_eq_true, decide_eq_true_eq, bne_iff_ne] at h
    simp only [Memory.read, if_neg (show ¬a = b by omega)]
    exact ih h.2 (by omega)

/-- A canonical memory after a write reads the byte written at that address, and as before elsewhere. -/
theorem Memory.read_write_from {lo : Nat} {m : Memory} (h : Memory.wfFrom lo m = true) (a : Nat) (v : Byte) (x : Nat) :
    (m.write a v).read x = if x = a then v else m.read x := by
  induction m generalizing lo with
  | nil =>
    simp only [Memory.write]
    split
    · rename_i hv
      simp [hv]
    · simp [Memory.read]
  | cons c m ih =>
    obtain ⟨b, w⟩ := c
    simp only [Memory.wfFrom, Bool.and_eq_true, decide_eq_true_eq, bne_iff_ne] at h
    obtain ⟨⟨_, _⟩, hm⟩ := h
    simp only [Memory.write]
    split
    · rename_i hab
      split
      · rename_i hv
        by_cases hx : x = a
        · have hxb : ¬x = b := by omega
          have h0 := Memory.read_below hm (show x < b + 1 by omega)
          simp only [Memory.read, if_pos hx, if_neg hxb, h0, hv]
        · rw [if_neg hx]
      · simp only [Memory.read]
    · split
      · rename_i _ hab
        subst hab
        split
        · rename_i hv
          by_cases hx : x = a
          · have h0 := Memory.read_below hm (show x < a + 1 by omega)
            rw [if_pos hx, h0, hv]
          · simp only [Memory.read, if_neg hx]
        · by_cases hx : x = a <;> simp [Memory.read, hx]
      · rename_i _ hab
        simp only [Memory.read, ih hm]
        by_cases hxb : x = b
        · have hxa : ¬x = a := by omega
          simp [hxb]
          omega
        · simp [hxb]

theorem Memory.read_write {m : Memory} (h : m.wf = true) (a : Nat) (v : Byte) (x : Nat) :
    (m.write a v).read x = if x = a then v else m.read x := Memory.read_write_from h a v x

/-- The byte written is read back, in every memory. -/
@[simp] theorem Memory.read_write_same {m : Memory} (h : m.wf = true) (a : Nat) (v : Byte) :
    (m.write a v).read a = v := by
  rw [Memory.read_write h, if_pos rfl]

/-- Every other address reads as before, in every memory, canonical or not. -/
theorem Memory.read_write_other (m : Memory) {a x : Nat} (v : Byte) (hx : x ≠ a) :
    (m.write a v).read x = m.read x := by
  induction m with
  | nil =>
    simp only [Memory.write]
    split <;> simp [Memory.read, hx]
  | cons c m ih =>
    obtain ⟨b, w⟩ := c
    simp only [Memory.write]
    split
    · split <;> simp [Memory.read, hx]
    · split
      · rename_i _ hab
        subst hab
        split <;> simp [Memory.read, hx]
      · simp [Memory.read, ih]

/-! ## The canonical form -/

theorem Memory.wfFrom_mono {lo lo' : Nat} {m : Memory} (h : Memory.wfFrom lo m = true) (hl : lo' ≤ lo) :
    Memory.wfFrom lo' m = true := by
  cases m with
  | nil => rfl
  | cons c m =>
    obtain ⟨b, v⟩ := c
    simp only [Memory.wfFrom, Bool.and_eq_true, decide_eq_true_eq] at h ⊢
    exact ⟨⟨by omega, h.1.2⟩, h.2⟩

theorem Memory.write_wfFrom {lo : Nat} {m : Memory} (h : Memory.wfFrom lo m = true) {a : Nat} (v : Byte) (ha : lo ≤ a) :
    Memory.wfFrom lo (m.write a v) = true := by
  induction m generalizing lo with
  | nil =>
    simp only [Memory.write]
    split
    · rfl
    · rename_i hv
      simp [Memory.wfFrom, ha, hv]
  | cons c m ih =>
    obtain ⟨b, w⟩ := c
    have h' := h
    simp only [Memory.wfFrom, Bool.and_eq_true, decide_eq_true_eq, bne_iff_ne] at h
    obtain ⟨⟨hb, hw⟩, hm⟩ := h
    simp only [Memory.write]
    split
    · rename_i hab
      split
      · exact h'
      · rename_i hv
        simp only [Memory.wfFrom, Bool.and_eq_true, decide_eq_true_eq, bne_iff_ne]
        exact ⟨⟨ha, hv⟩, ⟨by omega, hw⟩, hm⟩
    · split
      · rename_i _ hab
        subst hab
        split
        · exact Memory.wfFrom_mono hm (by omega)
        · rename_i hv
          simp only [Memory.wfFrom, Bool.and_eq_true, decide_eq_true_eq, bne_iff_ne]
          exact ⟨⟨hb, hv⟩, hm⟩
      · rename_i hlt hne
        simp only [Memory.wfFrom, Bool.and_eq_true, decide_eq_true_eq, bne_iff_ne]
        exact ⟨⟨hb, hw⟩, ih hm (by omega)⟩

/-- A write keeps the canonical form. -/
theorem Memory.write_wf {m : Memory} (h : m.wf = true) (a : Nat) (v : Byte) : (m.write a v).wf = true :=
  Memory.write_wfFrom h v (Nat.zero_le a)

theorem Memory.write16_wf {m : Memory} (h : m.wf = true) (a v : Nat) : (m.write16 a v).wf = true :=
  Memory.write_wf (Memory.write_wf h _ _) _ _

theorem Memory.setBit_wf {m : Memory} (h : m.wf = true) (a i : Nat) : (m.setBit a i).wf = true :=
  Memory.write_wf h _ _

theorem Memory.clearBit_wf {m : Memory} (h : m.wf = true) (a i : Nat) : (m.clearBit a i).wf = true :=
  Memory.write_wf h _ _

theorem Memory.copyAt_wf (src : Memory) (addrs : List Nat) {dst : Memory} (h : dst.wf = true) :
    (src.copyAt addrs dst).wf = true := by
  induction addrs generalizing dst with
  | nil => exact h
  | cons a as ih => exact ih (Memory.write_wf h _ _)

/-- Which addresses a write lists: those listed before, and the address written. -/
theorem Memory.mem_write {m : Memory} {a : Nat} {v : Byte} {c : Host.Cell} (h : c ∈ m.write a v) :
    c ∈ m ∨ c.1 = a := by
  induction m with
  | nil =>
    simp only [Memory.write] at h
    split at h
    · simp at h
    · simp only [List.mem_singleton] at h
      exact Or.inr (by rw [h])
  | cons d m ih =>
    obtain ⟨b, w⟩ := d
    simp only [Memory.write] at h
    split at h
    · split at h
      · exact Or.inl h
      · rcases List.mem_cons.mp h with h | h
        · exact Or.inr (by rw [h])
        · exact Or.inl h
    · split at h
      · split at h
        · exact Or.inl (List.mem_cons_of_mem _ h)
        · rcases List.mem_cons.mp h with h | h
          · exact Or.inr (by rw [h])
          · exact Or.inl (List.mem_cons_of_mem _ h)
      · rcases List.mem_cons.mp h with h | h
        · exact Or.inl (by rw [h]; exact List.mem_cons_self)
        · rcases ih h with h | h
          · exact Or.inl (List.mem_cons_of_mem _ h)
          · exact Or.inr h

theorem Memory.within_iff {size : Nat} {m : Memory} : m.within size = true ↔ ∀ c ∈ m, c.1 < size := by
  simp [Memory.within]

/-- A write inside the address space keeps a memory inside it. -/
theorem Memory.write_within {size : Nat} {m : Memory} (h : m.within size = true) {a : Nat} (v : Byte) (ha : a < size) :
    (m.write a v).within size = true := by
  rw [Memory.within_iff] at h ⊢
  intro c hc
  rcases Memory.mem_write hc with hc | hc
  · exact h c hc
  · omega

/-- Writing what an address already reads as changes nothing in a canonical memory. -/
theorem Memory.write_read_from {lo : Nat} {m : Memory} (h : Memory.wfFrom lo m = true) (a : Nat) :
    m.write a (m.read a) = m := by
  induction m generalizing lo with
  | nil => rfl
  | cons c m ih =>
    obtain ⟨b, w⟩ := c
    simp only [Memory.wfFrom, Bool.and_eq_true, decide_eq_true_eq, bne_iff_ne] at h
    obtain ⟨⟨_, hw⟩, hm⟩ := h
    by_cases hab : a = b
    · subst hab
      have hr : Memory.read ((a, w) :: m) a = w := by simp [Memory.read]
      simp [Memory.write, hr, hw]
    · have hr : Memory.read ((b, w) :: m) a = Memory.read m a := by simp [Memory.read, hab]
      by_cases hlt : a < b
      · have h0 := Memory.read_below hm (show a < b + 1 by omega)
        simp [Memory.write, hr, h0, hlt]
      · simp [Memory.write, hr, hab, hlt, ih hm]

theorem Memory.write_read {m : Memory} (h : m.wf = true) (a : Nat) : m.write a (m.read a) = m :=
  Memory.write_read_from h a

/-! ## 16-bit registers, bits and copies -/

/-- A 16-bit write stores the low byte at the address and the high byte at the next; elsewhere nothing changes. -/
theorem Memory.read_write16 {m : Memory} (h : m.wf = true) (a v x : Nat) :
    (m.write16 a v).read x =
      if x = a + 1 then BitVec.ofNat 8 (v / 256) else if x = a then BitVec.ofNat 8 v else m.read x := by
  rw [Memory.write16, Memory.read_write (Memory.write_wf h _ _), Memory.read_write h]

/-- A 16-bit value written is read back. -/
theorem Memory.read16_write16 {m : Memory} (h : m.wf = true) (a : Nat) {v : Nat} (hv : v < 65536) :
    (m.write16 a v).read16 a = v := by
  simp only [Memory.read16, Memory.read_write16 h, if_pos, if_neg (show ¬a = a + 1 by omega), BitVec.toNat_ofNat]
  omega

theorem Memory.read16_lt (m : Memory) (a : Nat) : m.read16 a < 65536 := by
  have h1 := (m.read a).isLt
  have h2 := (m.read (a + 1)).isLt
  simp only [Memory.read16]
  omega

theorem Memory.read_setBit {m : Memory} (h : m.wf = true) (a i x : Nat) :
    (m.setBit a i).read x = if x = a then m.read a ||| (1#8 <<< i) else m.read x := Memory.read_write h _ _ _

theorem Memory.read_clearBit {m : Memory} (h : m.wf = true) (a i x : Nat) :
    (m.clearBit a i).read x = if x = a then m.read a &&& ~~~(1#8 <<< i) else m.read x := Memory.read_write h _ _ _

/-- The bits of a byte after one bit is set. -/
theorem getLsbD_setBit (v : Byte) (i j : Nat) (hi : i < 8) :
    (v ||| (1#8 <<< i)).getLsbD j = (v.getLsbD j || decide (j = i)) := by
  simp only [BitVec.getLsbD_or, BitVec.getLsbD_shiftLeft, BitVec.getLsbD_one]
  by_cases h : j = i
  · subst h
    simp [hi]
  · by_cases h8 : j < 8
    · have : (decide (j < i) = false → ¬(j - i = 0)) := by simp; omega
      cases hlt : decide (j < i) <;> simp_all
    · simp [h8, h]

/-- The bits of a byte after one bit is cleared. -/
theorem getLsbD_clearBit (v : Byte) (i j : Nat) (hi : i < 8) :
    (v &&& ~~~(1#8 <<< i)).getLsbD j = (v.getLsbD j && !decide (j = i)) := by
  simp only [BitVec.getLsbD_and, BitVec.getLsbD_not, BitVec.getLsbD_shiftLeft, BitVec.getLsbD_one]
  by_cases h8 : j < 8
  · by_cases h : j = i
    · subst h
      simp [hi]
    · have : (decide (j < i) = false → ¬(j - i = 0)) := by simp; omega
      cases hlt : decide (j < i) <;> simp_all
  · have hv : v.getLsbD j = false := BitVec.getLsbD_of_ge v j (by omega)
    simp [hv]

/-- A copy reads as its source at the copied addresses, and as before elsewhere. -/
theorem Memory.read_copyAt (src : Memory) (addrs : List Nat) {dst : Memory} (h : dst.wf = true) (x : Nat) :
    (src.copyAt addrs dst).read x = if x ∈ addrs then src.read x else dst.read x := by
  induction addrs generalizing dst with
  | nil => simp [Memory.copyAt]
  | cons a as ih =>
    have hstep : (src.copyAt (a :: as) dst) = src.copyAt as (dst.write a (src.read a)) := rfl
    rw [hstep, ih (Memory.write_wf h _ _), Memory.read_write h]
    by_cases hxa : x = a
    · subst hxa
      simp
    · simp [hxa]

/-- Which addresses a copy lists. -/
theorem Memory.mem_copyAt {src : Memory} {addrs : List Nat} {dst : Memory} {c : Host.Cell}
    (h : c ∈ src.copyAt addrs dst) : c ∈ dst ∨ c.1 ∈ addrs := by
  induction addrs generalizing dst with
  | nil => exact Or.inl h
  | cons a as ih =>
    rcases ih (dst := dst.write a (src.read a)) h with h | h
    · rcases Memory.mem_write h with h | h
      · exact Or.inl h
      · exact Or.inr (by rw [h]; exact List.mem_cons_self)
    · exact Or.inr (List.mem_cons_of_mem _ h)

end Sys2Proof.Machine
end

