-- ==== Sys2Proof/Laws/HostOps.lean ====
section
/-! SUPPORT. What registration, load changes and reset can do (45_step_time_host.md, 70_reset_and_hazards.md), and
runs of instructions one after another. -/

namespace Sys2Proof.Machine

/-! ## Reset (R286, R340) -/

@[simp] theorem resetBlock_cfg (s : State) : (resetBlock s).cfg = s.cfg := by simp only [resetBlock]
@[simp] theorem resetBlock_mem (s : State) : (resetBlock s).mem = s.mem := by simp only [resetBlock]
@[simp] theorem resetBlock_t0 (s : State) : (resetBlock s).t0 = TimerState.reset 0xFF := by simp only [resetBlock]
@[simp] theorem resetBlock_t1 (s : State) : (resetBlock s).t1 = TimerState.reset 0xFFFF := by simp only [resetBlock]
@[simp] theorem resetBlock_ic (s : State) : (resetBlock s).ic = IcState.reset := by simp only [resetBlock]
@[simp] theorem resetBlock_snap (s : State) : (resetBlock s).snap = s.mem.copyAt (observedAddrs s.cfg) [] := by
  simp only [resetBlock]
@[simp] theorem resetBlock_time (s : State) : (resetBlock s).time = ⟨0⟩ := by simp only [resetBlock]
@[simp] theorem resetBlock_devs (s : State) :
    (resetBlock s).devs = { s.devs with entries := s.devs.entries.map fun e => (e.1, resetDevice e.2) } := by
  simp only [resetBlock]
@[simp] theorem resetBlock_stream (s : State) : (resetBlock s).stream = s.stream := by simp only [resetBlock]
@[simp] theorem resetBlock_pos (s : State) : (resetBlock s).pos = s.pos := by simp only [resetBlock]
@[simp] theorem resetBlock_out (s : State) : (resetBlock s).out = s.out := by simp only [resetBlock]

@[simp] theorem IcState.vec_reset (v : IrqVector) : IcState.reset.vec v = .idle := by cases v <;> rfl

@[simp] theorem resetBlock_handles (s : State) :
    (resetBlock s).devs.entries.map Prod.fst = s.devs.entries.map Prod.fst := by
  simp [List.map_map, Function.comp_def]

theorem resetBlock_device? (s : State) (k : Nat) : (resetBlock s).device? k = (s.device? k).map resetDevice := by
  simp only [State.device?, resetBlock_devs, lookupDevice_map]

theorem resetBlock_display? (s : State) (k : Nat) : (resetBlock s).display? k = (s.display? k).map resetDisplay := by
  simp only [State.display?, resetBlock_device?]
  cases s.device? k with
  | none => rfl
  | some d => cases d <;> rfl

theorem resetBlock_servo? (s : State) (k : Nat) : (resetBlock s).servo? k = (s.servo? k).map resetServo := by
  simp only [State.servo?, resetBlock_device?]
  cases s.device? k with
  | none => rfl
  | some d => cases d <;> rfl

/-! ## Registration (R280 to R284) -/

/-- A device registered under the next handle is found there, and no other handle changes (R48). -/
theorem addDevice_device?_of_below {s : State} (hb : ∀ e ∈ s.devs.entries, e.1 < s.devs.nextHandle) (d : Device)
    (k : Nat) : (s.addDevice d).device? k = if k = s.devs.nextHandle then some d else s.device? k := by
  rw [State.device?_addDevice]
  by_cases hk : k = s.devs.nextHandle
  · subst hk
    cases hd : s.device? s.devs.nextHandle with
    | none => simp
    | some x => exact absurd (hb _ (mem_of_lookupDevice hd)) (by simp)
  · simp [hk]

/-- All that REGDISPLAY may do: register a display, or warn. -/
theorem registerDisplay_cases (rs en : Nat) (d : List Nat) (rows cols : Nat) (mode : Addressing) (s : State) :
    (validDisplay s.cfg rs en d (orDefault rows s.cfg.lcdDefaultRows)
          (orDefault cols s.cfg.lcdDefaultCols) = true ∧
      registerDisplay rs en d rows cols mode s =
        s.addDevice (.display (newDisplay rs en d (orDefault rows s.cfg.lcdDefaultRows)
          (orDefault cols s.cfg.lcdDefaultCols) mode))) ∨
    (validDisplay s.cfg rs en d (orDefault rows s.cfg.lcdDefaultRows) (orDefault cols s.cfg.lcdDefaultCols) = false ∧
      registerDisplay rs en d rows cols mode s =
        s.warn (.regBadConfig ([rs, en, d.length] ++ d ++ [rows, cols, mode.operand]))) := by
  have hr : registerDisplay rs en d rows cols mode s =
      if validDisplay s.cfg rs en d (orDefault rows s.cfg.lcdDefaultRows)
          (orDefault cols s.cfg.lcdDefaultCols) = true then
        s.addDevice (.display (newDisplay rs en d (orDefault rows s.cfg.lcdDefaultRows)
          (orDefault cols s.cfg.lcdDefaultCols) mode))
      else s.warn (.regBadConfig ([rs, en, d.length] ++ d ++ [rows, cols, mode.operand])) := rfl
  rw [hr]
  cases hv : validDisplay s.cfg rs en d (orDefault rows s.cfg.lcdDefaultRows) (orDefault cols s.cfg.lcdDefaultCols) with
  | true => exact Or.inl ⟨rfl, if_pos rfl⟩
  | false => exact Or.inr ⟨rfl, if_neg Bool.false_ne_true⟩

/-- All that SETLOAD may do: change the load of a servo, or nothing. -/
theorem setLoad_cases (h load arm : Nat) (s : State) :
    (s.servo? h = none ∧ setLoad h load arm s = s) ∨
    ∃ V, s.servo? h = some V ∧ setLoad h load arm s =
      s.setDevice h (.servo { V with loadWeight := thousandths load, armLength := thousandths arm }) := by
  unfold setLoad
  cases hV : s.servo? h with
  | none => exact Or.inl ⟨rfl, rfl⟩
  | some V => exact Or.inr ⟨V, rfl, rfl⟩

/-! ## Runs -/

theorem runInstrs_append (is js : List Instr) (s : State) :
    runInstrs (is ++ js) s =
      match runInstrs is s with
      | .next t => runInstrs js t
      | .fault f => .fault f
      | .refused r => .refused r := by
  induction is generalizing s with
  | nil => rfl
  | cons i is ih =>
    simp only [List.cons_append, runInstrs]
    cases exec i s with
    | next t => exact ih t
    | fault f => rfl
    | refused r => rfl

/-- A run goes on after its first part. -/
theorem runInstrs_append_next {is : List Instr} {s t : State} (h : runInstrs is s = .next t) (js : List Instr) :
    runInstrs (is ++ js) s = runInstrs js t := by
  rw [runInstrs_append, h]

end Sys2Proof.Machine
end

