-- ==== Sys2Proof/Laws/Interrupts.lean ====
section
/-! SUPPORT. What the interrupt controller can do (41_interrupt_controller.md): raising, the priority encoder, dispatch
and return. -/

namespace Sys2Proof.Machine

/-! ## Raising -/

/-- Raising a known vector changes that vector only, from Idle to Pending (R160, R162). -/
theorem raiseVector_eq (v : IrqVector) (s : State) :
    raiseVector v s = { s with ic := if s.ic.vec v = .idle then s.ic.setVec v .pending else s.ic } := by
  unfold raiseVector
  split <;> rfl

theorem raiseVector_vec (v u : IrqVector) (s : State) :
    (raiseVector v s).ic.vec u = if u = v ∧ s.ic.vec v = .idle then .pending else s.ic.vec u := by
  rw [raiseVector_eq]
  by_cases h : s.ic.vec v = .idle
  · simp only [h, if_true, and_true, IcState.vec_setVec]
  · simp [h]

@[simp] theorem raiseVector_gie (v : IrqVector) (s : State) : (raiseVector v s).ic.gie = s.ic.gie := by
  rw [raiseVector_eq]
  dsimp only
  split <;> simp

/-! ## The derived sets of R40 -/

theorem IcState.mem_pendingVectors {ic : IcState} {v : IrqVector} : v ∈ ic.pendingVectors ↔ ic.vec v = .pending := by
  simp [IcState.pendingVectors, IrqVector.mem_all]

theorem IcState.inService_eq_none {ic : IcState} : ic.inService = none ↔ ∀ v, ic.vec v ≠ .inService := by
  simp [IcState.inService, List.find?_eq_none, IrqVector.mem_all]

theorem IcState.inService_some {ic : IcState} {u : IrqVector} (h : ic.inService = some u) : ic.vec u = .inService := by
  have := List.find?_some h
  simpa using this

/-- With at most one vector in service, the one found is the one in service. -/
theorem IcState.inService_eq_some {ic : IcState} (ha : AtMostOneInService ic) {u : IrqVector} :
    ic.inService = some u ↔ ic.vec u = .inService := by
  constructor
  · exact IcState.inService_some
  · intro hu
    cases hw : ic.inService with
    | none => exact absurd hu (IcState.inService_eq_none.mp hw u)
    | some w => rw [ha w u (IcState.inService_some hw) hu]

/-! ## The priority encoder (R169) -/

variable {cf : Config}

theorem higherPriority_some (b v : IrqVector) :
    ∃ w, higherPriority cf (some b) v = some w ∧ (w = b ∨ w = v) ∧
      (vectorRow cf w).priority ≤ (vectorRow cf b).priority ∧
      (vectorRow cf w).priority ≤ (vectorRow cf v).priority := by
  simp only [higherPriority]
  split
  · exact ⟨v, rfl, Or.inr rfl, by omega, by omega⟩
  · exact ⟨b, rfl, Or.inl rfl, by omega, by omega⟩

theorem highest_fold (P : List IrqVector) (b : IrqVector) :
    ∃ w, P.foldl (higherPriority cf) (some b) = some w ∧ (w = b ∨ w ∈ P) ∧
      (vectorRow cf w).priority ≤ (vectorRow cf b).priority ∧
      ∀ v ∈ P, (vectorRow cf w).priority ≤ (vectorRow cf v).priority := by
  induction P generalizing b with
  | nil => exact ⟨b, rfl, Or.inl rfl, le_refl _, by simp⟩
  | cons v P ih =>
    obtain ⟨c, hc, hcm, hcb, hcv⟩ := higherPriority_some (cf := cf) b v
    obtain ⟨w, hw, hwm, hwc, hwP⟩ := ih c
    refine ⟨w, by rw [List.foldl_cons, hc, hw], ?_, by omega, ?_⟩
    · rcases hwm with rfl | hm
      · rcases hcm with rfl | rfl
        · exact Or.inl rfl
        · exact Or.inr List.mem_cons_self
      · exact Or.inr (List.mem_cons_of_mem _ hm)
    · intro u hu
      rcases List.mem_cons.mp hu with rfl | hu
      · omega
      · exact hwP u hu

/-- The encoder answers a member of the set with the least priority number; none only for the empty set. -/
theorem highest_spec (P : List IrqVector) :
    (P = [] ∧ highest cf P = none) ∨
      ∃ w, highest cf P = some w ∧ w ∈ P ∧ ∀ v ∈ P, (vectorRow cf w).priority ≤ (vectorRow cf v).priority := by
  cases P with
  | nil => exact Or.inl ⟨rfl, rfl⟩
  | cons v P =>
    obtain ⟨w, hw, hm, hv, hP⟩ := highest_fold P v
    refine Or.inr ⟨w, hw, ?_, ?_⟩
    · rcases hm with rfl | hm
      · exact List.mem_cons_self
      · exact List.mem_cons_of_mem _ hm
    · intro u hu
      rcases List.mem_cons.mp hu with rfl | hu
      · exact hv
      · exact hP u hu

/-! ## Dispatch and return -/

/-- All that DISPATCH may do (R164): nothing, or the entry of the pending vector with the least priority number. -/
theorem dispatchPending_cases (s : State) :
    (dispatchPending s = s ∧
      (s.ic.gie = false ∨ (∃ u, s.ic.vec u = .inService) ∨ ∀ v, s.ic.vec v ≠ .pending)) ∨
    (s.ic.gie = true ∧ (∀ u, s.ic.vec u ≠ .inService) ∧
      ∃ w, s.ic.vec w = .pending ∧
        (∀ v, s.ic.vec v = .pending → (vectorRow s.cfg w).priority ≤ (vectorRow s.cfg v).priority) ∧
        dispatchPending s = takeInterrupt w s) := by
  unfold dispatchPending
  cases hg : s.ic.gie with
  | false => exact Or.inl ⟨by simp, Or.inl rfl⟩
  | true =>
    cases hi : s.ic.inService with
    | some u => exact Or.inl ⟨by simp, Or.inr (Or.inl ⟨u, IcState.inService_some hi⟩)⟩
    | none =>
      rcases highest_spec (cf := s.cfg) s.ic.pendingVectors with ⟨he, hn⟩ | ⟨w, hw, hm, hP⟩
      · refine Or.inl ⟨by simp [hn], Or.inr (Or.inr ?_)⟩
        intro v hv
        have := IcState.mem_pendingVectors.mpr hv
        simp [he] at this
      · refine Or.inr ⟨rfl, IcState.inService_eq_none.mp hi, w, IcState.mem_pendingVectors.mp hm, ?_, by simp [hw]⟩
        exact fun v hv => hP v (IcState.mem_pendingVectors.mpr hv)

@[simp] theorem takeInterrupt_cfg (v : IrqVector) (s : State) : (takeInterrupt v s).cfg = s.cfg := rfl
@[simp] theorem takeInterrupt_t0 (v : IrqVector) (s : State) : (takeInterrupt v s).t0 = s.t0 := rfl
@[simp] theorem takeInterrupt_t1 (v : IrqVector) (s : State) : (takeInterrupt v s).t1 = s.t1 := rfl
@[simp] theorem takeInterrupt_ic (v : IrqVector) (s : State) :
    (takeInterrupt v s).ic = s.ic.setVec v .inService := rfl
@[simp] theorem takeInterrupt_mem (v : IrqVector) (s : State) :
    (takeInterrupt v s).mem = s.mem.clearBit (flagReg s.cfg (vectorTimer v)) (vectorRow s.cfg v).flagBit := rfl
@[simp] theorem takeInterrupt_snap (v : IrqVector) (s : State) : (takeInterrupt v s).snap = s.snap := rfl
@[simp] theorem takeInterrupt_time (v : IrqVector) (s : State) : (takeInterrupt v s).time = s.time := rfl
@[simp] theorem takeInterrupt_devs (v : IrqVector) (s : State) : (takeInterrupt v s).devs = s.devs := rfl
@[simp] theorem takeInterrupt_stream (v : IrqVector) (s : State) : (takeInterrupt v s).stream = s.stream := rfl
@[simp] theorem takeInterrupt_pos (v : IrqVector) (s : State) : (takeInterrupt v s).pos = s.pos := rfl
@[simp] theorem takeInterrupt_out (v : IrqVector) (s : State) :
    (takeInterrupt v s).out =
      s.out ++ [.dispatch (vectorRow s.cfg v).id (vectorRow s.cfg v).handlerAddress] := rfl

/-- All that RETI may do (R167). -/
theorem returnFromInterrupt_cases (s : State) :
    (returnFromInterrupt s = s ∧ ∀ v, s.ic.vec v ≠ .inService) ∨
      ∃ u, s.ic.vec u = .inService ∧ returnFromInterrupt s = { s with ic := s.ic.setVec u .idle } := by
  unfold returnFromInterrupt
  cases hi : s.ic.inService with
  | none => exact Or.inl ⟨rfl, IcState.inService_eq_none.mp hi⟩
  | some u => exact Or.inr ⟨u, IcState.inService_some hi, rfl⟩

end Sys2Proof.Machine
end

