-- ==== Sys2Proof/Laws/Servo.lean ====
section
/-! SUPPORT. What the servo engine can do (44_servo_engine.md): the pulse decode writes targets and pulse records, the
motion update writes angles, and neither touches anything else (R81, R245, R247). -/

namespace Sys2Proof.Machine

/-- All that the servo engine may do to a state, with `R` saying what may happen to one servo. -/
structure ServoStep (R : ServoState → ServoState → Prop) (s t : State) : Prop where
  only : OnlyDevices s t
  grows : OutputGrows s t
  displays : ∀ k, t.display? k = s.display? k
  servos : ∀ k V, s.servo? k = some V → ∃ V', t.servo? k = some V' ∧ R V V'
  absent : ∀ k, s.servo? k = none → t.servo? k = none

theorem DecodeChange.refl (V : ServoState) : DecodeChange V V := rfl

theorem DecodeChange.trans {V W X : ServoState} (h : DecodeChange V W) (k : DecodeChange W X) : DecodeChange V X := by
  unfold DecodeChange at *
  rw [k, h]

theorem MotionChange.refl (V : ServoState) : MotionChange V V := rfl

theorem MotionChange.trans {V W X : ServoState} (h : MotionChange V W) (k : MotionChange W X) : MotionChange V X := by
  unfold MotionChange at *
  rw [k, h]

theorem ServoStep.refl {R : ServoState → ServoState → Prop} (hr : ∀ V, R V V) (s : State) : ServoStep R s s :=
  ⟨.refl s, .refl s, fun _ => rfl, fun _ V h => ⟨V, h, hr V⟩, fun _ h => h⟩

theorem ServoStep.trans {R : ServoState → ServoState → Prop} (ht : ∀ V W X, R V W → R W X → R V X) {s t u : State}
    (h : ServoStep R s t) (k : ServoStep R t u) : ServoStep R s u := by
  refine ⟨h.only.trans k.only, h.grows.trans k.grows, fun j => (k.displays j).trans (h.displays j), ?_,
    fun j hj => k.absent j (h.absent j hj)⟩
  intro j V hV
  obtain ⟨W, hW, hVW⟩ := h.servos j V hV
  obtain ⟨X, hX, hWX⟩ := k.servos j W hW
  exact ⟨X, hX, ht _ _ _ hVW hWX⟩

theorem ServoStep.emit {R : ServoState → ServoState → Prop} (hr : ∀ V, R V V) (s : State) (e : Event) :
    ServoStep R s (s.emit e) :=
  ⟨.emit s e, .emit s e, fun _ => rfl, fun _ V h => ⟨V, h, hr V⟩, fun _ h => h⟩

theorem ServoStep.setServo {R : ServoState → ServoState → Prop} (hr : ∀ V, R V V) {s : State} {h : Nat} {V : ServoState}
    (hV : s.servo? h = some V) {V' : ServoState} (hc : R V V') : ServoStep R s (s.setDevice h (.servo V')) := by
  refine ⟨.setDevice s h _, .of_eq rfl, State.display?_setServo hV V', ?_, ?_⟩
  · intro k W hW
    rw [State.servo?_setServo hV]
    by_cases hk : k = h
    · subst hk
      rw [hV, Option.some.injEq] at hW
      subst hW
      exact ⟨V', by simp, hc⟩
    · exact ⟨W, by simp [hk, hW], hr W⟩
  · intro k hk
    rw [State.servo?_setServo hV, if_neg]
    · exact hk
    · intro e
      rw [e, hV] at hk
      exact absurd hk (by simp)

/-! ## Pulse decode -/

/-- A state change that first warns and then writes one servo. -/
theorem ServoStep.warnSet {R : ServoState → ServoState → Prop} (hr : ∀ V, R V V) (ht : ∀ V W X, R V W → R W X → R V X)
    {s : State} {h : Nat} {V : ServoState} (hV : s.servo? h = some V) (w : Warning) {V' : ServoState} (hc : R V V') :
    ServoStep R s ((s.warn w).setDevice h (.servo V')) :=
  ServoStep.trans ht (ServoStep.emit hr s (.warning w)) (ServoStep.setServo (s := s.warn w) hr hV hc)

theorem decodePulse_step {s : State} {h : Nat} {V : ServoState} (hV : s.servo? h = some V) (ch : ServoChannel) :
    ServoStep DecodeChange s (decodePulse h V ch s) := by
  have ht := fun V W X => @DecodeChange.trans V W X
  simp only [decodePulse, rejectNoTop, acceptPulse]
  split
  · exact .warnSet .refl ht hV _ rfl
  · split
    · exact .warnSet .refl ht hV _ rfl
    · split
      · exact .setServo .refl hV rfl
      · exact .warnSet .refl ht hV _ rfl

theorem decodeServo_step (h : Nat) (s : State) : ServoStep DecodeChange s (decodeServo h s) := by
  unfold decodeServo
  split
  · exact .refl .refl s
  · rename_i V hV
    split
    · exact .refl .refl s
    · exact decodePulse_step hV _

/-- A decode of one servo leaves the devices of the other handles alone. -/
theorem decodeServo_other (s : State) (h k : Nat) (hk : k ≠ h) : (decodeServo h s).device? k = s.device? k := by
  unfold decodeServo
  split
  · rfl
  · split
    · rfl
    · simp only [decodePulse, rejectNoTop, acceptPulse]
      split_ifs <;> simp [State.device?_setDevice_other _ _ hk]

theorem regChange_step (a : Nat) (s : State) : ServoStep DecodeChange s (regChange a s) :=
  foldl_relates (ServoStep DecodeChange) (.refl .refl) (fun _ _ _ => .trans fun _ _ _ => .trans) _
    (fun s h => decodeServo_step h s) _ s

/-! ## Motion -/

theorem motionServo_step (now h : Nat) (s : State) : ServoStep MotionChange s (motionServo now h s) := by
  have ht := fun V W X => @MotionChange.trans V W X
  unfold motionServo
  split
  · exact .refl .refl s
  · rename_i V hV
    have hset : ServoStep MotionChange s (s.setDevice h (.servo (motionUpdate s.cfg now V))) := .setServo .refl hV rfl
    dsimp only
    split
    · exact ServoStep.trans ht hset (.emit .refl _ _)
    · exact hset

/-- The update of one servo leaves the devices of the other handles alone. -/
theorem motionServo_other (now : Nat) (s : State) (h k : Nat) (hk : k ≠ h) :
    (motionServo now h s).device? k = s.device? k := by
  unfold motionServo
  split
  · rfl
  · dsimp only
    split <;> simp [State.device?_setDevice_other _ _ hk]

theorem motion_step (s : State) : ServoStep MotionChange s (motion s) :=
  foldl_relates (ServoStep MotionChange) (.refl .refl) (fun _ _ _ => .trans fun _ _ _ => .trans) _
    (fun s' h => motionServo_step s.nowMicros h s') _ s

/-! ## Angles -/

theorem clampTo_range {x lo hi : ℚ} (h : lo ≤ hi) : lo ≤ clampTo x lo hi ∧ clampTo x lo hi ≤ hi :=
  ⟨le_min (le_max_right x lo) h, min_le_right _ _⟩

theorem clampTo_of_mem {x lo hi : ℚ} (h1 : lo ≤ x) (h2 : x ≤ hi) : clampTo x lo hi = x := by
  simp [clampTo, h1, h2]

theorem angleOf_range (c : Config) (pw : Nat) : 0 ≤ angleOf c pw ∧ angleOf c pw ≤ 180 := clampTo_range (by norm_num)

theorem movedAngle_range (V : ServoState) (elapsed : Nat) :
    0 ≤ movedAngle V elapsed ∧ movedAngle V elapsed ≤ 180 := clampTo_range (by norm_num)

theorem thousandths_nonneg (m : Nat) : 0 ≤ thousandths m := by
  unfold thousandths
  positivity

end Sys2Proof.Machine
end

