-- ==== Sys2Proof/Laws/Observer.lean ====
section
/-! SUPPORT. What the observer bridge can do (42_observer_bridge.md): events, deliveries to the two device engines, and
the snapshot. -/

namespace Sys2Proof.Machine

/-- All that delivering events may do to a state (R186, R187): device records and output only. -/
structure Delivery (s t : State) : Prop where
  only : OnlyDevices s t
  grows : OutputGrows s t
  displays : ∀ k D, s.display? k = some D → ∃ D', t.display? k = some D' ∧ SameDisplayConfig D D'
  servos : ∀ k V, s.servo? k = some V → ∃ V', t.servo? k = some V' ∧ DecodeChange V V'

theorem Delivery.refl (s : State) : Delivery s s :=
  ⟨.refl s, .refl s, fun _ D h => ⟨D, h, .refl D⟩, fun _ V h => ⟨V, h, .refl V⟩⟩

theorem Delivery.trans {s t u : State} (h : Delivery s t) (k : Delivery t u) : Delivery s u := by
  refine ⟨h.only.trans k.only, h.grows.trans k.grows, ?_, ?_⟩
  · intro j D hD
    obtain ⟨E, hE, hDE⟩ := h.displays j D hD
    obtain ⟨F, hF, hEF⟩ := k.displays j E hE
    exact ⟨F, hF, hDE.trans hEF⟩
  · intro j V hV
    obtain ⟨W, hW, hVW⟩ := h.servos j V hV
    obtain ⟨X, hX, hWX⟩ := k.servos j W hW
    exact ⟨X, hX, hVW.trans hWX⟩

theorem DisplayStep.delivery {s t : State} (h : DisplayStep s t) : Delivery s t :=
  ⟨h.only, h.grows, h.displays, fun k V hV => ⟨V, (h.servos k).trans hV, .refl V⟩⟩

theorem ServoStep.delivery {s t : State} (h : ServoStep DecodeChange s t) : Delivery s t :=
  ⟨h.only, h.grows, fun k D hD => ⟨D, (h.displays k).trans hD, .refl D⟩, h.servos⟩

theorem observeBit_delivery (ts addr : Nat) (old new : Byte) (s : State) (i : Nat) :
    Delivery s (observeBit ts addr old new s i) := by
  unfold observeBit
  split
  · exact .refl s
  · split
    · exact .refl s
    · exact ((DisplayStep.emit s _).trans (pinChange_step _ _ _)).delivery

theorem observeValue_delivery (addr old new : Nat) (s : State) : Delivery s (observeValue addr old new s) := by
  unfold observeValue
  split
  · exact .refl s
  · exact (DisplayStep.emit s _).delivery.trans (regChange_step _ _).delivery

/-- One observed register: a delivery, then the refresh of its snapshot bytes (R180). -/
theorem observeReg_cases (ts : Nat) (s : State) (r : ObservedReg) :
    ∃ t, Delivery s t ∧ observeReg ts s r = refreshSnapshot (observedBytes s.cfg r) t := by
  simp only [observeReg]
  split
  · exact ⟨_, foldl_relates Delivery .refl (fun _ _ _ => .trans) _ (observeBit_delivery _ _ _ _) _ s, rfl⟩
  · split <;> exact ⟨_, observeValue_delivery _ _ _ s, rfl⟩

/-- All that observing a list of registers may do: everything but the snapshot as in a delivery. -/
structure Observation (regs : List ObservedReg) (s t : State) : Prop where
  cfg : t.cfg = s.cfg
  mem : t.mem = s.mem
  t0 : t.t0 = s.t0
  t1 : t.t1 = s.t1
  ic : t.ic = s.ic
  time : t.time = s.time
  stream : t.stream = s.stream
  pos : t.pos = s.pos
  nextHandle : t.devs.nextHandle = s.devs.nextHandle
  handles : t.devs.entries.map Prod.fst = s.devs.entries.map Prod.fst
  grows : OutputGrows s t
  displays : ∀ k D, s.display? k = some D → ∃ D', t.display? k = some D' ∧ SameDisplayConfig D D'
  servos : ∀ k V, s.servo? k = some V → ∃ V', t.servo? k = some V' ∧ DecodeChange V V'
  snap : t.snap = s.mem.copyAt (regs.flatMap (observedBytes s.cfg)) s.snap

theorem Memory.copyAt_append (src : Memory) (as bs : List Nat) (dst : Memory) :
    src.copyAt (as ++ bs) dst = src.copyAt bs (src.copyAt as dst) := List.foldl_append

theorem observeList_observation (ts : Nat) (regs : List ObservedReg) (s : State) :
    Observation regs s (regs.foldl (observeReg ts) s) := by
  induction regs generalizing s with
  | nil =>
    exact ⟨rfl, rfl, rfl, rfl, rfl, rfl, rfl, rfl, rfl, rfl, .refl s, fun _ D h => ⟨D, h, .refl D⟩,
      fun _ V h => ⟨V, h, .refl V⟩, rfl⟩
  | cons r rs ih =>
    obtain ⟨t, ht, he⟩ := observeReg_cases ts s r
    have k := ih (refreshSnapshot (observedBytes s.cfg r) t)
    rw [List.foldl_cons, he]
    refine ⟨k.cfg.trans ht.only.cfg, k.mem.trans ht.only.mem, k.t0.trans ht.only.t0, k.t1.trans ht.only.t1,
      k.ic.trans ht.only.ic,
      k.time.trans ht.only.time, k.stream.trans ht.only.stream, k.pos.trans ht.only.pos,
      k.nextHandle.trans ht.only.nextHandle, k.handles.trans ht.only.handles,
      ht.grows.trans (OutputGrows.trans (.of_eq rfl) k.grows), ?_, ?_, ?_⟩
    · intro j D hD
      obtain ⟨E, hE, hDE⟩ := ht.displays j D hD
      obtain ⟨F, hF, hEF⟩ := k.displays j E hE
      exact ⟨F, hF, hDE.trans hEF⟩
    · intro j V hV
      obtain ⟨W, hW, hVW⟩ := ht.servos j V hV
      obtain ⟨X, hX, hWX⟩ := k.servos j W hW
      exact ⟨X, hX, hVW.trans hWX⟩
    · have hs : (refreshSnapshot (observedBytes s.cfg r) t).snap = s.mem.copyAt (observedBytes s.cfg r) s.snap := by
        simp only [refreshSnapshot, ht.only.mem, ht.only.snap]
      rw [k.snap, hs, List.flatMap_cons, Memory.copyAt_append]
      simp only [refreshSnapshot, ht.only.mem, ht.only.cfg]

/-- All that OBSERVE may do (R180, R182, R186). -/
theorem observe_observation (s : State) : Observation s.cfg.observedRegs s (observe s) :=
  observeList_observation s.nowMicros s.cfg.observedRegs s

end Sys2Proof.Machine
end

