-- ==== Sys2Proof/Laws/PerInstr.lean ====
section
/-! SUPPORT. Laws per instruction: the encoding of a well-formed instruction has the length that spec/opcode_table.json
gives its row (R101, R102, R108). -/

namespace Sys2Proof.Laws

/-- The length of an instruction's encoding in bytes: the length column of R102, one byte for a display byte (R108). -/
def EncodeLength.tableLength : Instr → Nat
  | .step _ | .timetick _ => 5
  | .memwrite _ _ => 4
  | .tick _ _ => 6
  | .raise _ | .setgie _ => 2
  | .pinchange _ _ _ | .regchange _ _ _ => 7
  | .regdisplay _ _ d _ _ _ => 7 + d.length
  | .regservo _ _ _ _ _ _ _ _ => 30
  | .unreg _ => 3
  | .setload _ _ _ => 11
  | .reset | .motion | .dispatch | .reti | .observe | .nowus | .nowms => 1
  | .lcdUnknown _ | .lcdClear _ | .lcdHome _ _ | .lcdEntryModeSet _ _ _ | .lcdDisplayControl _ _ _ _
  | .lcdCursorDisplayShift _ _ _ _ | .lcdFunctionSet _ _ _ _ _ | .lcdSetCgramAddress _ _
  | .lcdSetDdramAddress _ _ | .lcdWriteData _ _ => 1

/-- The encoding has the table's length. -/
def EncodeLength.Statement (i : Instr) : Prop :=
  ∀ c : Config, i.WellFormed c → (encode i).length = EncodeLength.tableLength i

theorem EncodeLength.reset : EncodeLength.Statement .reset := fun _ _ => rfl

theorem EncodeLength.step (n : Nat) : EncodeLength.Statement (.step n) := fun _ _ => rfl

theorem EncodeLength.memwrite (a : Nat) (v : Byte) : EncodeLength.Statement (.memwrite a v) := fun _ _ => rfl

theorem EncodeLength.motion : EncodeLength.Statement .motion := fun _ _ => rfl

theorem EncodeLength.tick (t : TimerId) (n : Nat) : EncodeLength.Statement (.tick t n) := fun _ _ => rfl

theorem EncodeLength.raise (v : Nat) : EncodeLength.Statement (.raise v) := fun _ _ => rfl

theorem EncodeLength.setgie (b : Bool) : EncodeLength.Statement (.setgie b) := fun _ _ => rfl

theorem EncodeLength.dispatch : EncodeLength.Statement .dispatch := fun _ _ => rfl

theorem EncodeLength.reti : EncodeLength.Statement .reti := fun _ _ => rfl

theorem EncodeLength.observe : EncodeLength.Statement .observe := fun _ _ => rfl

theorem EncodeLength.pinchange (pin : Nat) (level : Bool) (ts : Nat) :
    EncodeLength.Statement (.pinchange pin level ts) := fun _ _ => rfl

theorem EncodeLength.regchange (a old new : Nat) : EncodeLength.Statement (.regchange a old new) := fun _ _ => rfl

theorem EncodeLength.regdisplay (rs en : Nat) (d : List Nat) (rows cols : Nat) (mode : Addressing) :
    EncodeLength.Statement (.regdisplay rs en d rows cols mode) := by
  intro _ _
  simp only [encode, leBytes, EncodeLength.tableLength, List.length_cons, List.length_append, List.length_map,
    List.length_nil]
  omega

theorem EncodeLength.regservo (pin speed deadband maxTorque load arm period initAngle : Nat) :
    EncodeLength.Statement (.regservo pin speed deadband maxTorque load arm period initAngle) := fun _ _ => rfl

theorem EncodeLength.unreg (h : Nat) : EncodeLength.Statement (.unreg h) := fun _ _ => rfl

theorem EncodeLength.setload (h load arm : Nat) : EncodeLength.Statement (.setload h load arm) := fun _ _ => rfl

theorem EncodeLength.timetick (n : Nat) : EncodeLength.Statement (.timetick n) := fun _ _ => rfl

theorem EncodeLength.nowus : EncodeLength.Statement .nowus := fun _ _ => rfl

theorem EncodeLength.nowms : EncodeLength.Statement .nowms := fun _ _ => rfl

theorem EncodeLength.lcdUnknown (h : Nat) : EncodeLength.Statement (.lcdUnknown h) := fun _ _ => rfl

theorem EncodeLength.lcdClear (h : Nat) : EncodeLength.Statement (.lcdClear h) := fun _ _ => rfl

theorem EncodeLength.lcdHome (h : Nat) (x : Bool) : EncodeLength.Statement (.lcdHome h x) := fun _ _ => rfl

theorem EncodeLength.lcdEntryModeSet (h : Nat) (id s : Bool) :
    EncodeLength.Statement (.lcdEntryModeSet h id s) := fun _ _ => rfl

theorem EncodeLength.lcdDisplayControl (h : Nat) (d c b : Bool) :
    EncodeLength.Statement (.lcdDisplayControl h d c b) := fun _ _ => rfl

theorem EncodeLength.lcdCursorDisplayShift (h : Nat) (sc rl : Bool) (x : BitVec 2) :
    EncodeLength.Statement (.lcdCursorDisplayShift h sc rl x) := fun _ _ => rfl

theorem EncodeLength.lcdFunctionSet (h : Nat) (dl n f : Bool) (x : BitVec 2) :
    EncodeLength.Statement (.lcdFunctionSet h dl n f x) := fun _ _ => rfl

theorem EncodeLength.lcdSetCgramAddress (h : Nat) (address : BitVec 6) :
    EncodeLength.Statement (.lcdSetCgramAddress h address) := fun _ _ => rfl

theorem EncodeLength.lcdSetDdramAddress (h : Nat) (address : BitVec 7) :
    EncodeLength.Statement (.lcdSetDdramAddress h address) := fun _ _ => rfl

theorem EncodeLength.lcdWriteData (h : Nat) (char : Byte) :
    EncodeLength.Statement (.lcdWriteData h char) := fun _ _ => rfl

end Sys2Proof.Laws
end

