-- ==== Sys2Proof/Laws/Timers.lean ====
section
/-! SUPPORT. What a timer can do (40_timers.md): the effect of an event's signal, of a batch and of a tick. -/

namespace Sys2Proof.Machine

/-! ## Signalling an event (R135) -/

@[simp] theorem signalEvent_mem (t : TimerId) (e : TimerEvent) (s : State) :
    (signalEvent t e s).mem = s.mem.setBit (flagReg s.cfg t) (flagBit s.cfg t e) := by
  simp only [signalEvent]
  split
  · rw [raiseVector_eq]
  · rfl

theorem signalEvent_ic (t : TimerId) (e : TimerEvent) (s : State) :
    (signalEvent t e s).ic =
      if (s.mem.setBit (flagReg s.cfg t) (flagBit s.cfg t e)).bit (maskReg s.cfg t) (maskBit s.cfg t e) ∧
          s.ic.vec (eventVector t e) = .idle then s.ic.setVec (eventVector t e) .pending
      else s.ic := by
  simp only [signalEvent]
  split
  · rename_i h
    rw [raiseVector_eq]
    simp [h]
  · rename_i h
    simp [h]

/-- An event's signal keeps everything but the flag register and the vectors. -/
theorem signalEvent_frame (t : TimerId) (e : TimerEvent) (s : State) :
    (signalEvent t e s).cfg = s.cfg ∧ (signalEvent t e s).t0 = s.t0 ∧ (signalEvent t e s).t1 = s.t1 ∧
      (signalEvent t e s).snap = s.snap ∧ (signalEvent t e s).time = s.time ∧ (signalEvent t e s).devs = s.devs ∧
      (signalEvent t e s).stream = s.stream ∧ (signalEvent t e s).pos = s.pos ∧ (signalEvent t e s).out = s.out := by
  simp only [signalEvent]
  split
  · rw [raiseVector_eq]
    exact ⟨rfl, rfl, rfl, rfl, rfl, rfl, rfl, rfl, rfl⟩
  · exact ⟨rfl, rfl, rfl, rfl, rfl, rfl, rfl, rfl, rfl⟩

theorem flagReg_mem_timerWrites (c : Config) (t : TimerId) : flagReg c t ∈ timerWrites c t := by
  cases t <;> simp [flagReg, timerWrites]

theorem Config.Facts.maskReg_ne_flagReg {c : Config} (h : c.Facts) (t u : TimerId) : maskReg c t ≠ flagReg c u :=
  fun e => h.maskReg_apart t u (e ▸ flagReg_mem_timerWrites c u)

/-- A flag register's write leaves the mask bits. -/
theorem bit_mask_setBit {c : Config} (h : c.Facts) (m : Memory) (t u : TimerId) (i j : Nat) :
    (m.setBit (flagReg c t) i).bit (maskReg c u) j = m.bit (maskReg c u) j := by
  simp only [Memory.bit, Memory.setBit]
  rw [Memory.read_write_other m _ (Config.Facts.maskReg_ne_flagReg h u t)]

/-- With registers apart, the vectors after an event's signal: the event's vector goes from Idle to Pending if it is
enabled (R135, R162). -/
theorem signalEvent_vec {s : State} (hc : s.cfg.Facts) (t : TimerId) (e : TimerEvent) (u : IrqVector) :
    (signalEvent t e s).ic.vec u =
      if u = eventVector t e ∧ s.mem.bit (maskReg s.cfg t) (maskBit s.cfg t e) = true ∧
      s.ic.vec (eventVector t e) = .idle
      then .pending else s.ic.vec u := by
  rw [signalEvent_ic, bit_mask_setBit hc]
  by_cases h : s.mem.bit (maskReg s.cfg t) (maskBit s.cfg t e) = true ∧ s.ic.vec (eventVector t e) = .idle
  · rw [if_pos h, IcState.vec_setVec]
    by_cases hu : u = eventVector t e <;> simp [hu, h]
  · rw [if_neg h, if_neg (fun k => h k.2)]

@[simp] theorem signalEvent_gie (t : TimerId) (e : TimerEvent) (s : State) :
    (signalEvent t e s).ic.gie = s.ic.gie := by
  rw [signalEvent_ic]
  split <;> simp

/-! ## What a tick may do (R140, R145) -/

/-- All that a tick of timer `t` may do outside the values it computes (R145). -/
structure TimerStep (t : TimerId) (s u : State) : Prop where
  cfg : u.cfg = s.cfg
  other : ∀ x, x ≠ t → u.timer x = s.timer x
  snap : u.snap = s.snap
  time : u.time = s.time
  devs : u.devs = s.devs
  stream : u.stream = s.stream
  pos : u.pos = s.pos
  gie : u.ic.gie = s.ic.gie
  mem : ∀ a, a ∉ timerWrites s.cfg t → u.mem.read a = s.mem.read a
  vecs : ∀ v, u.ic.vec v = s.ic.vec v ∨
    (vectorTimer v = t ∧ s.ic.vec v = .idle ∧ u.ic.vec v = .pending)
  wf : s.mem.wf = true → u.mem.wf = true
  within : s.cfg.Facts → s.mem.within s.cfg.regMemSize = true → u.mem.within s.cfg.regMemSize = true
  grows : OutputGrows s u
  quiet : ∀ e ∈ u.out.drop s.out.length, ∃ m cs, e = .warning (.timerUnsupported t m cs)

theorem TimerStep.refl (t : TimerId) (s : State) : TimerStep t s s :=
  ⟨rfl, fun _ _ => rfl, rfl, rfl, rfl, rfl, rfl, rfl, fun _ _ => rfl, fun _ => Or.inl rfl, id, fun _ => id, .refl s,
    by simp⟩

/-- Two ticks' effects one after the other, the second without output. -/
theorem TimerStep.trans_quiet {t : TimerId} {s u w : State} (h : TimerStep t s u) (k : TimerStep t u w)
    (hq : w.out = u.out) : TimerStep t s w := by
  refine ⟨k.cfg.trans h.cfg, fun x hx => (k.other x hx).trans (h.other x hx), k.snap.trans h.snap, k.time.trans h.time,
    k.devs.trans h.devs, k.stream.trans h.stream, k.pos.trans h.pos, k.gie.trans h.gie,
    fun a ha => (k.mem a (h.cfg ▸ ha)).trans (h.mem a ha), ?_, fun hs => k.wf (h.wf hs), ?_,
    h.grows.trans k.grows, by rw [hq]; exact h.quiet⟩
  · intro v
    rcases k.vecs v with hk | ⟨hk1, hk2, hk3⟩
    · rcases h.vecs v with hh | ⟨h1, h2, h3⟩
      · exact Or.inl (hk.trans hh)
      · exact Or.inr ⟨h1, h2, by rw [hk, h3]⟩
    · rcases h.vecs v with hh | ⟨h1, h2, h3⟩
      · exact Or.inr ⟨hk1, by rw [← hh, hk2], hk3⟩
      · rw [h3] at hk2
        exact absurd hk2 (by simp)
  · intro hc hs
    have := k.within (h.cfg ▸ hc) (h.cfg ▸ h.within hc hs)
    rwa [h.cfg] at this

/-- A write of the timer's own record. -/
theorem TimerStep.setTimer (t : TimerId) (s : State) (T : TimerState) : TimerStep t s (s.setTimer t T) :=
  ⟨by simp, fun _ hx => State.timer_setTimer_other s T hx, by simp, by simp, by simp, by simp, by simp, by simp,
    fun _ _ => by simp, fun _ => Or.inl (by simp), by simp, fun _ => by simp, .of_eq (by simp), by simp⟩

/-- A write of the timer's registers. -/
theorem TimerStep.setMem (t : TimerId) (s : State) {m : Memory}
    (hm : ∀ a, a ∉ timerWrites s.cfg t → m.read a = s.mem.read a)
    (hw : s.mem.wf = true → m.wf = true)
    (hi : s.cfg.Facts → s.mem.within s.cfg.regMemSize = true → m.within s.cfg.regMemSize = true) :
    TimerStep t s { s with mem := m } :=
  ⟨rfl, fun x _ => by cases x <;> rfl, rfl, rfl, rfl, rfl, rfl, rfl, hm, fun _ => Or.inl rfl, hw, hi, .of_eq rfl,
  by simp⟩

theorem vectorTimer_eventVector (t : TimerId) (e : TimerEvent) : vectorTimer (eventVector t e) = t := by
  cases t <;> cases e <;> rfl

theorem vectorEvent_eventVector (t : TimerId) (e : TimerEvent) : vectorEvent (eventVector t e) = e := by
  cases t <;> cases e <;> rfl

theorem eventVector_vector (v : IrqVector) : eventVector (vectorTimer v) (vectorEvent v) = v := by
  cases v <;> rfl

theorem eventVector_injective {t : TimerId} {e f : TimerEvent} (h : eventVector t e = eventVector t f) : e = f := by
  have := congrArg vectorEvent h
  simpa [vectorEvent_eventVector] using this

theorem signalEvent_step (t : TimerId) (e : TimerEvent) (s : State) : TimerStep t s (signalEvent t e s) := by
  obtain ⟨hcfg, h0, h1, hsnap, htime, hdevs, hstream, hpos, hout⟩ := signalEvent_frame t e s
  refine ⟨hcfg, fun x _ => State.timer_congr h0 h1 x, hsnap, htime, hdevs, hstream, hpos, signalEvent_gie t e s,
    ?_, ?_, ?_,
    ?_, .of_eq hout, by simp [hout]⟩
  · intro a ha
    rw [signalEvent_mem]
    exact Memory.read_write_other _ _ (fun hf => ha (by rw [hf]; exact flagReg_mem_timerWrites s.cfg t))
  · intro v
    rw [signalEvent_ic]
    split
    · rename_i h
      rw [IcState.vec_setVec]
      split
      · rename_i hv
        subst hv
        exact Or.inr ⟨vectorTimer_eventVector t e, h.2, rfl⟩
      · exact Or.inl rfl
    · exact Or.inl rfl
  · intro hw
    rw [signalEvent_mem]
    exact Memory.setBit_wf hw _ _
  · intro hc hw
    rw [signalEvent_mem]
    exact Memory.write_within hw _ (hc.timerWrites_inside t (flagReg_mem_timerWrites s.cfg t))

theorem signalIf_step (b : Bool) (t : TimerId) (e : TimerEvent) (s : State) : TimerStep t s (signalIf b t e s) := by
  cases b
  · exact .refl t s
  · exact signalEvent_step t e s

theorem signalIf_out (b : Bool) (t : TimerId) (e : TimerEvent) (s : State) : (signalIf b t e s).out = s.out := by
  cases b
  · rfl
  · exact (signalEvent_frame t e s).2.2.2.2.2.2.2.2

theorem signalIf_timer (b : Bool) (t : TimerId) (e : TimerEvent) (s : State) (x : TimerId) :
    (signalIf b t e s).timer x = s.timer x := by
  cases b
  · rfl
  · exact State.timer_congr (signalEvent_frame t e s).2.1 (signalEvent_frame t e s).2.2.1 x

/-! ## The counter's write-back -/

theorem writeCounter_other (c : Config) (t : TimerId) (m : Memory) (n : Nat) {a : Nat} (ha : a ∉ timerWrites c t) :
    (writeCounter c t m n).read a = m.read a := by
  cases t
  · simp only [timerWrites, List.mem_cons, List.not_mem_nil, not_or] at ha
    exact Memory.read_write_other m _ ha.1
  · simp only [timerWrites, List.mem_cons, List.not_mem_nil, not_or] at ha
    simp only [writeCounter, Memory.write16, counterReg]
    rw [Memory.read_write_other _ _ ha.2.1, Memory.read_write_other m _ ha.1]

theorem writeCounter_wf (c : Config) (t : TimerId) {m : Memory} (h : m.wf = true) (n : Nat) :
    (writeCounter c t m n).wf = true := by
  cases t
  · exact Memory.write_wf h _ _
  · exact Memory.write16_wf h _ _

theorem writeCounter_within {c : Config} (hc : c.Facts) (t : TimerId) {m : Memory} (h : m.within c.regMemSize = true)
    (n : Nat) : (writeCounter c t m n).within c.regMemSize = true := by
  have hi := fun a => hc.timerWrites_inside t (a := a)
  cases t
  · exact Memory.write_within h _ (hi _ (by simp [timerWrites, counterReg]))
  · exact Memory.write_within (Memory.write_within h _ (hi _ (by simp [timerWrites, counterReg]))) _
      (hi _ (by simp [timerWrites, counterReg]))

/-- The counter written is read back when it fits the timer's width (R131, R143). -/
theorem readCounter_writeCounter {c : Config} (hc : c.Facts) (t : TimerId) {m : Memory} (h : m.wf = true) {n : Nat}
    (hn : n < 2 ^ timerWidth c t) : readCounter c t (writeCounter c t m n) = n := by
  cases t
  · simp only [timerWidth, hc.t0Width] at hn
    simp only [readCounter, readTimerReg, writeCounter, Memory.read_write_same h, BitVec.toNat_ofNat]
    omega
  · simp only [timerWidth, hc.t1Width] at hn
    simp only [readCounter, readTimerReg, writeCounter]
    exact Memory.read16_write16 h _ (by omega)

/-! ## Batches and ticks -/

/-- The timer record that a batch leaves (R131, R134). -/
def batchTimer (t : TimerId) (k : Nat) (s : State) : TimerState :=
  let adv := advance (s.countKind t) (s.count t) k (s.top t) (s.timer t).countDown
  { s.timer t with
    counter := adv.counter, top := s.top t, compareA := s.compare t .a,
    compareB := s.compare t .b, overflowed := adv.overflow,
    matchA := adv.visited (s.compare t .a), matchB := adv.visited (s.compare t .b),
    countDown := adv.countDown }

/-- The state of a batch before its events are signalled (R131). -/
def batchWritten (t : TimerId) (k : Nat) (s : State) : State :=
  { s.setTimer t (batchTimer t k s) with
    mem := writeCounter s.cfg t s.mem (batchTimer t k s).counter }

/-- A batch is the write-back, then the signals of its events in the order of R136. -/
theorem tickBatch_eq (t : TimerId) (k : Nat) (s : State) :
    tickBatch t k s =
      signalIf (batchTimer t k s).overflowed t .overflow
        (signalIf (batchTimer t k s).matchB t .compB
          (signalIf (batchTimer t k s).matchA t .compA (batchWritten t k s))) := rfl

theorem batchWritten_step (t : TimerId) (k : Nat) (s : State) :
    TimerStep t s (batchWritten t k s) := by
  refine TimerStep.trans_quiet (.setTimer t s (batchTimer t k s))
    (.setMem t (s.setTimer t (batchTimer t k s)) ?_ ?_ ?_) rfl
  · intro a ha
    rw [State.setTimer_cfg] at ha
    rw [State.setTimer_mem]
    exact writeCounter_other s.cfg t s.mem _ ha
  · intro hw
    rw [State.setTimer_mem] at hw
    exact writeCounter_wf s.cfg t hw _
  · intro hc hw
    rw [State.setTimer_cfg, State.setTimer_mem] at hw
    rw [State.setTimer_cfg] at hc ⊢
    exact writeCounter_within hc t hw _

theorem batchWritten_out (t : TimerId) (k : Nat) (s : State) :
    (batchWritten t k s).out = s.out := by
  simp [batchWritten]

theorem tickBatch_step (t : TimerId) (k : Nat) (s : State) : TimerStep t s (tickBatch t k s) := by
  rw [tickBatch_eq]
  refine (TimerStep.trans_quiet ?_ (signalIf_step _ _ _ _) (signalIf_out _ _ _ _))
  refine (TimerStep.trans_quiet ?_ (signalIf_step _ _ _ _) (signalIf_out _ _ _ _))
  exact (TimerStep.trans_quiet (batchWritten_step t k s) (signalIf_step _ _ _ _) (signalIf_out _ _ _ _))

theorem tickBatch_out (t : TimerId) (k : Nat) (s : State) : (tickBatch t k s).out = s.out := by
  rw [tickBatch_eq, signalIf_out, signalIf_out, signalIf_out, batchWritten_out]

/-- The timer after a batch (R131, R134). -/
theorem tickBatch_timer (t : TimerId) (k : Nat) (s : State) :
    (tickBatch t k s).timer t = batchTimer t k s := by
  rw [tickBatch_eq, signalIf_timer, signalIf_timer, signalIf_timer]
  have : (batchWritten t k s).timer t = (s.setTimer t (batchTimer t k s)).timer t := by
    cases t <;> rfl
  rw [this, State.timer_setTimer_same]

theorem tickPrescaled_step (t : TimerId) (d n : Nat) (s : State) :
    TimerStep t s (tickPrescaled t d n s) := by
  simp only [tickPrescaled]
  split
  · exact .setTimer t s _
  · exact TimerStep.trans_quiet (.setTimer t s _) (tickBatch_step t _ _) (tickBatch_out t _ _)

theorem tickPrescaled_out (t : TimerId) (d n : Nat) (s : State) :
    (tickPrescaled t d n s).out = s.out := by
  simp only [tickPrescaled]
  split
  · simp
  · rw [tickBatch_out]
    simp

/-- The state after the live decode of a tick (R121). -/
def tickDecoded (t : TimerId) (s : State) : State :=
  s.setTimer t { s.timer t with prescaler := s.clock t }

/-- The four things a tick can do (R122, R123, R126, R128). -/
theorem tick_cases (t : TimerId) (n : Nat) (s : State) :
    (n = 0 ∧ tick t n s = s) ∨
    (n ≠ 0 ∧ s.clock t = .off ∧ tick t n s = tickDecoded t s) ∨
    (n ≠ 0 ∧ s.clock t ≠ .off ∧
      (s.clock t = .unsupported ∨ s.countKind t = .frozen) ∧
      tick t n s =
        (tickDecoded t s).warn (.timerUnsupported t (s.mode t) (clockSelect s.cfg t s.mem))) ∨
    (n ≠ 0 ∧ s.countKind t ≠ .frozen ∧
      ∃ d, (s.clock t).divisor? = some d ∧
        tick t n s = tickPrescaled t d n (tickDecoded t s)) := by
  by_cases hn : n = 0
  · exact Or.inl ⟨hn, by simp [tick, hn]⟩
  by_cases ho : s.clock t = .off
  · exact Or.inr (Or.inl ⟨hn, ho, by simp [tick, hn, ho, tickDecoded]⟩)
  by_cases hf : s.countKind t = .frozen
  · exact Or.inr (Or.inr (Or.inl ⟨hn, ho, Or.inr hf, by simp [tick, hn, ho, hf, tickDecoded]⟩))
  cases hd : (s.clock t).divisor? with
  | none =>
    refine Or.inr (Or.inr (Or.inl ⟨hn, ho, Or.inl ?_, by simp [tick, hn, ho, hf, hd, tickDecoded]⟩))
    cases hc : s.clock t <;> simp_all [Prescaler.divisor?]
  | some d =>
    exact Or.inr (Or.inr (Or.inr ⟨hn, hf, d, rfl, by simp [tick, hn, ho, hf, hd, tickDecoded]⟩))

/-- All that TICK may do outside the values it computes (R145). -/
theorem tick_step (t : TimerId) (n : Nat) (s : State) : TimerStep t s (tick t n s) := by
  rcases tick_cases t n s with ⟨_, h⟩ | ⟨_, _, h⟩ | ⟨_, _, _, h⟩ | ⟨_, _, d, _, h⟩ <;> rw [h]
  · exact .refl t s
  · exact .setTimer t s _
  · have k := TimerStep.setTimer t s { s.timer t with prescaler := s.clock t }
    exact ⟨k.cfg, k.other, k.snap, k.time, k.devs, k.stream, k.pos, k.gie, k.mem, k.vecs, k.wf, k.within,
      ⟨[_], by simp [tickDecoded]; rfl⟩, by simp [tickDecoded, State.warn]⟩
  · exact TimerStep.trans_quiet (.setTimer t s _) (tickPrescaled_step t d n _) (tickPrescaled_out t d n _)

end Sys2Proof.Machine
end

