-- ==== Sys2Proof/Laws/Ticks.lean ====
section
/-! SUPPORT. A TICK that counts (40_timers.md): what it is as a batch, the counter it leaves in register memory, the
ranges of counters and tops, and what a tick reads. -/

namespace Sys2Proof.Machine

/-! ## A tick in a running mode -/

/-- A TICK under a supported prescaler in a running mode is the prescaled part (R128). -/
theorem exec_tick_running (t : TimerId) (n d : Nat) (s : State) (hn : 0 < n)
    (hd : (s.clock t).divisor? = some d)
    (hk : s.countKind t ≠ .frozen) :
    exec (.tick t n) s =
      .next (tickPrescaled t d n (tickDecoded t s)) := by
  rcases tick_cases t n s with ⟨h, _⟩ | ⟨_, h, _⟩ | ⟨_, _, h, _⟩ | ⟨_, _, d', h, h'⟩
  · omega
  · simp [h, Prescaler.divisor?] at hd
  · rcases h with h | h
    · simp [h, Prescaler.divisor?] at hd
    · exact absurd h hk
  · rw [hd] at h
    cases h
    exact congrArg _ h'

/-- A TICK with at least one timer tick is a batch, after the prescaler and the remainder are recorded (R128). -/
theorem exec_tick_batch (t : TimerId) (n d : Nat) (s : State) (hn : 0 < n) (hd : (s.clock t).divisor? = some d)
    (hp : 0 < d) (hk : s.countKind t ≠ .frozen) (hb : d ≤ (s.timer t).cycleRemainder + n) :
    exec (.tick t n) s =
      .next (tickBatch t (((s.timer t).cycleRemainder + n) / d)
        (s.setTimer t { s.timer t with
          prescaler := s.clock t, cycleRemainder := ((s.timer t).cycleRemainder + n) % d })) := by
  rw [exec_tick_running t n d s hn hd hk]
  have h0 : ((s.timer t).cycleRemainder + n) / d ≠ 0 := by
    have := Nat.div_pos hb hp
    omega
  have hm : (s.timer t).cycleRemainder + n - ((s.timer t).cycleRemainder + n) / d * d =
      ((s.timer t).cycleRemainder + n) % d := by
    rw [Nat.mod_def, Nat.mul_comm]
  simp [tickPrescaled, tickDecoded, h0, hm]

/-! ## The counter in register memory -/

@[simp] theorem signalIf_cfg (b : Bool) (t : TimerId) (e : TimerEvent) (s : State) :
    (signalIf b t e s).cfg = s.cfg := (signalIf_step b t e s).cfg

@[simp] theorem batchWritten_cfg (t : TimerId) (k : Nat) (s : State) : (batchWritten t k s).cfg = s.cfg :=
  (batchWritten_step t k s).cfg

@[simp] theorem tickBatch_cfg (t : TimerId) (k : Nat) (s : State) : (tickBatch t k s).cfg = s.cfg :=
  (tickBatch_step t k s).cfg

@[simp] theorem tick_cfg (t : TimerId) (n : Nat) (s : State) : (tick t n s).cfg = s.cfg := (tick_step t n s).cfg

theorem batchWritten_mem (t : TimerId) (k : Nat) (s : State) :
    (batchWritten t k s).mem = writeCounter s.cfg t s.mem (batchTimer t k s).counter := rfl

theorem readCounter_congr {c : Config} (hc : c.Facts) {t : TimerId} {m m' : Memory}
    (h : ∀ a, a ≠ flagReg c t → m.read a = m'.read a) : readCounter c t m = readCounter c t m' := by
  have hf := hc.flagReg_ne_counter t t
  cases t
  · exact congrArg BitVec.toNat (h _ hf.1.symm)
  · simp only [readCounter, readTimerReg, Memory.read16]
    rw [h _ hf.1.symm, h _ (hf.2 rfl).symm]

theorem signalIf_read_other (b : Bool) (t : TimerId) (e : TimerEvent) (s : State) {a : Nat}
    (ha : a ≠ flagReg s.cfg t) : (signalIf b t e s).mem.read a = s.mem.read a := by
  cases b
  · rfl
  · simp only [signalIf, if_true, signalEvent_mem, Memory.setBit]
    exact Memory.read_write_other _ _ ha

/-- A batch writes the flag register only after its counter (R131, R135). -/
theorem tickBatch_read_other (t : TimerId) (k : Nat) (s : State) {a : Nat} (ha : a ≠ flagReg s.cfg t) :
    (tickBatch t k s).mem.read a = (writeCounter s.cfg t s.mem (batchTimer t k s).counter).read a := by
  rw [tickBatch_eq, signalIf_read_other _ _ _ _ (by simpa using ha), signalIf_read_other _ _ _ _ (by simpa using ha),
    signalIf_read_other _ _ _ _ (by simpa using ha), batchWritten_mem]

/-- The counter that a batch computes is the one in register memory afterwards (R131). -/
theorem tickBatch_readCounter (t : TimerId) (k : Nat) {s : State} (hc : s.cfg.Facts) (hw : s.mem.wf = true)
    (hn : (batchTimer t k s).counter < 2 ^ timerWidth s.cfg t) :
    readCounter s.cfg t (tickBatch t k s).mem = (batchTimer t k s).counter := by
  rw [readCounter_congr hc (fun a ha => tickBatch_read_other t k s ha), readCounter_writeCounter hc t hw hn]

/-! ## Signals of a batch (R135) -/

theorem signalIf_wf (b : Bool) (t : TimerId) (e : TimerEvent) {s : State} (h : s.mem.wf = true) :
    (signalIf b t e s).mem.wf = true := (signalIf_step b t e s).wf h

/-- The bits of the flag register after a signal. -/
theorem signalIf_flag_bit (b : Bool) (t : TimerId) (e : TimerEvent) {s : State} (hc : s.cfg.Facts) (h : s.mem.wf = true)
    (j : Nat) :
    (signalIf b t e s).mem.bit (flagReg s.cfg t) j =
      (s.mem.bit (flagReg s.cfg t) j || (b && decide (j = flagBit s.cfg t e))) := by
  cases b
  · simp [signalIf]
  · simp only [signalIf, if_true, signalEvent_mem, Memory.bit, Memory.read_setBit h,
      getLsbD_setBit _ _ _ (hc.flagBit_lt t e).1, Bool.true_and]

/-- The bits of the mask register after a signal: the same. -/
theorem signalIf_mask_bit (b : Bool) (t : TimerId) (e : TimerEvent) {s : State} (hc : s.cfg.Facts) (j : Nat) :
    (signalIf b t e s).mem.bit (maskReg s.cfg t) j = s.mem.bit (maskReg s.cfg t) j := by
  simp only [Memory.bit]
  rw [signalIf_read_other _ _ _ _ (Config.Facts.maskReg_ne_flagReg hc t t)]

/-- The vectors after a signal. -/
theorem signalIf_vec (b : Bool) (t : TimerId) (e : TimerEvent) {s : State} (hc : s.cfg.Facts) (u : IrqVector) :
    (signalIf b t e s).ic.vec u =
      if b = true ∧ u = eventVector t e ∧ s.mem.bit (maskReg s.cfg t) (maskBit s.cfg t e) = true ∧
          s.ic.vec (eventVector t e) = .idle
      then .pending else s.ic.vec u := by
  cases b
  · simp [signalIf]
  · simp only [signalIf, if_true, signalEvent_vec hc]
    simp

/-- The write-back of the counter leaves the flag and mask registers. -/
theorem writeCounter_flag_mask {c : Config} (hc : c.Facts) (t : TimerId) (m : Memory) (n j : Nat) :
    (writeCounter c t m n).bit (flagReg c t) j = m.bit (flagReg c t) j ∧
      (writeCounter c t m n).bit (maskReg c t) j = m.bit (maskReg c t) j := by
  refine ⟨?_, ?_⟩ <;> simp only [Memory.bit]
  · have hf := hc.flagReg_ne_counter t t
    cases t
    · rw [writeCounter, Memory.read_write_other _ _ hf.1]
    · rw [writeCounter, Memory.write16, Memory.read_write_other _ _ (hf.2 rfl), Memory.read_write_other _ _ hf.1]
  · rw [writeCounter_other c t m n (hc.maskReg_apart t t)]

/-! ## Ranges (R143, R146) -/

theorem readTimerReg_lt {c : Config} (hc : c.Facts) (t : TimerId) (m : Memory) (a : Nat) :
    readTimerReg t m a < 2 ^ timerWidth c t := by
  rw [hc.timerWidth_eq]
  cases t
  · exact (m.read a).isLt
  · exact Memory.read16_lt m a

theorem readCounter_lt {c : Config} (hc : c.Facts) (t : TimerId) (m : Memory) :
    readCounter c t m < 2 ^ timerWidth c t := readTimerReg_lt hc t m _

theorem readCompare_lt {c : Config} (hc : c.Facts) (t : TimerId) (x : CompareChannel) (m : Memory) :
    readCompare c t x m < 2 ^ timerWidth c t := readTimerReg_lt hc t m _

theorem modeNumber_lt (c : Config) (t : TimerId) (m : Memory) :
    modeNumber c t m < 16 ∧ (t = .t0 → modeNumber c t m < 8) := by
  cases t <;> simp [modeNumber, bitField] <;> omega

theorem topValue_lt {c : Config} (hc : c.Facts) (t : TimerId) (m : Memory) :
    topValue c t (modeNumber c t m) m < 2 ^ timerWidth c t := by
  obtain ⟨h1, h2⟩ := modeNumber_lt c t m
  generalize modeNumber c t m = k at *
  have h16 := fun a => Memory.read16_lt m a
  rw [hc.timerWidth_eq]
  cases t
  · have hb := (m.read c.reg.ocr0a).isLt
    have : k ∈ List.range 8 := by simpa using h2 rfl
    fin_cases this <;>
      first
        | exact hb
        | exact (by decide : (0 : ℕ) < 256)
        | exact (by decide : (0xFF : ℕ) < 256)
  · have : k ∈ List.range 16 := by simpa using h1
    fin_cases this <;>
      first
        | exact h16 _
        | exact (by decide : (0 : ℕ) < 65536)
        | exact (by decide : (0xFF : ℕ) < 65536)
        | exact (by decide : (0x1FF : ℕ) < 65536)
        | exact (by decide : (0x3FF : ℕ) < 65536)
        | exact (by decide : (0xFFFF : ℕ) < 65536)

/-- The new counter fits the timer's width: the write-back never truncates (R143). -/
theorem advance_lt {s : State} (hc : s.cfg.Facts) (t : TimerId) (kind : CountKind) (k : Nat) (down : Bool) :
    (advance kind (s.count t) k (s.top t) down).counter < 2 ^ timerWidth s.cfg t := by
  have h1 : s.top t < 2 ^ timerWidth s.cfg t := topValue_lt hc t s.mem
  have h2 : s.count t < 2 ^ timerWidth s.cfg t := readCounter_lt hc t s.mem
  cases kind <;> simp only [advance, advanceUp, advanceSym] <;> (repeat' split) <;> (try dsimp only) <;> omega

/-! ## What a tick reads (R145) -/

/-- The two memories hold the same bytes where no timer writes. -/
def AgreeOffWrites (c : Config) (t : TimerId) (m m' : Memory) : Prop :=
  ∀ a, a ∉ timerWrites c t → m.read a = m'.read a

variable {c : Config} (hc : c.Facts) {t : TimerId} {m m' : Memory} (h : AgreeOffWrites c t m m')
include hc h

/-- The control registers are not among the bytes a timer writes, so a tick keeps the clock select. -/
theorem clockSelect_congr : clockSelect c t m = clockSelect c t m' := by
  unfold clockSelect
  rw [h _ (hc.controlB_apart t t)]

/-- A tick keeps the mode. -/
theorem modeNumber_congr : modeNumber c t m = modeNumber c t m' := by
  cases t <;> simp only [modeNumber] <;> rw [h _ (hc.controlA_apart _ _), h _ (hc.controlB_apart _ _)]

/-- A tick keeps the compare registers. -/
theorem readCompare_congr (x : CompareChannel) : readCompare c t x m = readCompare c t x m' := by
  have ha := hc.compareReg_apart t x t
  cases t
  · exact congrArg BitVec.toNat (h _ ha.1)
  · simp only [readCompare, readTimerReg, Memory.read16]
    rw [h _ ha.1, h _ (ha.2 rfl)]

/-- A tick keeps the top of its mode. -/
theorem topValue_congr (k : Nat) : topValue c t k m = topValue c t k m' := by
  cases ht : (modeTable t k).top with
  | fixed v => simp [topValue, ht, topOf]
  | absent => simp [topValue, ht, topOf]
  | compareA => simp [topValue, ht, topOf, readCompare_congr hc h .a]
  | capture =>
    simp only [topValue, ht, topOf, Memory.read16]
    rw [h _ (hc.icr1_apart t).1, h _ (hc.icr1_apart t).2]

omit hc h

/-- What a tick keeps of its timer's registers. -/
theorem tick_keeps_control {s : State} (hc : s.cfg.Facts) (t : TimerId) (n : Nat) :
    (tick t n s).clock t = s.clock t ∧ (tick t n s).mode t = s.mode t ∧ (tick t n s).top t = s.top t ∧
      ∀ x, (tick t n s).compare t x = s.compare t x := by
  have h : AgreeOffWrites s.cfg t (tick t n s).mem s.mem := fun a ha => (tick_step t n s).mem a ha
  simp only [State.clock, State.mode, State.top, State.compare, tick_cfg, clockSelect_congr hc h,
    modeNumber_congr hc h, topValue_congr hc h, readCompare_congr hc h, implies_true, and_self]

/-- The remainder after a tick in a running mode (R128). -/
theorem tick_remainder (t : TimerId) (n d : Nat) (s : State) (hn : 0 < n) (hd : (s.clock t).divisor? = some d)
    (hp : 0 < d) (hk : s.countKind t ≠ .frozen) :
    ((tick t n s).timer t).cycleRemainder = ((s.timer t).cycleRemainder + n) % d := by
  have hex : exec (.tick t n) s = .next (tick t n s) := rfl
  by_cases hb : d ≤ (s.timer t).cycleRemainder + n
  · rw [exec_tick_batch t n d s hn hd hp hk hb, Host.Outcome.next.injEq] at hex
    rw [← hex, tickBatch_timer]
    simp [batchTimer]
  · rw [exec_tick_running t n d s hn hd hk, Host.Outcome.next.injEq] at hex
    have h0 : ((s.timer t).cycleRemainder + n) / d = 0 := Nat.div_eq_of_lt (by omega)
    have hm : ((s.timer t).cycleRemainder + n) % d = (s.timer t).cycleRemainder + n := Nat.mod_eq_of_lt (by omega)
    rw [← hex]
    simp [tickPrescaled, tickDecoded, h0, hm]

end Sys2Proof.Machine
end

