-- ==== Sys2Proof/Tests/Slice0.lean ====
section
/-! SUPPORT. Tests: the checks that refuse ill-formed terms, each instruction's bytes written out from the spec's
tables, one-step examples with their values from 95_test_vectors.md, and a state that meets the hypotheses of each
statement. -/

namespace Sys2Proof.Tests

open Sys2Proof.Machine

-- One theorem after another: checked all at once, these theorems hold more threads than the check's memory limit allows.
set_option Elab.async false

/-! ## Helpers -/

/-- A newly constructed block with the given bytes in register memory. -/
def withBytes (cells : List (Nat × Nat)) : State :=
  { State.reset with mem := cells.foldl (fun m c => m.write c.1 (BitVec.ofNat 8 c.2)) [] }

/-- The state after instructions run from `s`, if all of them complete. -/
def after (is : List Instr) (s : State) : Option State :=
  match runInstrs is s with
  | .next t => some t
  | _ => none

/-- What `f` reads of the state after one instruction. -/
def see {α : Type} (i : Instr) (s : State) (f : State → α) : Option α := (after [i] s).map f

/-- A stop as a pair: the refusal of a step. -/
def refusalOf (s : State) : Option Refusal :=
  match step s with
  | .refused r => some r
  | _ => none

def bytes (l : List Nat) : List Byte := l.map (BitVec.ofNat 8)

/-- The display of 95 §2.4: register-select pin 12, enable pin 11, D7 to D4 on pins 2 to 5, two rows of 16. -/
def display4 : DisplayState := newDisplay 12 11 [2, 3, 4, 5] 2 16 .wrap

/-- The 8-bit display of DV12. -/
def display8 : DisplayState := newDisplay 12 11 [2, 3, 4, 5, 6, 7, 8, 9] 2 16 .wrap

/-- The servo of 95 §2.5 on a pin. -/
def servoOn (pin : Nat) : ServoState := newServo pin 500 1 0 0 0 20000 0 0

/-- A block with one device under handle 1. -/
def withDevice (d : Device) (cells : List (Nat × Nat)) : State := { withBytes cells with devs := ⟨[(1, d)], 2⟩ }

/-- A block with display `D` under handle 1 and servo `V` under handle 2. -/
def withBoth (D : DisplayState) (V : ServoState) : State :=
  { withBytes [(0x5F, 0x80)] with devs := ⟨[(1, .display D), (2, .servo V)], 3⟩ }

/-- T1 in mode 14 with top 40000 (95 §2.5), and OCR1A as given. -/
def mode14 (ocr : Nat) : List (Nat × Nat) :=
  [(0x80, 0x02), (0x81, 0x1A), (0x86, 0x40), (0x87, 0x9C), (0x88, ocr % 256), (0x89, ocr / 256)]

/-- A block whose vectors are all idle but one. -/
def withVector (v : IrqVector) (x : VecState) (gie : Bool) (cells : List (Nat × Nat)) : State :=
  { withBytes cells with ic := { IcState.reset.setVec v x with gie := gie } }

/-! ## Well-formedness: each check refuses (R101, R102, R104) -/

theorem test_wf_u32_step : Instr.wellFormed config (.step 0x100000000) = false := by decide
theorem test_wf_u32_tick : Instr.wellFormed config (.tick .t0 0x100000000) = false := by decide
theorem test_wf_u32_timetick : Instr.wellFormed config (.timetick 0x100000000) = false := by decide
theorem test_wf_u16_memwrite : Instr.wellFormed config (.memwrite 0x10000 0) = false := by decide
theorem test_wf_memory_size : Instr.wellFormed config (.memwrite 0x100 0) = false := by decide
theorem test_wf_memory_last : Instr.wellFormed config (.memwrite 0xFF 0) = true := by decide
theorem test_wf_u8_raise : Instr.wellFormed config (.raise 256) = false := by decide
theorem test_wf_u8_pinchange : Instr.wellFormed config (.pinchange 256 true 0) = false := by decide
theorem test_wf_u32_pinchange : Instr.wellFormed config (.pinchange 0 true 0x100000000) = false := by decide
theorem test_wf_u16_regchange_address : Instr.wellFormed config (.regchange 0x10000 0 0) = false := by decide
theorem test_wf_u16_regchange_old : Instr.wellFormed config (.regchange 0 0x10000 0) = false := by decide
theorem test_wf_u16_regchange_new : Instr.wellFormed config (.regchange 0 0 0x10000) = false := by decide
theorem test_wf_u8_regdisplay_pins :
    Instr.wellFormed config (.regdisplay 256 0 [0, 0, 0, 0] 0 0 .wrap) = false ∧
      Instr.wellFormed config (.regdisplay 0 256 [0, 0, 0, 0] 0 0 .wrap) = false ∧
      Instr.wellFormed config (.regdisplay 0 0 [0, 0, 0, 256] 0 0 .wrap) = false := by decide
theorem test_wf_u8_regdisplay_geometry :
    Instr.wellFormed config (.regdisplay 0 0 [0, 0, 0, 0] 256 0 .wrap) = false ∧
      Instr.wellFormed config (.regdisplay 0 0 [0, 0, 0, 0] 0 256 .wrap) = false := by decide
theorem test_wf_regdisplay_lines :
    Instr.wellFormed config (.regdisplay 0 0 [0, 0, 0, 0, 0] 0 0 .wrap) = false ∧
      Instr.wellFormed config (.regdisplay 0 0 [] 0 0 .wrap) = false := by decide
theorem test_wf_regservo :
    Instr.wellFormed config (.regservo 256 0 0 0 0 0 0 0) = false ∧
      Instr.wellFormed config (.regservo 0 0x100000000 0 0 0 0 0 0) = false ∧
      Instr.wellFormed config (.regservo 0 0 0x100000000 0 0 0 0 0) = false ∧
      Instr.wellFormed config (.regservo 0 0 0 0x100000000 0 0 0 0) = false ∧
      Instr.wellFormed config (.regservo 0 0 0 0 0x100000000 0 0 0) = false ∧
      Instr.wellFormed config (.regservo 0 0 0 0 0 0x100000000 0 0) = false ∧
      Instr.wellFormed config (.regservo 0 0 0 0 0 0 0x100000000 0) = false ∧
      Instr.wellFormed config (.regservo 0 0 0 0 0 0 0 0x100000000) = false := by decide
theorem test_wf_u16_unreg : Instr.wellFormed config (.unreg 0x10000) = false := by decide
theorem test_wf_setload :
    Instr.wellFormed config (.setload 0x10000 0 0) = false ∧
    Instr.wellFormed config (.setload 0 0x100000000 0) = false ∧
      Instr.wellFormed config (.setload 0 0 0x100000000) = false := by decide

/-- R7's defaults are accepted. -/
theorem test_config_accepted : config.check = none := by decide
/-- The default table with another row for T0's overflow. -/
def withRow (row : VectorRow) : Config := { config with vectorTable := { timer0Ovf := row } }

/-- R98: two equal priorities. -/
theorem test_config_equal_priorities : (withRow ⟨16, 11, 0x20, 0, 0⟩).check = some .equalPriorities := by decide
/-- R97: an id that names two vectors. -/
theorem test_config_equal_ids : (withRow ⟨11, 16, 0x20, 0, 0⟩).check = some .equalIds := by decide
theorem test_config_shared_flag_bit : (withRow ⟨16, 16, 0x20, 1, 0⟩).check = some .badFlagBits := by decide
theorem test_config_mask_bit : (withRow ⟨16, 16, 0x20, 0, 8⟩).check = some .badFlagBits := by decide
/-- R71: the high byte of the last 16-bit register lies outside. -/
theorem test_config_register_outside :
    Config.check { config with regMemSize := 0x8B } = some (.registerOutside 0x8B) := by
  decide
/-- Log entry 3: an 8-bit register outside. -/
theorem test_config_byte_register_outside :
    Config.check { config with reg := { config.reg with ocr0a := 0x100 } } = some (.registerOutside 0x100) := by decide
theorem test_config_shared_byte :
    Config.check { config with reg := { config.reg with icr1 := 0x85 } } = some .sharedByte := by decide
theorem test_config_width : Config.check { config with t0Width := 16 } = some .counterWidth := by decide
theorem test_config_zero_divisor : Config.check { config with fCpu := 0 } = some .zeroDivisor := by decide
theorem test_config_zero_prescaler : Config.check { config with prescalers := [1, 0] } = some .zeroDivisor := by decide
theorem test_config_shared_pin :
    Config.check { config with pinMap := [⟨0, .d, 0⟩, ⟨0, .d, 1⟩] } = some .sharedPin ∧
      Config.check { config with pinMap := [⟨0, .d, 0⟩, ⟨1, .d, 0⟩] } = some .sharedPin := by decide

/-- A board with other values: 8 MHz, T0's overflow on bit 5 of TIFR0 and bit 6 of TIMSK0 with vector 20, and pin 40 on
PORTB bit 7. -/
def otherBoard : Config :=
  { config with
    fCpu := 8000000, pinMap := [⟨40, .b, 7⟩, ⟨11, .c, 0⟩],
    vectorTable := { timer0Ovf := ⟨20, 3, 0x0044, 5, 6⟩ } }

theorem test_otherBoard_accepted : otherBoard.Accepted := by decide

/-! ## Decoding: the bytes of R102 -/

theorem test_decode_reset : decodeCommand config (bytes [0x01]) = .instr .reset 1 := by decide
theorem test_decode_step : decodeCommand config (bytes [0x02, 0xFD, 0xE1, 0x04, 0x00]) = .instr (.step 319997) 5 := by
  decide
theorem test_decode_memwrite : decodeCommand config (bytes [0x03, 0x45, 0x00, 0x01]) = .instr (.memwrite 0x45 1) 4 := by
  decide
theorem test_decode_motion : decodeCommand config (bytes [0x04]) = .instr .motion 1 := by decide
theorem test_decode_tick :
    decodeCommand config (bytes [0x10, 0x01, 0x04, 0x03, 0x02, 0x01]) = .instr (.tick .t1 0x01020304) 6 := by decide
theorem test_decode_raise : decodeCommand config (bytes [0x20, 0x63]) = .instr (.raise 99) 2 := by decide
theorem test_decode_setgie : decodeCommand config (bytes [0x21, 0x01]) = .instr (.setgie true) 2 := by decide
theorem test_decode_dispatch : decodeCommand config (bytes [0x22]) = .instr .dispatch 1 := by decide
theorem test_decode_reti : decodeCommand config (bytes [0x23]) = .instr .reti 1 := by decide
theorem test_decode_observe : decodeCommand config (bytes [0x30]) = .instr .observe 1 := by decide
theorem test_decode_pinchange :
    decodeCommand config (bytes [0x31, 0x0B, 0x01, 0x04, 0x03, 0x02, 0x01]) =
      .instr (.pinchange 11 true 0x01020304) 7 := by
  decide
theorem test_decode_regchange :
    decodeCommand config (bytes [0x32, 0x88, 0x00, 0x02, 0x01, 0xB8, 0x0B]) =
      .instr (.regchange 0x88 0x0102 3000) 7 := by
  decide
theorem test_decode_regdisplay :
    decodeCommand config (bytes [0x40, 0x0C, 0x0B, 0x04, 0x02, 0x03, 0x04, 0x05, 0x02, 0x10, 0x01]) =
      .instr (.regdisplay 12 11 [2, 3, 4, 5] 2 16 .clamp) 11 := by decide
theorem test_decode_regdisplay_eight :
    decodeCommand config (bytes [0x40, 12, 11, 8, 2, 3, 4, 5, 6, 7, 8, 9, 4, 20, 0]) =
      .instr (.regdisplay 12 11 [2, 3, 4, 5, 6, 7, 8, 9] 4 20 .wrap) 15 := by decide
/-- The bytes of 95, program P3, line 2. -/
theorem test_decode_regservo :
    decodeCommand config (bytes [0x41, 0x09, 0x20, 0xA1, 0x07, 0x00, 0xE8, 0x03, 0x00, 0x00, 0x01, 0x00, 0x00,
    0x00, 0x02, 0x00,
      0x00, 0x00, 0x03, 0x00, 0x00, 0x00, 0x20, 0x4E, 0x00, 0x00, 0x04, 0x00, 0x00, 0x00]) =
      .instr (.regservo 9 500000 1000 1 2 3 20000 4) 30 := by decide
theorem test_decode_unreg : decodeCommand config (bytes [0x42, 0x01, 0x02]) = .instr (.unreg 0x0201) 3 := by decide
theorem test_decode_setload :
    decodeCommand config (bytes [0x43, 0x01, 0x00, 0xE8, 0x03, 0x00, 0x00, 0xD0, 0x07, 0x00, 0x00]) =
      .instr (.setload 1 1000 2000) 11 := by decide
theorem test_decode_timetick : decodeCommand config (bytes [0x50, 0x10, 0x00, 0x00, 0x00]) = .instr (.timetick 16) 5 := by
  decide
theorem test_decode_nowus : decodeCommand config (bytes [0x51]) = .instr .nowus 1 := by decide
theorem test_decode_nowms : decodeCommand config (bytes [0x52]) = .instr .nowms 1 := by decide

/-! ## Decoding: the bytes of R107 and R108, bit by bit -/

theorem test_decode_lcd_unknown : decodeDisplayByte false 0b00000000 = .unknown := by decide
theorem test_decode_lcd_clear : decodeDisplayByte false 0b00000001 = .clear := by decide
theorem test_decode_lcd_home :
    decodeDisplayByte false 0b00000010 = .home false ∧ decodeDisplayByte false 0b00000011 = .home true := by decide
theorem test_decode_lcd_entry_mode_set :
    decodeDisplayByte false 0b00000110 = .entryModeSet true false ∧
      decodeDisplayByte false 0b00000101 = .entryModeSet false true := by decide
theorem test_decode_lcd_display_control :
    decodeDisplayByte false 0b00001100 = .displayControl true false false ∧
      decodeDisplayByte false 0b00001010 = .displayControl false true false ∧
      decodeDisplayByte false 0b00001001 = .displayControl false false true := by decide
theorem test_decode_lcd_cursor_display_shift :
    decodeDisplayByte false 0b00011001 = .cursorDisplayShift true false 1 ∧
      decodeDisplayByte false 0b00010110 = .cursorDisplayShift false true 2 := by decide
theorem test_decode_lcd_function_set :
    decodeDisplayByte false 0b00110000 = .functionSet true false false 0 ∧
      decodeDisplayByte false 0b00101000 = .functionSet false true false 0 ∧
      decodeDisplayByte false 0b00100111 = .functionSet false false true 3 := by decide
theorem test_decode_lcd_set_cgram_address : decodeDisplayByte false 0b01101010 = .setCgramAddress 0x2A := by decide
theorem test_decode_lcd_set_ddram_address : decodeDisplayByte false 0b11000011 = .setDdramAddress 0x43 := by decide
theorem test_decode_lcd_write_data :
    decodeDisplayByte true 0b01001000 = .writeData 0x48 ∧ decodeDisplayByte true 0b00000001 = .writeData 0x01 := by
  decide

/-! ## Refusals of the decoder, by name and position (R103, R104; 95 HV14 to HV16) -/

theorem test_refuse_opcode :
    refusalOf { State.reset with stream := [0x05], pos := 7 } = some (.illegalOpcode 0x05 7) := by decide
theorem test_refuse_timer :
    refusalOf { State.reset with stream := bytes [0x10, 2, 1, 0, 0, 0] } = some (.illegalOperand "TICK" 0) := by decide
theorem test_refuse_lines :
    refusalOf { State.reset with stream := bytes [0x40, 0x0C, 0x0B, 5, 0, 0, 0, 0, 0] } =
      some (.illegalOperand "REGDISPLAY" 0) := by decide
/-- Log entry 5. -/
theorem test_refuse_truncated :
    refusalOf { State.reset with stream := bytes [0x02, 1] } = some (.truncatedCommand "STEP" 0) := by decide

/-! ## The host's probe: one command, one display byte -/

theorem test_probe_command : decodeTableWord 8 0x22 = some .dispatch := by decide
theorem test_probe_display : decodeTableWord 8 0x80 = some (.lcdSetDdramAddress 1 0) := by decide

/-! ## Timers (95 §2.1) -/

def tv1 : State := withBytes [(0x45, 0x01), (0x46, 0xFE), (0x47, 0x80), (0x48, 0x80)]

/-- TV1, with TV18's mask: the overflow flag and the pending vector. -/
theorem test_tick_overflow :
    see (.tick .t0 1) { tv1 with mem := tv1.mem.write 0x6E 1 } (fun t =>
      (t.mem.read 0x46, t.mem.read 0x35, t.t0.overflowed, t.t0.matchA, t.ic.timer0Ovf)) =
      some (0x00, 0x01, true, false, .pending) := by decide

/-- TV15: a symmetric counter above its top. -/
theorem test_tick_symmetric_above_top :
    see (.tick .t1 1) (withBytes [(0x81, 0x11), (0x86, 16), (0x85, 0x80), (0x89, 0x80), (0x8B, 0x80)]) (fun t =>
      (t.mem.read16 0x84, t.mem.read 0x36, t.t1.overflowed, t.t1.countDown)) = some (16, 0x01, true, true) := by decide

/-- The parameters at work: the flag and mask bits of another table, and its id. -/
theorem test_otherBoard_overflow :
    see (.tick .t0 1) { tv1 with cfg := otherBoard, mem := tv1.mem.write 0x6E 0x40 } (fun t =>
      (t.mem.read 0x35, t.ic.timer0Ovf)) = some (0x20, .pending) := by decide
theorem test_otherBoard_raise :
    see (.raise 20) { State.reset with cfg := otherBoard } (fun t => (t.ic.timer0Ovf, t.out.length)) =
      some (.pending, 0) := by decide

/-! ## Interrupt controller (95 §2.2) -/

/-- IV5. -/
theorem test_raise_unknown :
    see (.raise 99) State.reset State.out = some [.warning (.irqUnknownVector 99)] := by decide +kernel
theorem test_raise_pending : see (.raise 14) State.reset (fun t => t.ic.timer0CompA) = some .pending := by decide
theorem test_setgie : see (.setgie true) State.reset (fun t => t.ic.gie) = some true := by decide
/-- IV8: the dispatch clears its own flag bit only. -/
theorem test_dispatch_clears_flag :
    see .dispatch (withVector .timer0CompA .pending true [(0x35, 0x06)]) (fun t =>
      (t.mem.read 0x35, t.ic.timer0CompA, t.out)) = some (0x04, .inService, [.dispatch 14 0x001C]) := by decide +kernel
/-- IV2: no nesting. -/
theorem test_dispatch_no_nesting :
    see .dispatch (withVector .timer0CompA .inService true []) State.out = some [] := by decide +kernel
theorem test_reti :
    see .reti (withVector .timer0CompA .inService true []) (fun t => t.ic.timer0CompA) = some .idle := by
  decide

/-! ## Observer bridge (95 §2.3) -/

/-- BV6: the order of R189, and the timestamp of BV1. -/
theorem test_observe_order :
    see .observe { withBytes [(0x25, 0x08), (0x2B, 0x04)] with time := ⟨1600⟩ } State.out =
      some [.pinChange 11 true 100, .pinChange 2 true 100] := by decide +kernel
/-- BV4: one event for both bytes. -/
theorem test_observe_word :
    see .observe (withBytes [(0x88, 0xB8), (0x89, 0x0B)]) State.out = some [.regChange 0x88 0 3000] := by decide +kernel

/-- A pin map that is not R99's, and 8 cycles per microsecond. -/
theorem test_otherBoard_observe :
    see .observe { withBytes [(0x25, 0x88)] with cfg := otherBoard, time := ⟨1600⟩ } State.out =
      some [.pinChange 40 true 200] := by decide +kernel

/-- R75: pins and observed registers follow the register map. With PORTB at 0x26 the bridge and the pin levels read 0x26,
and not 0x25. -/
def movedBoard : Config := { config with reg := { config.reg with portb := 0x26, ocr0a := 0x49 } }

theorem test_movedBoard_accepted : movedBoard.Accepted := by decide
theorem test_movedBoard_observe :
    see .observe { withBytes [(0x25, 0xFF), (0x26, 0x08), (0x47, 0xFF), (0x49, 0x07)] with
      cfg := movedBoard } State.out =
      some [.pinChange 11 true 0, .regChange 0x49 0 7] := by decide +kernel
theorem test_movedBoard_pinLevel :
    pinLevel movedBoard [(0x26, 0x08)] 11 = true ∧ pinLevel movedBoard [(0x25, 0xFF)] 11 = false := by decide

/-! ## Display decoder (95 §2.4) -/

/-- DV12: a byte of an 8-bit display. -/
theorem test_pinchange_latches_byte :
    see (.pinchange 11 false 0) (withDevice (.display display8) [(0x2B, 0x48), (0x25, 0x10)]) (fun t =>
      (t.display? 1).map fun D => (((D.buffer.getD 0 []).getD 0 0), D.cursor)) = some (some (0x48, ⟨0, 1⟩)) := by
  decide +kernel
/-- DV13, the first nibble. -/
theorem test_pinchange_latches_nibble :
    see (.pinchange 11 false 0) (withDevice (.display display4) [(0x2B, 0x08), (0x25, 0x10)]) (fun t =>
      (t.display? 1).map fun D => (D.pendingNibble, D.expectingHighNibble)) = some (some (4, false)) := by
  decide +kernel
/-- DV1. -/
theorem test_lcd_clear :
    see (.lcdClear 1) (withDevice (.display { display4 with buffer := [[0x48], []], cursor := ⟨0, 2⟩ }) []) (fun t =>
      (t.display? 1).map fun D => (decide (D.buffer = blankBuffer 2 16), D.cursor)) = some (some (true, ⟨0, 0⟩)) := by
  decide +kernel
theorem test_lcd_home :
    see (.lcdHome 1 true) (withDevice (.display { display4 with cursor := ⟨1, 3⟩ }) []) (fun t =>
      (t.display? 1).map DisplayState.cursor) = some (some ⟨0, 0⟩) := by decide +kernel
/-- DV7. -/
theorem test_lcd_display_control :
    see (.lcdDisplayControl 1 true false true) (withDevice (.display display4) []) (fun t =>
      ((t.display? 1).map fun D => (D.displayOn, D.cursorOn, D.blinkOn), t.out.length)) =
      some (some (true, false, true), 1) := by decide +kernel
/-- DV9 and DV17: the ignored commands. -/
theorem test_lcd_ignored :
    (after [.lcdFunctionSet 1 false true false 0, .lcdEntryModeSet 1 false false, .lcdCursorDisplayShift 1 false true 0,
      .lcdSetCgramAddress 1 0] (withDevice (.display display4) [])) = some (withDevice (.display display4) []) := by
  decide +kernel
/-- DV8. -/
theorem test_lcd_unknown :
    see (.lcdUnknown 1) (withDevice (.display display4) []) State.out =
      some [.warning (.lcdUnknownOpcode 1 0x00)] := by decide +kernel
/-- DV16: the third row of a display with 20 columns. -/
theorem test_lcd_set_ddram_address :
    see (.lcdSetDdramAddress 1 0x14) (withDevice (.display (newDisplay 12 11 [2, 3, 4, 5] 4 20 .wrap)) []) (fun t =>
      (t.display? 1).map DisplayState.cursor) = some (some ⟨2, 0⟩) := by decide +kernel
/-- DV4: an address beyond a row of 16 columns. -/
theorem test_lcd_bad_address :
    see (.lcdSetDdramAddress 1 0x10) (withDevice (.display { display4 with cursor := ⟨0, 5⟩ }) []) State.out =
      some [.warning (.lcdBadAddress 1 0x10)] := by decide +kernel
/-- DV5b: the wrap from the last cell. -/
theorem test_lcd_write_data_wraps :
    see (.lcdWriteData 1 0x42) (withDevice (.display { display4 with cursor := ⟨1, 15⟩ }) []) (fun t =>
      (t.display? 1).map fun D => (((D.buffer.getD 1 []).getD 15 0), D.cursor)) = some (some (0x42, ⟨0, 0⟩)) := by
  decide +kernel
/-- DV6: the clamp at the end of a row. -/
theorem test_lcd_write_data_clamps :
    see (.lcdWriteData 1 0x41) (withDevice (.display { display4 with cursor := ⟨0, 15⟩, addressing := .clamp }) [])
      (fun t => (t.display? 1).map DisplayState.cursor) = some (some ⟨0, 15⟩) := by decide +kernel

/-! ## Servo engine (95 §2.5) -/

/-- SV9: 1500.5 rounds half up. -/
theorem test_regchange_decodes :
    see (.regchange 0x88 0 3001) (withDevice (.servo (servoOn 9)) (mode14 3001)) (fun t =>
      (t.servo? 1).map fun V => (V.lastPulseWidth, V.lastPulseValid, V.targetAngle)) =
      some (some (1501, true, 4509 / 50)) := by decide +kernel
/-- SV4: rejected. -/
theorem test_regchange_rejects :
    see (.regchange 0x88 0 1200) (withDevice (.servo (servoOn 9)) (mode14 1200)) (fun t =>
      ((t.servo? 1).map fun V => (V.lastPulseValid, V.targetAngle), t.out)) =
      some (some (false, 0), [.warning (.servoPulseRange 1 600)]) := by decide +kernel
/-- MV9: down by 10. -/
theorem test_motion_moves :
    see .motion { withDevice (.servo { servoOn 9 with currentAngle := 100, targetAngle := 50 }) [] with
      time := ⟨320000⟩ }
      (fun t => ((t.servo? 1).map ServoState.currentAngle, t.out)) = some (some 90, [.notifyServo 1 90]) := by
  decide +kernel
/-- MV2: within the deadband. -/
theorem test_motion_deadband :
    see .motion { withDevice (.servo { servoOn 9 with currentAngle := 90, targetAngle := 181 / 2 }) [] with
        time := ⟨320000⟩ }
      (fun t => (t.servo? 1).map fun V => (V.currentAngle, V.lastUpdateTimestamp)) = some (some (90, 20000)) := by
  decide +kernel

/-! ## Step, time, registration, memory, reset (95 §2.6) -/

/-- HV1. -/
theorem test_step_dispatches :
    see (.step 2) (withBytes [(0x45, 1), (0x46, 0xFD), (0x6E, 1), (0x5F, 0x80)]) (fun t =>
      (t.mem.read 0x46, t.mem.read 0x35, t.ic.timer0Ovf, t.out)) =
      some (0, 0x06, .inService, [.dispatch 16 0x0020]) := by decide +kernel
/-- HV4. -/
theorem test_step_zero : after [.step 0] State.reset = some State.reset := by decide +kernel
/-- HV3. -/
theorem test_nowus : see .nowus { State.reset with time := ⟨39⟩ } State.out = some [.value 2] := by decide +kernel
theorem test_nowms : see .nowms { State.reset with time := ⟨32000⟩ } State.out = some [.value 2] := by decide +kernel
theorem test_timetick :
    see (.timetick 39) { State.reset with time := ⟨3⟩ } (fun t => t.time.totalCycles) = some 42 := by
  decide
/-- HV12: a write of a flag register stores the byte. -/
theorem test_memwrite :
    see (.memwrite 0x35 0x01) (withBytes [(0x35, 0x07)]) (fun t => t.mem.read 0x35) = some 0x01 := by
  decide
/-- HV6. -/
theorem test_regdisplay_refused :
    see (.regdisplay 12 11 [2, 3, 4, 5] 5 16 .wrap) State.reset (fun t => (t.devs.nextHandle, t.out.length)) =
      some (1, 1) := by decide
theorem test_regdisplay_default :
    see (.regdisplayDefault config 12 11 [2, 3, 4, 5]) State.reset (fun t => t.display? 1) = some (some display4) := by
  decide +kernel
/-- HV9. -/
theorem test_regservo_no_channel :
    see (.regservo 3 500000 1000 0 0 0 20000 0) State.reset State.out =
      some [.warning (.servoNoChannel 3), .handle 1] := by decide +kernel
/-- HV8: a period of 0. -/
theorem test_regservo_refused :
    see (.regservo 9 500000 1000 0 0 0 0 0) State.reset (fun t => t.devs.nextHandle) = some 1 := by decide +kernel
/-- HV10. -/
theorem test_unreg :
    see (.unreg 1) (withDevice (.servo (servoOn 9)) []) (fun t => (t.devs.entries.length, t.devs.nextHandle)) =
      some (0, 2) := by decide
/-- MV5: the load and the arm. -/
theorem test_setload :
    see (.setload 1 2500 1000) (withDevice (.servo (servoOn 9)) []) (fun t =>
      (t.servo? 1).map fun V => (V.loadWeight, V.armLength)) = some (some (5 / 2, 1)) := by decide +kernel
/-- HV11. -/
theorem test_reset_display :
    see .reset { withDevice (.display { display4 with displayOn := true, cursor := ⟨1, 2⟩ }) [] with time := ⟨9⟩ }
      (fun t => (t.display? 1, t.time.totalCycles)) = some (some display4, 0) := by decide +kernel
theorem test_reset_keeps_memory :
    see .reset (withBytes [(0x25, 5), (0x46, 9)]) (fun t => (t.mem.read 0x46, t.snap.read 0x25, t.snap.read 0x46)) =
      some (9, 5, 0) := by decide

/-! ## The assembler syntax (R105) -/

theorem test_assemble_set16 :
    assembleLine config [] "SET16 OCR1A, 3000 ; both bytes".toList =
      some [.memwrite 0x89 0x0B, .memwrite 0x88 0xB8] := by
  decide +kernel
theorem test_assemble_pulse :
    assembleLine config [(0x25, 0x10)] "PULSE 11, 16".toList =
      some [.memwrite 0x25 0x18, .step 16, .memwrite 0x25 0x10, .step 16] := by decide +kernel
theorem test_assemble_sei : assembleLine config [(0x5F, 0x01)] "SREG_SEI".toList = some [.memwrite 0x5F 0x81] := by
  decide +kernel
theorem test_assemble_rational :
    assembleLine config [] "SETLOAD 1, 0.5, 2".toList = some [.setload 1 500 2000] := by decide +kernel
theorem test_assemble_refuses : assembleLine config [] "MEMWRITE 0x100, 0".toList = none := by decide +kernel

/-! ## Witnesses: for each statement with hypotheses, states and operands that meet them, at the boundaries of each
clause -/

/-- An accepted configuration of another board; two equal priorities; a register beyond a smaller memory. -/
theorem witness_ResetMeetsInvariant :
    otherBoard.Accepted ∧ otherBoard ≠ config ∧ IrqVector.timer0Ovf ≠ .timer1CompA ∧
      (vectorRow (withRow ⟨16, 11, 0x20, 0, 0⟩) .timer0Ovf).priority =
        (vectorRow (withRow ⟨16, 11, 0x20, 0, 0⟩) .timer1CompA).priority ∧
      0x8B ∈ config.reg.bytes ∧ { config with regMemSize := 0x8B }.regMemSize ≤ 0x8B := by decide

theorem witness_ResetCommandRestoresReset :
    (withBoth display4 (servoOn 9)).display? 1 = some display4 ∧
      (withBoth display4 (servoOn 9)).servo? 2 = some (servoOn 9) := by decide +kernel

theorem witness_DecodeOfEncode :
    Instr.WellFormed config (.memwrite 0xFF 0xFF) ∧
    Instr.WellFormed config (.regdisplay 12 11 [2, 3, 4, 5, 6, 7, 8, 255] 255 255 .clamp) ∧
      Instr.WellFormed config (.lcdSetDdramAddress 1 0x7F) := by decide

theorem witness_EncodeOfDecode :
    decodeCommand config (bytes [0x03, 0xFF, 0x00, 0xFF, 0x01]) = .instr (.memwrite 0xFF 0xFF) 4 := by
  decide

theorem witness_DisplayBytesDecodeOnce :
    ((0x80 : Byte) &&& 0x80 = 0x80 ∧ (0xFF : Byte) &&& 0x80 = 0x80) ∧
      ((0x40 : Byte) &&& 0xC0 = 0x40 ∧ (0x7F : Byte) &&& 0xC0 = 0x40) ∧
      ((0x20 : Byte) &&& 0xE0 = 0x20 ∧ (0x3F : Byte) &&& 0xE0 = 0x20) ∧
      ((0x10 : Byte) &&& 0xF0 = 0x10 ∧ (0x1F : Byte) &&& 0xF0 = 0x10) ∧
      ((0x08 : Byte) &&& 0xF8 = 0x08 ∧ (0x0F : Byte) &&& 0xF8 = 0x08) ∧
      ((0x04 : Byte) &&& 0xFC = 0x04 ∧ (0x07 : Byte) &&& 0xFC = 0x04) ∧
      ((0x02 : Byte) &&& 0xFE = 0x02 ∧ (0x03 : Byte) &&& 0xFE = 0x02) := by decide

/-- The ends of each range of R103, and the legal opcodes beside them. -/
theorem witness_IllegalOpcodesRefused :
    (∀ o ∈ bytes [0x00, 0x05, 0x0F, 0x11, 0x1F, 0x24, 0x2F, 0x33, 0x3F, 0x44, 0x4F, 0x53, 0xFF],
      decodeCommand config [o] = .illegalOpcode o) ∧
      (∀ o ∈ bytes [0x01, 0x04, 0x10, 0x20, 0x23, 0x30, 0x32, 0x40, 0x43, 0x50, 0x52],
        decodeCommand config [o] ≠ .illegalOpcode o) ∧
      ({ State.reset with stream := [0x53] } : State).stream = [0x53] := by decide

theorem witness_IllegalOperandsRefused :
    1 < (2 : Byte).toNat ∧ 1 < (255 : Byte).toNat ∧ ((3 : Byte).toNat ≠ 4 ∧ (3 : Byte).toNat ≠ 8) ∧
      ((5 : Byte).toNat ≠ 4 ∧ (5 : Byte).toNat ≠ 8) ∧
      (((8 : Byte).toNat = 4 ∨ (8 : Byte).toNat = 8) ∧ (bytes [2, 3, 4, 5, 6, 7, 8, 9]).length = (8 : Byte).toNat) ∧
      (0x100 ≤ (0x00 : Byte).toNat + 256 * (0x01 : Byte).toNat ∧
        ¬0x100 ≤ (0xFF : Byte).toNat + 256 * (0x00 : Byte).toNat) ∧
      decodeCommand config (bytes [0x21, 2]) = .illegalOperand "SETGIE" ∧ (bytes [2, 3, 4, 5]).length = 4 := by decide

theorem witness_StepRunsDecodedCommand :
    decodeCommand config (bytes [0x20, 0x10, 0x22]) = .instr (.raise 16) 2 ∧ Instr.WellFormed config (.raise 16) ∧
      Instr.source (.raise 16) = .stream ∧ bytes [0x20, 0x10, 0x22] = encode (.raise 16) ++ bytes [0x22] ∧
      State.reset.stream = [] := by decide

theorem witness_LatchRunsDecodedByte :
    displaysEnabledBy 11 (withDevice (.display display4) []) = [1] ∧
      (withDevice (.display display4) []).display? 1 = some display4 ∧ display4.bitMode = .four ∧
      display4.expectingHighNibble = true ∧
      displaysEnabledBy 11 (withDevice (.display { display4 with expectingHighNibble := false }) []) = [1] ∧
      (withDevice (.display { display4 with expectingHighNibble := false }) []).display? 1 =
        some { display4 with expectingHighNibble := false } ∧
      displaysEnabledBy 11 (withDevice (.display display8) []) = [1] ∧
      (withDevice (.display display8) []).display? 1 = some display8 ∧ display8.bitMode = .eight := by decide

/-- Two displays on one enable line, in one state with a servo between them. -/
def sharedLine : State :=
  { withBytes [(0x2B, 0x48), (0x25, 0x10)] with
    devs := ⟨[(1, .display display8), (2, .servo (servoOn 9)), (5, .display { display4 with rows := 1 })], 6⟩ }

theorem witness_LatchRunsDecodedByte_several :
    HandlesRise sharedLine ∧ displaysEnabledBy 11 sharedLine = [1, 5] ∧ sharedLine.display? 1 = some display8 ∧
      sharedLine.display? 5 = some { display4 with rows := 1 } ∧ display8.enPin = 11 := by
  refine ⟨?_, ?_, ?_, ?_, ?_⟩
  · unfold HandlesRise
    decide
  all_goals decide

/-- Both displays latch, in handle order. -/
theorem test_pinchange_latches_both :
    see (.pinchange 11 false 0) sharedLine (fun t =>
      ((t.display? 1).map DisplayState.cursor, (t.display? 5).map DisplayState.pendingNibble)) =
      some (some ⟨0, 1⟩, some 4) := by decide +kernel

theorem witness_TickPrescalerOffIsNoOp : 0 < 1 ∧ (withBytes [(0x45, 8)]).clock .t0 = .off := by
  decide

/-- An unsupported clock select in a running mode, and a frozen mode under a supported clock select. -/
theorem witness_TickUnsupportedFreezesAndWarns :
    0 < 1 ∧ (withBytes [(0x45, 6)]).clock .t0 = .unsupported ∧
      (withBytes [(0x81, 7)]).clock .t1 = .unsupported ∧
      (withBytes [(0x45, 9)]).clock .t0 ≠ .off ∧
      (withBytes [(0x45, 9)]).countKind .t0 = .frozen ∧
      (withBytes [(0x80, 1), (0x81, 0x19)]).countKind .t1 = .frozen := by decide

/-- The last cycle before a timer tick of the divisor 64. -/
theorem witness_TickBelowDivisorAccumulates :
    ((withBytes [(0x45, 3)]).clock .t0).divisor? = some 64 ∧
      (withBytes [(0x45, 3)]).countKind .t0 ≠ .frozen ∧
      ((withBytes [(0x45, 3)]).timer .t0).cycleRemainder + 63 < 64 := by decide

/-- A batch of one tick that reaches its top, and one of the same state with a counter that does not. -/
theorem witness_TickUpBatch :
    tv1.cfg.Accepted ∧ tv1.mem.wf = true ∧ (tv1.clock .t0).divisor? = some 1 ∧
      tv1.countKind .t0 = .up ∧ 1 ≤ (tv1.timer .t0).cycleRemainder + 1 ∧
      tv1.top .t0 ≤ tv1.count .t0 + 1 ∧
      ¬tv1.top .t0 ≤ readCounter config .t0 (tv1.mem.write 0x46 0xFD) + 1 := by decide

/-- T1 in mode 8 (TV13): counting up to its top, and counting down. -/
def tv13 : State := withBytes [(0x81, 0x11), (0x86, 100), (0x88, 50), (0x8A, 50), (0x84, 98)]

theorem witness_TickSymmetricBatch :
    tv13.cfg.Accepted ∧ tv13.mem.wf = true ∧ (tv13.clock .t1).divisor? = some 1 ∧
      tv13.countKind .t1 = .sym ∧ 1 ≤ (tv13.timer .t1).cycleRemainder + 1 ∧
      (tv13.timer .t1).countDown = false ∧
      (({ tv13 with t1 := { tv13.t1 with countDown := true } } : State).timer .t1).countDown = true := by decide

theorem witness_TickSignalsDetectedEvents :
    tv1.cfg.Accepted ∧ tv1.mem.wf = true ∧ 0 < 1 ∧ (tv1.clock .t0).divisor? = some 1 ∧
      tv1.countKind .t0 ≠ .frozen ∧ 1 ≤ (tv1.timer .t0).cycleRemainder + 1 ∧
      exec (.tick .t0 1) tv1 = .next (tick .t0 1 tv1) ∧ ((tick .t0 1 tv1).timer .t0).detected .overflow = true ∧
      (∀ e, 3 ≠ flagBit tv1.cfg .t0 e) := by
  refine ⟨by decide, ?_, ?_, ?_, ?_, ?_, rfl, ?_, fun e => ?_⟩ <;> (try cases e) <;> decide

/-- Two states that T0 cannot tell apart, with a tick of T0 that signals. -/
theorem witness_TickTimersIndependent :
    tv1.mem.wf = true ∧ (tv1.mem.write 0x25 7).wf = true ∧
      TimerViewEq .t0 tv1 { tv1 with mem := tv1.mem.write 0x25 7, time := ⟨5⟩ } ∧
      exec (.tick .t0 1) tv1 = .next (tick .t0 1 tv1) := by
  refine ⟨by decide, by decide, ⟨rfl, rfl, by decide, ?_⟩, rfl⟩
  intro v _
  rfl

/-- TV10. -/
theorem witness_TickCarryLaw :
    (withBytes [(0x45, 3)]).cfg.Accepted ∧ [30, 30, 30, 30, 30] ≠ [] ∧ (∀ n ∈ [30, 30, 30, 30, 30], 0 < n) ∧
      ((withBytes [(0x45, 3)]).clock .t0).divisor? = some 64 ∧
      (withBytes [(0x45, 3)]).countKind .t0 = .up ∧ (withBytes [(0x45, 3)]).mem.wf = true ∧
      (withBytes [(0x45, 3)]).count .t0 + totalTicks .t0 64 [30, 30, 30, 30, 30] (withBytes [(0x45, 3)]) <
        (withBytes [(0x45, 3)]).top .t0 := by decide

/-- Up from below top; down from above top, staying above it (R143). -/
theorem witness_TickCounterRange :
    tv1.cfg.Accepted ∧ tv13.cfg.Accepted ∧ (tv1.clock .t0).divisor? = some 1 ∧
    exec (.tick .t0 1) tv1 = .next (tick .t0 1 tv1) ∧
      tv1.countKind .t0 = .up ∧ tv13.countKind .t1 = .sym ∧
      (let s : State := { tv13 with mem := tv13.mem.write 0x84 200, t1 := { tv13.t1 with countDown := true } };
        s.top .t1 < ((tick .t1 1 s).timer .t1).counter) := by
  refine ⟨by decide, by decide, by decide, rfl, by decide, by decide, by decide⟩

theorem witness_TimerOverflowPeriod :
    (withBytes [(0x45, 3)]).cfg.Accepted ∧ (withBytes [(0x45, 3)]).mem.wf = true ∧
      ((withBytes [(0x45, 3)]).clock .t0).divisor? = some 64 ∧
      (∀ n ∈ List.replicate 3 64, n ≤ 64) ∧ ((withBytes [(0x45, 3)]).timer .t0).cycleRemainder = 0 ∧
      (withBytes [(0x45, 3)]).count .t0 = 0 ∧
      0 < (withBytes [(0x45, 3)]).top .t0 ∧
      (withBytes [(0x45, 3)]).countKind .t0 = .up ∧
      (withBytes [(0x44, 1), (0x45, 3)]).countKind .t0 = .sym ∧
      ((withBytes [(0x44, 1), (0x45, 3)]).timer .t0).countDown = false := by decide

/-- The unknown ids next to the table's. -/
theorem witness_RaiseMarksPending :
    State.reset.cfg.Accepted ∧ (∀ v, (vectorRow State.reset.cfg v).id ≠ 10) ∧
      (∀ v, (vectorRow State.reset.cfg v).id ≠ 17) ∧ State.reset.ic.vec .timer0Ovf = .idle := by
  refine ⟨by decide, fun v => ?_, fun v => ?_, by decide⟩ <;> cases v <;> decide

/-- Two vectors pending: the one with the lower number is the highest. -/
def twoPending : State :=
  { withBytes [(0x35, 0x07), (0x5F, 0x80)] with
    ic := { IcState.reset with timer0CompA := .pending, timer0Ovf := .pending, gie := true } }

theorem twoPending_highest (v : IrqVector) (h : twoPending.ic.vec v = .pending) :
    (vectorRow config .timer0CompA).priority ≤ (vectorRow config v).priority := by
  revert h
  cases v <;> decide

theorem witness_DispatchEntersHighest :
    twoPending.cfg.Accepted ∧ twoPending.ic.gie = true ∧ (∀ u, twoPending.ic.vec u ≠ .inService) ∧
    twoPending.ic.vec .timer0CompA = .pending ∧
      (∀ v, twoPending.ic.vec v = .pending →
        (vectorRow config .timer0CompA).priority ≤ (vectorRow config v).priority) ∧
      twoPending.mem.wf = true ∧ State.reset.ic.gie = false ∧
      (withVector .timer0Ovf .inService true []).ic.vec .timer0Ovf = .inService ∧
      ∀ v, (withBytes []).ic.vec v ≠ .pending := by
  refine ⟨by decide, by decide, ?_, by decide, twoPending_highest, by decide, by decide, by decide, ?_⟩ <;>
    (intro v; cases v <;> decide)

theorem witness_RetiEndsService :
    AtMostOneInService (withVector .timer0Ovf .inService true []).ic ∧
      (withVector .timer0Ovf .inService true []).ic.vec .timer0Ovf = .inService ∧
      ∀ v, State.reset.ic.vec v ≠ .inService := by
  refine ⟨?_, by decide, ?_⟩
  · intro u v
    cases u <;> cases v <;> decide
  · intro v
    cases v <;> decide

/-- A reachable state with a vector in service. -/
theorem witness_AtMostOneVectorInService :
    twoPending.cfg.Accepted ∧ ∃ s : State, Reachable s ∧ s.ic.vec .timer0Ovf = .inService :=
  ⟨by decide, _, ⟨config, [.raise 16, .setgie true, .dispatch], by decide, by decide, rfl⟩, by decide⟩

/-- A tick, a gated dispatch of either kind, a gated step of either kind, each with a vector pending. -/
theorem witness_PendingVectorsAreKept :
    twoPending.cfg.Accepted ∧ (exec (.raise 12) twoPending = .next (raise 12 twoPending) ∧
    twoPending.ic.vec .timer0Ovf = .pending) ∧
      (withVector .timer0Ovf .pending false []).ic.gie = false ∧
      (withVector .timer0Ovf .pending false []).mem.bit config.reg.sreg 7 = false ∧
      (withVector .timer0Ovf .pending false []).ic.vec .timer0Ovf = .pending ∧
      ({ twoPending.ic with timer0CompA := .inService }.vec .timer0CompA = .inService ∧
        { twoPending.ic with timer0CompA := .inService }.vec .timer0Ovf = .pending) := by
  refine ⟨by decide, ⟨rfl, ?_⟩, ?_, ?_, ?_, ?_, ?_⟩ <;> decide

theorem witness_StepDispatchesAtMostOnce :
    exec (.raise 16) twoPending = .next (raise 16 twoPending) ∧ Instr.raise 16 ≠ .dispatch ∧
      ∀ n, Instr.raise 16 ≠ .step n := ⟨rfl, by decide, fun n => by simp⟩

theorem witness_StepDispatchesInSameStep :
    twoPending.cfg.Accepted ∧ runInstrs [.timetick 1, .tick .t0 1, .tick .t1 1] twoPending =
        .next (tick .t1 1 (tick .t0 1 (timeTick 1 twoPending))) ∧
      twoPending.mem.bit config.reg.sreg 7 = true ∧ (∀ v, twoPending.ic.vec v ≠ .inService) ∧
      (tick .t1 1 (tick .t0 1 (timeTick 1 twoPending))).ic.vec .timer0CompA = .pending ∧
      ∀ v, (tick .t1 1 (tick .t0 1 (timeTick 1 twoPending))).ic.vec v = .pending →
        (vectorRow config .timer0CompA).priority ≤ (vectorRow config v).priority := by
  refine ⟨by decide, rfl, by decide, ?_, by decide, ?_⟩ <;> (intro v; cases v <;> decide)

theorem witness_ObserveRefreshesSnapshot :
    tv1.snap.wf = true ∧ exec .nowus tv1 = .next (tv1.emit (.value tv1.nowMicros)) ∧ tv1.mem.wf = true ∧ 0x25 < 0x100 :=
  ⟨by decide, rfl, by decide, by decide⟩

theorem witness_SecondObserveIsSilent :
    ∃ s t u : State, s.snap.wf = true ∧ exec .observe s = .next t ∧ u.cfg = t.cfg ∧ u.mem = t.mem ∧
    u.snap = t.snap ∧ u ≠ t := by
  obtain ⟨t, ht⟩ : ∃ t, exec .observe tv1 = .next t := ⟨_, rfl⟩
  refine ⟨tv1, t, { t with pos := t.pos + 1 }, by decide, ht, rfl, rfl, rfl, fun h => ?_⟩
  simpa using congrArg State.pos h

/-- A block in which an OBSERVE emits the falling edges of two enable lines and a change of OCR1A, with two displays
and a servo to deliver them to. -/
def threeDevices : State :=
  { withBytes ((0x25, 0x10) :: mode14 3000) with
    snap := Memory.write (Memory.write [] 0x25 0x1C) 0x86 0x40
    devs := ⟨[(1, .display display8), (2, .display { display4 with enPin := 10 }), (3, .servo (servoOn 9))], 4⟩ }

theorem witness_ObserveEmitsDifferences :
    (observedAddrs threeDevices.cfg).Nodup ∧
      bridgeEvents threeDevices =
        [.pinChange 10 false 0, .pinChange 11 false 0, .regChange 0x86 0x40 40000, .regChange 0x88 0 3000] := by
  decide +kernel

/-- The delivery of an event stands right after the event: the display's notification comes before the servo's events.
-/
theorem test_observe_delivers :
    see .observe threeDevices (fun t => (t.out.map Event.isNotify, (t.servo? 3).map ServoState.targetAngle,
      (t.display? 1).map DisplayState.cursor, (t.display? 2).map DisplayState.expectingHighNibble)) =
      some ([false, false, true, false, false], some 90, some ⟨0, 1⟩, some false) := by decide +kernel

theorem witness_ObserveFrame :
    0x46 ∉ observedAddrs config ∧ (withBoth display4 (servoOn 9)).display? 1 = some display4 ∧
      (withBoth display4 (servoOn 9)).servo? 2 = some (servoOn 9) := by decide +kernel

theorem handlesRise_withDevice (d : Device) (cells : List (Nat × Nat)) : HandlesRise (withDevice d cells) :=
  List.pairwise_singleton _ _

theorem witness_FallingEdgeLatchesDisplays :
    HandlesRise (withDevice (.display display4) []) ∧ (withDevice (.display display4) []).display? 1 = some display4 ∧
      display4.enPin ≠ 7 ∧ display4.enPin = 11 ∧ display4.bitMode = .four ∧ display4.expectingHighNibble = true ∧
      HandlesRise (withDevice (.display { display4 with expectingHighNibble := false }) []) ∧
      (withDevice (.display { display4 with expectingHighNibble := false }) []).display? 1 =
        some { display4 with expectingHighNibble := false } ∧
      HandlesRise (withDevice (.display display8) []) ∧ (withDevice (.display display8) []).display? 1 = some display8 ∧
      display8.enPin = 11 ∧ display8.bitMode = .eight := by
  refine ⟨handlesRise_withDevice _ _, ?_, ?_, ?_, ?_, ?_, handlesRise_withDevice _ _, ?_,
    handlesRise_withDevice _ _, ?_,
    ?_, ?_⟩ <;> decide

/-- Serves the statements whose only hypothesis is a registered display: `ClearAndHomeBlankDisplay`,
`DisplayControlSetsFlags`, `UnknownDisplayByteWarns`. -/
theorem witness_DisplayRegistered : (withDevice (.display display4) []).display? 1 = some display4 := by decide

/-- Rows of 16 columns: the first and the last address of each row, and the addresses beside them; rows of 40 columns,
where the third row overlaps the second. -/
theorem witness_SetDdramAddressMovesCursor :
    (withDevice (.display display4) []).display? 1 = some display4 ∧ display4.rows ≤ 4 ∧
      (∀ a ∈ [0x00, 0x0F], ([0x00, 0x40, 16, 0x50].getD 0 0 : Nat) ≤ a ∧ a < [0x00, 0x40, 16, 0x50].getD 0 0 + 16) ∧
      (∀ a ∈ [0x40, 0x4F], ([0x00, 0x40, 16, 0x50].getD 1 0 : Nat) ≤ a ∧ a < [0x00, 0x40, 16, 0x50].getD 1 0 + 16 ∧
        ¬a < 16) ∧
      (∀ a ∈ [0x10, 0x3F, 0x50, 0x7F], ∀ r ∈ [0, 1],
        ¬([0x00, 0x40, 16, 0x50].getD r 0 ≤ a ∧ a < [0x00, 0x40, 16, 0x50].getD r 0 + 16)) ∧
      (let o : List Nat := [0x00, 0x40, 40, 0x40 + 40];
        (o.getD 1 0 ≤ 0x40 ∧ 0x40 < o.getD 1 0 + 40) ∧ (o.getD 2 0 ≤ 0x40 ∧ 0x40 < o.getD 2 0 + 40)) := by decide

theorem displayInv_display4 : DisplayInv config display4 := by
  constructor <;> decide

/-- A cell inside a row; the last cell of a row, wrapping and clamping; the last cell of the last row. -/
theorem witness_WriteDataStoresAndAdvances :
    (withDevice (.display display4) []).display? 1 = some display4 ∧ DisplayInv config display4 ∧
      display4.cursor.col + 1 < display4.cols ∧ DisplayInv config { display4 with cursor := ⟨1, 15⟩ } ∧
      ({ display4 with cursor := ⟨1, 15⟩ } : DisplayState).cursor.col + 1 = display4.cols ∧
      ({ display4 with cursor := ⟨1, 15⟩ } : DisplayState).addressing = .wrap ∧
      DisplayInv config { display4 with cursor := ⟨0, 15⟩, addressing := .clamp } := by
  refine ⟨by decide, displayInv_display4, by decide, ?_, by decide, by decide, ?_⟩ <;> (constructor <;> decide)

theorem witness_DisplayBytesFrame :
    Instr.source (.lcdWriteData 1 0x48) = .lines 1 true ∧ Instr.source (.lcdClear 1) = .lines 1 false ∧
      (withDevice (.display display4) []).display? 1 = some display4 ∧ 1 ≠ 2 ∧ State.reset.display? 1 = none := by
    decide

/-- A servo without a channel; a trigger of another register, with which nothing changes; a frozen mode and a top of 0;
pulse widths at the ends of the plausible range and beside them. -/
theorem witness_RegChangeDecodesPulse :
    (∀ ocr ∈ [1398, 1400, 5000, 5002],
      let s := withDevice (.servo (servoOn 9)) (mode14 ocr);
      s.servo? 1 = some (servoOn 9) ∧ (servoOn 9).channel = some ⟨.t1, .a⟩ ∧ 0 < s.top .t1 ∧
        s.countKind .t1 ≠ .frozen ∧ 0x88 = compareReg s.cfg .t1 .a ∧
        topSourceAddr s.cfg .t1 (s.mode .t1) = some 0x86 ∧
        0x48 ≠ compareReg s.cfg .t1 .a ∧ topSourceAddr s.cfg .t1 (s.mode .t1) ≠ some 0x48) ∧
      [1398, 1400, 5000, 5002].map (fun ocr => (2 * ocr * 20000 + 40000) / (2 * 40000)) = [699, 700, 2500, 2501] ∧
      (servoOn 3).channel = none ∧ (modeTable .t1 13).kind = .frozen ∧ topValue config .t1 14 [] = 0 ∧
      HandlesRise (withDevice (.servo (servoOn 9)) (mode14 1398)) := by
  refine ⟨by decide +kernel, by decide, by decide, by decide, by decide, handlesRise_withDevice _ _⟩

theorem witness_ServoEngineFrame : (withBoth display4 (servoOn 9)).servo? 2 = some (servoOn 9) := by decide +kernel

/-- A servo that stands at its target (0 degrees) with the given parts changed. -/
def motionCase (current target deadband torque load : ℚ) : ServoState :=
  { servoOn 9 with
    currentAngle := current, targetAngle := target, deadbandDeg := deadband, maxTorque := torque, loadWeight := load,
    armLength := 1, lastNotifiedAngle := current }

/-- The servo of `motionCase` in a block whose time is 20 000 microseconds. -/
def motionBlock (V : ServoState) : State := { withDevice (.servo V) [] with time := ⟨320000⟩ }

/-- A torque just above its limit (stalled) and at it (not stalled); an error of 0, and one below the deadband; an error
at the deadband, whose move to the target is notified; a speed of 0, whose update does not notify. -/
theorem witness_MotionUpdatesEveryServo :
    (∀ V, HandlesRise (motionBlock V)) ∧
      (motionBlock (motionCase 0 180 1 1 2)).servo? 1 = some (motionCase 0 180 1 1 2) ∧
      Stalls (motionCase 0 180 1 1 2) ∧ ¬Stalls (motionCase 0 180 1 1 1) ∧
      (∀ V ∈ [motionCase 90 90 1 0 0, motionCase 90 (181 / 2) 1 0 0], ¬Stalls V ∧ ¬Moves V) ∧
      (Moves (motionCase 90 91 1 0 0) ∧ Notifies config 20000 (motionCase 90 91 1 0 0)) ∧
      (let V := { motionCase 0 180 1 0 0 with speedDegPerSec := 0 };
        Moves V ∧ ¬Notifies config 20000 V) ∧
      320000 * 1000000 / (motionBlock (servoOn 9)).cfg.fCpu = 20000 := by
  refine ⟨fun V => List.pairwise_singleton _ _, ?_, ?_, ?_, ?_, ?_, ?_, ?_⟩ <;> decide +kernel

/-- A block with one servo at 0 degrees and its target at 180 meets the invariant. -/
def movingServo : State := withDevice (.servo { servoOn 9 with targetAngle := 180 }) []

theorem movingServo_inv : movingServo.Inv := by
  refine ⟨by decide, ⟨by decide, by decide, by decide, by decide⟩, by constructor <;> decide,
    by constructor <;> decide, ?_, ?_⟩
  · intro u v
    cases u <;> cases v <;> decide
  · refine ⟨by decide, by decide, by decide, ?_⟩
    intro e he
    obtain rfl : e = (1, .servo { servoOn 9 with targetAngle := 180 }) := by simpa [movingServo, withDevice] using he
    constructor <;> decide +kernel

theorem witness_MotionNeverOvershoots :
    movingServo.Inv ∧ movingServo.servo? 1 = some { servoOn 9 with targetAngle := 180 } ∧
      exec .motion movingServo = .next (motion movingServo) ∧ (0 : ℚ) ≤ 180 :=
  ⟨movingServo_inv, by decide +kernel, rfl, by decide +kernel⟩

theorem witness_CurrentAngleSingleWriter :
    exec (.regchange 0x88 0 0) movingServo = .next (regChange 0x88 movingServo) ∧
      movingServo.servo? 1 = some { servoOn 9 with targetAngle := 180 } ∧
      ((regChange 0x88 movingServo).servo? 1).isSome = true := ⟨rfl, by decide +kernel, by decide +kernel⟩

theorem witness_ServoConverges :
    movingServo.Inv ∧ movingServo.servo? 1 = some { servoOn 9 with targetAngle := 180 } ∧
      ¬(0 < (servoOn 9).maxTorque ∧ (servoOn 9).maxTorque < (servoOn 9).loadWeight * (servoOn 9).armLength) ∧
      0 < (servoOn 9).speedDegPerSec ∧
      ∀ bound : Nat, ∃ n, bound ≤ ((List.range n).map fun _ => 320000).sum := by
  refine ⟨movingServo_inv, by decide +kernel, by decide +kernel, by decide +kernel, fun bound => ⟨bound, ?_⟩⟩
  simp
  omega

/-- The ends of the accepted ranges, and the values beside them; the registry's handles below the next. -/
theorem witness_RegisterDisplayCommand :
    (∀ e ∈ State.reset.devs.entries, e.1 < State.reset.devs.nextHandle) ∧ [0, 3, 4, 19].length = 4 ∧
      (let board := State.reset.cfg.pinMap.map PinRow.pin;
        (∀ g ∈ [(19, 0, 1, 1), (0, 19, 4, 40)], g.1 ∈ board ∧ g.2.1 ∈ board ∧ (∀ p ∈ [0, 3, 4, 19], p ∈ board) ∧
          1 ≤ g.2.2.1 ∧ g.2.2.1 ≤ 4 ∧ 1 ≤ g.2.2.2 ∧ g.2.2.2 ≤ 40) ∧
        20 ∉ board ∧ ¬(∀ p ∈ [0, 3, 4, 20], p ∈ board)) ∧ ¬5 ≤ 4 ∧ ¬41 ≤ 40 := by decide

theorem witness_RegisterServoCommand :
    (∀ e ∈ State.reset.devs.entries, e.1 < State.reset.devs.nextHandle) ∧
      (19 ∈ State.reset.cfg.pinMap.map PinRow.pin ∧ 0 < 1 ∧ 180000 ≤ 180000) ∧
      20 ∉ State.reset.cfg.pinMap.map PinRow.pin ∧ ¬0 < 0 ∧ ¬180001 ≤ 180000 := by decide

theorem witness_UnregisterAndSetLoad :
    movingServo.servo? 1 = some { servoOn 9 with targetAngle := 180 } ∧ movingServo.device? 2 = none ∧
      movingServo.servo? 2 = none ∧ (withDevice (.display display4) []).servo? 1 = none := by decide +kernel

/-- Serves `MemWriteStoresByte` and `Set16WritesRegister`: the last byte, and the last word. -/
theorem witness_MemWriteStoresByte : tv1.mem.wf = true ∧ 0xFF < 0x100 ∧ 0xFE + 1 < 0x100 ∧ 0xFFFF < 65536 := by decide

theorem witness_BlockWritesOnlyTimerBytes :
    exec (.tick .t0 1) tv1 = .next (tick .t0 1 tv1) ∧ (∀ v, Instr.tick .t0 1 ≠ .memwrite 0x45 v) ∧
      0x45 ∉ [0x46, 0x84, 0x85, 0x35, 0x36] ∧
      (tv1.mem.wf = true ∧ (tv1.mem.write 0x26 0xFF).wf = true ∧ tv1.mem.write 0x26 0xFF ≠ tv1.mem ∧
        ∀ a ∈ tv1.cfg.reg.bytes, (tv1.mem.write 0x26 0xFF).read a = tv1.mem.read a) :=
  ⟨rfl, fun v => by simp, by decide, by decide⟩

theorem witness_HistoryOnlyGrows :
    exec (.regdisplay 12 11 [2, 3, 4, 5] 2 16 .wrap) State.reset =
        .next (registerDisplay 12 11 [2, 3, 4, 5] 2 16 .wrap State.reset) ∧
      (registerDisplay 12 11 [2, 3, 4, 5] 2 16 .wrap State.reset).device? 1 = some (.display display4) ∧
      State.reset.device? 1 = none := ⟨rfl, by decide, by decide⟩

theorem witness_EveryOperationCompletes : Instr.WellFormed config (.memwrite 0xFF 0) ∧
    Instr.WellFormed config (.step 0xFFFFFFFF) := by
  decide

theorem witness_StepKeepsInvariant : ({ movingServo with stream := [0x04] } : State).Inv ∧
    step { movingServo with stream := [0x04] } = .next (motion { movingServo with stream := [], pos := 1 }) := by
  obtain ⟨z, ⟨a, b, c, d⟩, e, f, g, h⟩ := movingServo_inv
  exact ⟨⟨z, ⟨a, b, c, d⟩, e, f, g, h⟩, rfl⟩

end Sys2Proof.Tests
end

section
/-! PROOFS. No operation takes history back (R48, R270, R276, R282, R342): the parameters stand, output and time only
grow, and a handle is issued once. All operations but RESET and the two registrations obey the relation
`RegistersNothing`, which composes; a registration is at most a warning and one new entry. -/

namespace Sys2Proof.Machine

/-! ## Handles of the registry -/

/-- A handle finds no device exactly when no entry has it. -/
theorem lookupDevice_eq_none_iff {es : List (Nat × Device)} {k : Nat} :
    lookupDevice es k = none ↔ k ∉ es.map Prod.fst := by
  induction es with
  | nil => simp [lookupDevice]
  | cons e es ih => by_cases hk : k = e.1 <;> simp [lookupDevice, hk, ih]

/-- Where no handle is added, a handle that names no device goes on naming none. -/
theorem State.device?_eq_none_of_handles_subset {s t : State}
    (hs : t.devs.entries.map Prod.fst ⊆ s.devs.entries.map Prod.fst) {k : Nat} (hk : s.device? k = none) :
    t.device? k = none :=
  lookupDevice_eq_none_iff.mpr fun hm => lookupDevice_eq_none_iff.mp hk (hs hm)

/-! ## Operations that register nothing -/

/-- The parameters stand, output and time do not go back, no handle is issued and no entry is added. -/
structure RegistersNothing (s t : State) : Prop where
  cfg : t.cfg = s.cfg
  grows : OutputGrows s t
  time : s.time.totalCycles ≤ t.time.totalCycles
  nextHandle : t.devs.nextHandle = s.devs.nextHandle
  handles : t.devs.entries.map Prod.fst ⊆ s.devs.entries.map Prod.fst

/-- Nothing but register memory, the snapshot, the timers and the interrupt controller may differ. -/
theorem RegistersNothing.of_eq {s t : State} (hc : t.cfg = s.cfg) (ho : t.out = s.out) (ht : t.time = s.time)
    (hd : t.devs = s.devs) : RegistersNothing s t :=
  ⟨hc, .of_eq ho, by rw [ht], by rw [hd], by rw [hd]; exact List.Subset.refl _⟩

theorem RegistersNothing.refl (s : State) : RegistersNothing s s := .of_eq rfl rfl rfl rfl

theorem RegistersNothing.trans {s t u : State} (h : RegistersNothing s t) (k : RegistersNothing t u) :
    RegistersNothing s u :=
  ⟨k.cfg.trans h.cfg, h.grows.trans k.grows, h.time.trans k.time, k.nextHandle.trans h.nextHandle,
    List.Subset.trans k.handles h.handles⟩

/-- What the device engines do: device records and output only. -/
theorem OnlyDevices.registersNothing {s t : State} (h : OnlyDevices s t) (hg : OutputGrows s t) :
    RegistersNothing s t :=
  ⟨h.cfg, hg, by rw [h.time], h.nextHandle, by rw [h.handles]; exact List.Subset.refl _⟩

theorem RegistersNothing.emit (s : State) (e : Event) : RegistersNothing s (s.emit e) :=
  (OnlyDevices.emit s e).registersNothing (.emit s e)

theorem RegistersNothing.warn (s : State) (w : Warning) : RegistersNothing s (s.warn w) := .emit s _

theorem DisplayStep.registersNothing {s t : State} (h : DisplayStep s t) : RegistersNothing s t :=
  h.only.registersNothing h.grows

theorem ServoStep.registersNothing {R : ServoState → ServoState → Prop} {s t : State} (h : ServoStep R s t) :
    RegistersNothing s t :=
  h.only.registersNothing h.grows

theorem TimerStep.registersNothing {x : TimerId} {s t : State} (h : TimerStep x s t) : RegistersNothing s t :=
  ⟨h.cfg, h.grows, by rw [h.time], by rw [h.devs], by rw [h.devs]; exact List.Subset.refl _⟩

theorem Observation.registersNothing {regs : List ObservedReg} {s t : State} (h : Observation regs s t) :
    RegistersNothing s t :=
  ⟨h.cfg, h.grows, by rw [h.time], h.nextHandle, by rw [h.handles]; exact List.Subset.refl _⟩

theorem timeTick_registersNothing (n : Nat) (s : State) : RegistersNothing s (timeTick n s) :=
  ⟨rfl, .of_eq rfl, Nat.le_add_right _ n, rfl, List.Subset.refl _⟩

theorem setGie_registersNothing (b : Bool) (s : State) : RegistersNothing s (setGie b s) := .of_eq rfl rfl rfl rfl

theorem raise_registersNothing (id : Nat) (s : State) : RegistersNothing s (raise id s) := by
  unfold raise
  split
  · exact .warn s _
  · rw [raiseVector_eq]
    exact .of_eq rfl rfl rfl rfl

theorem takeInterrupt_registersNothing (v : IrqVector) (s : State) : RegistersNothing s (takeInterrupt v s) :=
  ⟨rfl, ⟨_, takeInterrupt_out v s⟩, le_refl _, rfl, List.Subset.refl _⟩

theorem dispatchPending_registersNothing (s : State) : RegistersNothing s (dispatchPending s) := by
  rcases dispatchPending_cases s with ⟨h, -⟩ | ⟨-, -, w, -, -, h⟩ <;> rw [h]
  · exact .refl s
  · exact takeInterrupt_registersNothing w s

theorem returnFromInterrupt_registersNothing (s : State) : RegistersNothing s (returnFromInterrupt s) := by
  rcases returnFromInterrupt_cases s with ⟨h, -⟩ | ⟨u, -, h⟩ <;> rw [h]
  · exact .refl s
  · exact .of_eq rfl rfl rfl rfl

/-- The step is the sequence of R272, and none of its operations registers a device. -/
theorem stepCycles_registersNothing (n : Nat) (s : State) : RegistersNothing s (stepCycles n s) :=
  (timeTick_registersNothing n s).trans <|
    (tick_step .t0 n _).registersNothing.trans <|
    (tick_step .t1 n _).registersNothing.trans <|
    (setGie_registersNothing _ _).trans <|
    (dispatchPending_registersNothing _).trans (observe_observation _).registersNothing

theorem removeDevice_registersNothing (h : Nat) (s : State) : RegistersNothing s (s.removeDevice h) :=
  ⟨rfl, .of_eq rfl, le_refl _, rfl, List.map_subset _ (List.filter_subset_self _)⟩

theorem setLoad_registersNothing (h load arm : Nat) (s : State) : RegistersNothing s (setLoad h load arm s) := by
  rcases setLoad_cases h load arm s with ⟨-, he⟩ | ⟨V, -, he⟩ <;> rw [he]
  · exact .refl s
  · exact (OnlyDevices.setDevice s h _).registersNothing (.of_eq rfl)

/-! ## Registrations -/

/-- What every operation but RESET does to the history of the block: as `RegistersNothing`, but that the next handle
may be issued to a new device. -/
structure HistoryStep (s t : State) : Prop where
  cfg : t.cfg = s.cfg
  grows : OutputGrows s t
  time : s.time.totalCycles ≤ t.time.totalCycles
  nextHandle : s.devs.nextHandle ≤ t.devs.nextHandle
  fresh : ∀ h d, t.device? h = some d → s.device? h = none → h = s.devs.nextHandle ∧ h < t.devs.nextHandle

theorem RegistersNothing.historyStep {s t : State} (h : RegistersNothing s t) : HistoryStep s t := by
  refine ⟨h.cfg, h.grows, h.time, h.nextHandle.ge, fun k d hd hk => ?_⟩
  simp [State.device?_eq_none_of_handles_subset h.handles hk] at hd

/-- A registration issues the next handle and moves it on (R48). -/
theorem addDevice_historyStep (d : Device) (s : State) : HistoryStep s (s.addDevice d) := by
  refine ⟨rfl, ⟨_, State.addDevice_out s d⟩, le_refl _, Nat.le_succ _, fun k e he hk => ?_⟩
  rw [State.device?_addDevice, hk, Option.none_or] at he
  have hnext : k = s.devs.nextHandle := by
    by_contra hne
    simp [hne] at he
  exact ⟨hnext, by simp [hnext]⟩

/-- What registers nothing may come before a step of the history. -/
theorem RegistersNothing.trans_historyStep {s t u : State} (h : RegistersNothing s t) (k : HistoryStep t u) :
    HistoryStep s u := by
  refine ⟨k.cfg.trans h.cfg, h.grows.trans k.grows, h.time.trans k.time, h.nextHandle ▸ k.nextHandle,
    fun j d hd hj => ?_⟩
  rw [← h.nextHandle]
  exact k.fresh j d hd (State.device?_eq_none_of_handles_subset h.handles hj)

theorem registerDisplay_historyStep (rs en : Nat) (d : List Nat) (rows cols : Nat) (mode : Addressing) (s : State) :
    HistoryStep s (registerDisplay rs en d rows cols mode s) := by
  rcases registerDisplay_cases rs en d rows cols mode s with ⟨-, h⟩ | ⟨-, h⟩ <;> rw [h]
  · exact addDevice_historyStep _ s
  · exact (RegistersNothing.warn s _).historyStep

/-- REGSERVO warns and ends, or registers a servo, after a warning if the pin has no channel (R281, R284). -/
theorem registerServo_historyStep (pin speed deadband maxTorque load arm period initAngle : Nat) (s : State) :
    HistoryStep s (registerServo pin speed deadband maxTorque load arm period initAngle s) := by
  simp only [registerServo]
  split
  · refine RegistersNothing.trans_historyStep ?_ (addDevice_historyStep _ _)
    split
    · exact .warn s _
    · exact .refl s
  · exact (RegistersNothing.warn s _).historyStep

/-! ## Every instruction -/

/-- The next state of an instruction is the one that its equation names. -/
theorem HistoryStep.of_exec {i : Instr} {s t u : State} (hu : HistoryStep s u) (he : exec i s = .next u)
    (h : exec i s = .next t) : HistoryStep s t := by
  rw [he, Host.Outcome.next.injEq] at h
  exact h ▸ hu

theorem RegistersNothing.of_exec {i : Instr} {s t u : State} (hu : RegistersNothing s u) (he : exec i s = .next u)
    (h : exec i s = .next t) : HistoryStep s t :=
  hu.historyStep.of_exec he h

theorem exec_historyStep {i : Instr} {s t : State} (hi : i ≠ .reset) (h : exec i s = .next t) : HistoryStep s t := by
  cases i with
  | reset => exact absurd rfl hi
  | step n => exact (stepCycles_registersNothing n s).of_exec (exec_step s n) h
  | memwrite a v =>
    obtain ⟨-, rfl⟩ := exec_memwrite_next h
    exact RegistersNothing.historyStep (.of_eq rfl rfl rfl rfl)
  | motion => exact (motion_step s).registersNothing.of_exec (exec_motion s) h
  | tick x n => exact (tick_step x n s).registersNothing.of_exec (exec_tick s x n) h
  | raise v => exact (raise_registersNothing v s).of_exec (exec_raise s v) h
  | setgie b => exact (setGie_registersNothing b s).of_exec (exec_setgie s b) h
  | dispatch => exact (dispatchPending_registersNothing s).of_exec (exec_dispatch s) h
  | reti => exact (returnFromInterrupt_registersNothing s).of_exec (exec_reti s) h
  | observe => exact (observe_observation s).registersNothing.of_exec (exec_observe s) h
  | pinchange pin level ts =>
    exact (pinChange_step pin level s).registersNothing.of_exec (exec_pinchange s pin level ts) h
  | regchange a old new => exact (regChange_step a s).registersNothing.of_exec (exec_regchange s a old new) h
  | regdisplay rs en d rows cols mode =>
    exact (registerDisplay_historyStep rs en d rows cols mode s).of_exec (exec_regdisplay s rs en d rows cols mode) h
  | regservo pin speed deadband maxTorque load arm period initAngle =>
    exact (registerServo_historyStep pin speed deadband maxTorque load arm period initAngle s).of_exec
      (exec_regservo s pin speed deadband maxTorque load arm period initAngle) h
  | unreg k => exact (removeDevice_registersNothing k s).of_exec (exec_unreg s k) h
  | setload k load arm => exact (setLoad_registersNothing k load arm s).of_exec (exec_setload s k load arm) h
  | timetick n => exact (timeTick_registersNothing n s).of_exec (exec_timetick s n) h
  | nowus => exact (RegistersNothing.emit s _).of_exec (exec_nowus s) h
  | nowms => exact (RegistersNothing.emit s _).of_exec (exec_nowms s) h
  | lcdUnknown k => exact (warnOnDisplay_step k _ s).registersNothing.of_exec (exec_lcdUnknown s k) h
  | lcdClear k => exact (onDisplay_step k clearDisplay_config s).registersNothing.of_exec (exec_lcdClear s k) h
  | lcdHome k x => exact (onDisplay_step k clearDisplay_config s).registersNothing.of_exec (exec_lcdHome s k x) h
  | lcdEntryModeSet k inc shift => exact (RegistersNothing.refl s).of_exec (exec_lcdEntryModeSet s k inc shift) h
  | lcdDisplayControl k d c b =>
    exact (onDisplay_step k (controlDisplay_config d c b) s).registersNothing.of_exec
      (exec_lcdDisplayControl s k d c b) h
  | lcdCursorDisplayShift k sc rl x =>
    exact (RegistersNothing.refl s).of_exec (exec_lcdCursorDisplayShift s k sc rl x) h
  | lcdFunctionSet k dl n f x => exact (RegistersNothing.refl s).of_exec (exec_lcdFunctionSet s k dl n f x) h
  | lcdSetCgramAddress k a => exact (RegistersNothing.refl s).of_exec (exec_lcdSetCgramAddress s k a) h
  | lcdSetDdramAddress k a =>
    exact (setDdramAddress_step k a.toNat s).registersNothing.of_exec (exec_lcdSetDdramAddress s k a) h
  | lcdWriteData k c =>
    exact (onDisplay_step k (writeChar_config c) s).registersNothing.of_exec (exec_lcdWriteData s k c) h

/-- Settles O58: RESET alone sets the time back, and keeps the rest of the history; every other instruction is a
`HistoryStep`. -/
theorem historyOnlyGrows : Obligations.HistoryOnlyGrows := by
  intro i s t h
  by_cases hi : i = .reset
  · subst hi
    rw [exec_reset, Host.Outcome.next.injEq] at h
    subst h
    refine ⟨resetBlock_cfg s, .of_eq (resetBlock_out s), fun hne => absurd rfl hne, by simp, fun k d hd hk => ?_⟩
    simp [resetBlock_device?, hk] at hd
  · obtain ⟨hcfg, hgrows, htime, hnext, hfresh⟩ := exec_historyStep hi h
    exact ⟨hcfg, hgrows, fun _ => htime, hnext, hfresh⟩

end Sys2Proof.Machine
end

section
/-! PROOFS. What the invariant asks of the devices and of the decoded commands (R48, R50, R55, R104): every operation of
the two device engines keeps every device well configured and in range, and a decoded command has legal operands. -/

namespace Sys2Proof.Machine

/-! ## Devices in range -/

/-- Every registered device meets its invariant (R50, R55, R220, R255). -/
def DevicesInv (s : State) : Prop := ∀ e ∈ s.devs.entries, DeviceInv s.cfg e.2

theorem DevicesInv.emit {s : State} (h : DevicesInv s) (e : Event) : DevicesInv (s.emit e) := h

theorem DevicesInv.warn {s : State} (h : DevicesInv s) (w : Warning) : DevicesInv (s.warn w) := h

theorem DevicesInv.setDevice {s : State} (h : DevicesInv s) {d : Device} (hd : DeviceInv s.cfg d) (k : Nat) :
    DevicesInv (s.setDevice k d) := by
  intro e he
  rcases State.mem_setDevice he with he | rfl
  · exact h e he
  · exact hd

theorem DevicesInv.display {s : State} (h : DevicesInv s) {k : Nat} {D : DisplayState} (hD : s.display? k = some D) :
    DisplayInv s.cfg D := h _ (mem_of_lookupDevice (State.display?_eq_some.mp hD))

theorem DevicesInv.servo {s : State} (h : DevicesInv s) {k : Nat} {V : ServoState} (hV : s.servo? k = some V) :
    ServoInv s.cfg V := h _ (mem_of_lookupDevice (State.servo?_eq_some.mp hV))

/-! ## What a byte does to a display stays in range (R220) -/

theorem blankBuffer_length (rows cols : Nat) : (blankBuffer rows cols).length = rows := List.length_replicate

theorem blankBuffer_row_length {rows cols : Nat} {r : List Byte} (hr : r ∈ blankBuffer rows cols) :
    r.length = cols := by
  rw [List.eq_of_mem_replicate hr, List.length_replicate]

section
variable {c : Config} {D : DisplayState} (h : DisplayInv c D)
include h

theorem clearDisplay_inv : DisplayInv c (clearDisplay D) :=
  { h with
    buffer_rows := blankBuffer_length _ _, buffer_cols := fun _ hr => blankBuffer_row_length hr
    cursor_row := h.rows_pos, cursor_col := h.cols_pos }

theorem controlDisplay_inv (d cu b : Bool) : DisplayInv c (controlDisplay d cu b D) := { h with }

theorem moveCursor_inv {pos : Cursor} (hr : pos.row < D.rows) (hc : pos.col < D.cols) :
    DisplayInv c (moveCursor pos D) := { h with cursor_row := hr, cursor_col := hc }

theorem resetDisplay_inv : DisplayInv c (resetDisplay D) :=
  { h with
    buffer_rows := blankBuffer_length _ _, buffer_cols := fun _ hr => blankBuffer_row_length hr
    cursor_row := h.rows_pos, cursor_col := h.cols_pos }

theorem advanceCursor_inv : DisplayInv c (advanceCursor D) := by
  unfold advanceCursor
  split
  · next hcol => exact { h with cursor_col := hcol }
  · split
    · exact { h with cursor_row := Nat.mod_lt _ h.rows_pos, cursor_col := h.cols_pos }
    · exact h

/-- Writing a cell keeps the geometry of the buffer. -/
theorem writeCell_inv (b : Byte) : DisplayInv c { D with buffer := writeCell D.buffer D.cursor b } := by
  refine { h with buffer_rows := ?_, buffer_cols := ?_ }
  · simp only [writeCell, List.length_modify, h.buffer_rows]
  · intro r hr
    obtain ⟨i, hi, rfl⟩ := List.getElem_of_mem hr
    have hrow : D.buffer[i]'(by simpa [writeCell] using hi) ∈ D.buffer := List.getElem_mem _
    simp only [writeCell, List.getElem_modify]
    split
    · rw [List.length_set, h.buffer_cols _ hrow]
    · exact h.buffer_cols _ hrow

theorem writeChar_inv (b : Byte) : DisplayInv c (writeChar b D) := advanceCursor_inv (writeCell_inv h b)

end

/-- A DDRAM address names a position inside the display (R109). -/
theorem addrToPos_inside {rows cols a : Nat} {pos : Cursor} (h : addrToPos rows cols a = some pos) :
    pos.row < rows ∧ pos.col < cols := by
  obtain ⟨r, hr, rfl⟩ := Option.map_eq_some_iff.mp h
  have hin := List.find?_some hr
  have hrow := List.mem_range.mp (List.mem_of_find?_eq_some hr)
  simp only [Bool.and_eq_true, decide_eq_true_eq] at hin
  exact ⟨hrow, by dsimp only; omega⟩

theorem onDisplay_devicesInv {s : State} (h : DevicesInv s) (k : Nat) {f : DisplayState → DisplayState}
    (hf : ∀ D, s.display? k = some D → DisplayInv s.cfg (f D)) : DevicesInv (onDisplay k f s) := by
  cases hD : s.display? k with
  | none => rwa [onDisplay_none hD]
  | some D =>
    have hset : DevicesInv (s.setDevice k (.display (f D))) := h.setDevice (d := .display (f D)) (hf D hD) k
    rw [onDisplay_some hD]
    split
    · exact hset
    · exact hset.emit _

theorem warnOnDisplay_devicesInv {s : State} (h : DevicesInv s) (k : Nat) (w : Warning) :
    DevicesInv (warnOnDisplay k w s) := by
  unfold warnOnDisplay
  split
  · exact h
  · exact h.warn w

theorem setDdramAddress_devicesInv {s : State} (h : DevicesInv s) (k a : Nat) :
    DevicesInv (setDdramAddress k a s) := by
  unfold setDdramAddress
  split
  · exact h
  · next D hD =>
    split
    · exact warnOnDisplay_devicesInv h k _
    · next pos hpos =>
      obtain ⟨hr, hc⟩ := addrToPos_inside hpos
      refine onDisplay_devicesInv h k fun E hE => ?_
      obtain rfl : D = E := Option.some.inj (hD.symm.trans hE)
      exact moveCursor_inv (h.display hD) hr hc

theorem dispatchByte_devicesInv {s : State} (h : DevicesInv s) (k : Nat) (rs : Bool) (b : Byte) :
    DevicesInv (dispatchByte k rs b s) := by
  unfold dispatchByte
  cases decodeDisplayByte rs b with
  | unknown => exact warnOnDisplay_devicesInv h k _
  | clear => exact onDisplay_devicesInv h k fun _ hD => clearDisplay_inv (h.display hD)
  | home x => exact onDisplay_devicesInv h k fun _ hD => clearDisplay_inv (h.display hD)
  | entryModeSet id sh => exact h
  | displayControl d c b => exact onDisplay_devicesInv h k fun _ hD => controlDisplay_inv (h.display hD) d c b
  | cursorDisplayShift sc rl x => exact h
  | functionSet dl n f x => exact h
  | setCgramAddress a => exact h
  | setDdramAddress a => exact setDdramAddress_devicesInv h k _
  | writeData c => exact onDisplay_devicesInv h k fun _ hD => writeChar_inv (h.display hD) c

theorem assemble_devicesInv {s : State} (h : DevicesInv s) {k : Nat} {D : DisplayState} (hD : DisplayInv s.cfg D)
    (rs : Bool) (v : BitVec 4) : DevicesInv (assemble k D rs v s) := by
  have hset (n : BitVec 4) (b : Bool) :
      DevicesInv (s.setDevice k (.display { D with pendingNibble := n, expectingHighNibble := b })) :=
    h.setDevice (d := .display { D with pendingNibble := n, expectingHighNibble := b }) { hD with } k
  unfold assemble
  split
  · exact hset v false
  · exact dispatchByte_devicesInv (hset D.pendingNibble true) k rs _

theorem latch_devicesInv {s : State} (h : DevicesInv s) (k : Nat) : DevicesInv (latch k s) := by
  unfold latch
  split
  · exact h
  · next D hD =>
    dsimp only
    split
    · exact dispatchByte_devicesInv h k _ _
    · exact assemble_devicesInv h (h.display hD) _ _

theorem pinChange_devicesInv {s : State} (h : DevicesInv s) (pin : Nat) (level : Bool) :
    DevicesInv (pinChange pin level s) := by
  unfold pinChange
  split
  · exact h
  · exact foldl_keeps DevicesInv _ (fun _ k hs => latch_devicesInv hs k) _ s h

/-! ## The angles of a servo stay in range (R255) -/

theorem motionUpdate_inv {c : Config} {V : ServoState} (h : ServoInv c V) (now : Nat) :
    ServoInv c (motionUpdate c now V) := by
  refine { h with current_range := ?_ }
  simp only [motionUpdate]
  split
  · exact h.current_range
  · exact movedAngle_range V _

theorem resetServo_inv {c : Config} {V : ServoState} (h : ServoInv c V) : ServoInv c (resetServo V) :=
  { h with
    load_nonneg := h.initialLoad_nonneg, arm_nonneg := h.initialArm_nonneg
    current_range := h.initial_range, target_range := h.initial_range }

theorem motionServo_devicesInv {s : State} (h : DevicesInv s) (now k : Nat) : DevicesInv (motionServo now k s) := by
  unfold motionServo
  split
  · exact h
  · next V hV =>
    have hset : DevicesInv (s.setDevice k (.servo (motionUpdate s.cfg now V))) :=
      h.setDevice (d := .servo (motionUpdate s.cfg now V)) (motionUpdate_inv (h.servo hV) now) k
    dsimp only
    split
    · exact hset.emit _
    · exact hset

theorem motion_devicesInv {s : State} (h : DevicesInv s) : DevicesInv (motion s) :=
  foldl_keeps DevicesInv _ (fun _ k ht => motionServo_devicesInv ht s.nowMicros k) _ s h

theorem rejectNoTop_devicesInv {s : State} (h : DevicesInv s) (k : Nat) {V : ServoState} (hV : ServoInv s.cfg V)
    (mode : Nat) : DevicesInv (rejectNoTop k V mode s) :=
  (h.warn _).setDevice (d := .servo { V with lastPulseValid := false }) { hV with } k

theorem acceptPulse_devicesInv {s : State} (h : DevicesInv s) (k : Nat) {V : ServoState} (hV : ServoInv s.cfg V)
    (pw : Nat) : DevicesInv (acceptPulse k V pw s) := by
  simp only [acceptPulse]
  split
  · refine h.setDevice ?_ k
    exact { hV with target_range := angleOf_range s.cfg pw }
  · refine (h.warn _).setDevice ?_ k
    exact { hV with }

theorem decodeServo_devicesInv {s : State} (h : DevicesInv s) (k : Nat) : DevicesInv (decodeServo k s) := by
  unfold decodeServo
  split
  · exact h
  · next V hV =>
    split
    · exact h
    · unfold decodePulse
      split
      · exact rejectNoTop_devicesInv h k (h.servo hV) _
      · split
        · exact rejectNoTop_devicesInv h k (h.servo hV) _
        · exact acceptPulse_devicesInv h k (h.servo hV) _

theorem regChange_devicesInv {s : State} (h : DevicesInv s) (a : Nat) : DevicesInv (regChange a s) :=
  foldl_keeps DevicesInv _ (fun _ k hs => decodeServo_devicesInv hs k) _ s h

theorem setLoad_devicesInv {s : State} (h : DevicesInv s) (k load arm : Nat) : DevicesInv (setLoad k load arm s) := by
  rcases setLoad_cases k load arm s with ⟨-, he⟩ | ⟨V, hV, he⟩ <;> rw [he]
  · exact h
  · refine h.setDevice ?_ k
    exact { h.servo hV with load_nonneg := thousandths_nonneg load, arm_nonneg := thousandths_nonneg arm }

/-! ## The bridge delivers to the two engines only (R187) -/

theorem observeBit_devicesInv {s : State} (h : DevicesInv s) (ts addr : Nat) (old new : Byte) (i : Nat) :
    DevicesInv (observeBit ts addr old new s i) := by
  unfold observeBit
  split
  · exact h
  · split
    · exact h
    · exact pinChange_devicesInv (h.emit _) _ _

theorem observeValue_devicesInv {s : State} (h : DevicesInv s) (addr old new : Nat) :
    DevicesInv (observeValue addr old new s) := by
  unfold observeValue
  split
  · exact h
  · exact regChange_devicesInv (h.emit _) addr

theorem refreshSnapshot_devicesInv {s : State} (h : DevicesInv s) (addrs : List Nat) :
    DevicesInv (refreshSnapshot addrs s) := h

theorem observeReg_devicesInv {s : State} (h : DevicesInv s) (ts : Nat) (r : ObservedReg) :
    DevicesInv (observeReg ts s r) := by
  simp only [observeReg]
  refine refreshSnapshot_devicesInv ?_ _
  split
  · exact foldl_keeps DevicesInv _ (fun _ i ht => observeBit_devicesInv ht _ _ _ _ i) _ s h
  · split
    · exact observeValue_devicesInv h _ _ _
    · exact observeValue_devicesInv h _ _ _

theorem observe_devicesInv {s : State} (h : DevicesInv s) : DevicesInv (observe s) :=
  foldl_keeps DevicesInv _ (fun _ r hs => observeReg_devicesInv hs _ r) _ s h

/-! ## A registration that is accepted makes a device in range (R280, R281, R284) -/

theorem bitModeOf_lines {n : Nat} (hn : n = 4 ∨ n = 8) :
    n = (match bitModeOf n with | .four => 4 | .eight => 8) := by
  rcases hn with rfl | rfl <;> rfl

theorem newDisplay_inv {c : Config} {rs en : Nat} {d : List Nat} {rows cols : Nat}
    (hv : validDisplay c rs en d rows cols = true) (hd : d.length = 4 ∨ d.length = 8) (mode : Addressing) :
    DisplayInv c (newDisplay rs en d rows cols mode) := by
  simp only [validDisplay, Bool.and_eq_true, decide_eq_true_eq] at hv
  obtain ⟨⟨⟨⟨hrs, hen⟩, hpins⟩, hrows, hrows4⟩, hcols, hcols40⟩ := hv
  exact
    { rsPin_board := hrs, enPin_board := hen, dataPins_board := hpins, lines := bitModeOf_lines hd
      rows_pos := hrows, rows_le := hrows4, cols_pos := hcols, cols_le := hcols40
      buffer_rows := blankBuffer_length _ _, buffer_cols := fun _ hr => blankBuffer_row_length hr
      cursor_row := hrows, cursor_col := hcols }

theorem newServo_inv {c : Config} {pin period initAngle : Nat}
    (hv : validServo c pin period (thousandths initAngle) = true) (speed deadband maxTorque load arm now : Nat) :
    ServoInv c (newServo pin (thousandths speed) (thousandths deadband) (thousandths maxTorque) (thousandths load)
      (thousandths arm) period (thousandths initAngle) now) := by
  simp only [validServo, Bool.and_eq_true, decide_eq_true_eq] at hv
  obtain ⟨⟨hpin, hperiod⟩, hangle⟩ := hv
  have hrange := And.intro (thousandths_nonneg initAngle) hangle
  exact
    { pin_board := hpin, channel_eq := rfl, period_pos := hperiod
      speed_nonneg := thousandths_nonneg _, deadband_nonneg := thousandths_nonneg _
      maxTorque_nonneg := thousandths_nonneg _, load_nonneg := thousandths_nonneg _
      arm_nonneg := thousandths_nonneg _, initialLoad_nonneg := thousandths_nonneg _
      initialArm_nonneg := thousandths_nonneg _, initial_range := hrange, current_range := hrange
      target_range := hrange }

/-- Reset keeps a device in range: a display is blank, and a servo stands at its initial angle (R65). -/
theorem resetDevice_inv {c : Config} {d : Device} (h : DeviceInv c d) : DeviceInv c (resetDevice d) := by
  cases d with
  | display D => exact resetDisplay_inv h
  | servo V => exact resetServo_inv h

end Sys2Proof.Machine

/-! ## A decoded command has legal operands (R101, R104) -/

namespace Sys2Proof

/-- An operand of `k` bytes fits `k` bytes. -/
theorem fitsBytes_leNat_take (bs : List Byte) (k : Nat) : fitsBytes k (leNat (bs.take k)) = true :=
  fitsBytes_iff.mpr <|
    lt_of_lt_of_le (leNat_lt _) (Nat.pow_le_pow_right (by decide) (List.length_take_le k bs))

@[simp] theorem fitsBytes_u8 (bs : List Byte) (i : Nat) : fitsBytes 1 (u8 bs i) = true := fitsBytes_leNat_take _ _

@[simp] theorem fitsBytes_u16 (bs : List Byte) (i : Nat) : fitsBytes 2 (u16 bs i) = true := fitsBytes_leNat_take _ _

@[simp] theorem fitsBytes_u32 (bs : List Byte) (i : Nat) : fitsBytes 4 (u32 bs i) = true := fitsBytes_leNat_take _ _

theorem fitsBytes_toNat (b : Byte) : fitsBytes 1 b.toNat = true := fitsBytes_iff.mpr b.isLt

theorem sized_eq_instr {mnemonic : String} {length n : Nat} {bs : List Byte} {i j : Instr}
    (h : sized mnemonic length bs i = .instr j n) : i = j := by
  unfold sized at h
  split at h
  · exact absurd h (by simp)
  · exact (Decoded.instr.inj h).1

theorem sizedChecked_eq_instr {mnemonic : String} {length n : Nat} {bs : List Byte} {i : Option Instr} {j : Instr}
    (h : sizedChecked mnemonic length bs i = .instr j n) : i = some j ∧ length ≤ bs.length := by
  unfold sizedChecked at h
  split at h
  · exact absurd h (by simp)
  · next hlen =>
    split at h
    · exact ⟨congrArg some (Decoded.instr.inj h).1, not_lt.mp hlen⟩
    · exact absurd h (by simp)

/-- A decoded REGDISPLAY names as many data lines as its third operand says: 4 or 8 (R104). -/
theorem decodeRegdisplay_wellFormed {c : Config} {bs : List Byte} {i : Instr} {n : Nat}
    (h : decodeRegdisplay bs = .instr i n) : i.WellFormed c := by
  simp only [decodeRegdisplay] at h
  split at h
  · exact absurd h (by simp)
  · split at h
    · next hn =>
      obtain ⟨hi, hlen⟩ := sizedChecked_eq_instr h
      obtain ⟨mode, -, rfl⟩ := Option.map_eq_some_iff.mp hi
      have hlines : (((bs.drop 4).take (u8 bs 3)).map BitVec.toNat).length = u8 bs 3 := by
        simp only [List.length_map, List.length_take, List.length_drop]
        omega
      have hpins : (((bs.drop 4).take (u8 bs 3)).map BitVec.toNat).all (fitsBytes 1) = true := by
        rw [List.all_map]
        exact List.all_eq_true.mpr fun b _ => fitsBytes_toNat b
      simp only [Instr.WellFormed, Instr.wellFormed, hlines, hpins, hn, fitsBytes_u8, Bool.and_self]
    · exact absurd h (by simp)

theorem sized_wellFormed {c : Config} {mnemonic : String} {length n : Nat} {bs : List Byte} {i j : Instr}
    (h : sized mnemonic length bs i = .instr j n) (hi : i.WellFormed c) : j.WellFormed c := sized_eq_instr h ▸ hi

theorem sizedChecked_map_wellFormed {c : Config} {α : Type} {mnemonic : String} {length n : Nat} {bs : List Byte}
    {o : Option α} {f : α → Instr} {j : Instr} (h : sizedChecked mnemonic length bs (o.map f) = .instr j n)
    (hf : ∀ x, (f x).WellFormed c) : j.WellFormed c := by
  obtain ⟨x, -, rfl⟩ := Option.map_eq_some_iff.mp (sizedChecked_eq_instr h).1
  exact hf x

/-- The decoder answers only instructions with legal operands. -/
theorem decodeCommand_wellFormed {c : Config} {bs : List Byte} {i : Instr} {n : Nat}
    (h : decodeCommand c bs = .instr i n) : i.WellFormed c := by
  unfold decodeCommand at h
  split at h
  · exact absurd h (by simp)
  split at h
  · exact sized_wellFormed h rfl
  · exact sized_wellFormed h (fitsBytes_u32 _ _)
  · obtain ⟨hi, -⟩ := sizedChecked_eq_instr h
    obtain ⟨ha, hj⟩ := Option.ite_none_right_eq_some.mp hi
    obtain rfl := Option.some.inj hj
    simp [Instr.WellFormed, Instr.wellFormed, ha]
  · exact sized_wellFormed h rfl
  · exact sizedChecked_map_wellFormed h fun _ => fitsBytes_u32 _ _
  · exact sized_wellFormed h (fitsBytes_u8 _ _)
  · exact sizedChecked_map_wellFormed h fun _ => rfl
  · exact sized_wellFormed h rfl
  · exact sized_wellFormed h rfl
  · exact sized_wellFormed h rfl
  · exact sizedChecked_map_wellFormed h fun _ => by simp [Instr.WellFormed, Instr.wellFormed]
  · exact sized_wellFormed h (by simp [Instr.WellFormed, Instr.wellFormed])
  · exact decodeRegdisplay_wellFormed h
  · exact sized_wellFormed h (by simp [Instr.WellFormed, Instr.wellFormed])
  · exact sized_wellFormed h (fitsBytes_u16 _ _)
  · exact sized_wellFormed h (by simp [Instr.WellFormed, Instr.wellFormed])
  · exact sized_wellFormed h (fitsBytes_u32 _ _)
  · exact sized_wellFormed h rfl
  · exact sized_wellFormed h rfl
  · exact absurd h (by simp)

end Sys2Proof
end

section
/-! PROOFS. The invariant of the block (R26, R27, R40, R45, R48, R50, R55, R170): a new block meets it, and every step
keeps it. An operation of the device engines keeps it because it touches devices in range only, a tick because it
computes values that fit the timer's width, an interrupt because a vector enters service only when none is there. -/

namespace Sys2Proof.Machine

/-! ## A new block -/

theorem maxDivisor_pos (c : Config) : 0 < maxDivisor c := by
  unfold maxDivisor
  induction c.prescalers with
  | nil => exact Nat.one_pos
  | cons d ds ih => exact lt_max_of_lt_right ih

theorem TimerInv.reset {width bound top : Nat} (ht : top < 2 ^ width) (hb : 0 < bound) :
    TimerInv width bound (TimerState.reset top) :=
  ⟨Nat.two_pow_pos width, ht, Nat.two_pow_pos width, Nat.two_pow_pos width, hb⟩

theorem t0_reset_inv {c : Config} (hc : c.Facts) : TimerInv c.t0Width (maxDivisor c) (TimerState.reset 0xFF) :=
  .reset (by rw [hc.t0Width]; decide) (maxDivisor_pos c)

theorem t1_reset_inv {c : Config} (hc : c.Facts) : TimerInv c.t1Width (maxDivisor c) (TimerState.reset 0xFFFF) :=
  .reset (by rw [hc.t1Width]; decide) (maxDivisor_pos c)

/-- Where no vector is in service, at most one is. -/
theorem AtMostOneInService.of_none {ic : IcState} (h : ∀ v, ic.vec v ≠ .inService) : AtMostOneInService ic :=
  fun u _ hu => absurd hu (h u)

theorem atMostOneInService_reset : AtMostOneInService IcState.reset := .of_none fun v => by simp

theorem resetWith_inv {c : Config} (hc : c.Accepted) : (State.resetWith c).Inv where
  cfg := hc
  memory := ⟨rfl, rfl, rfl, fun _ hm => absurd hm List.not_mem_nil⟩
  t0 := t0_reset_inv hc.facts
  t1 := t1_reset_inv hc.facts
  ic := atMostOneInService_reset
  devs := ⟨.nil, fun _ he => absurd he List.not_mem_nil, le_refl 1, fun _ he => absurd he List.not_mem_nil⟩

theorem configure_of_accepted {c : Config} (hc : c.Accepted) : configure c = .ok (State.resetWith c) := by
  unfold configure
  rw [show c.check = none from hc]

theorem configure_of_check {c : Config} {e : ConfigError} (h : c.check = some e) : configure c = .error e := by
  unfold configure
  rw [h]

/-- Two vectors with one priority are the first thing that the check of a configuration refuses (R98). -/
theorem check_of_equal_priorities {c : Config} {u v : IrqVector} (huv : u ≠ v)
    (hp : (vectorRow c u).priority = (vectorRow c v).priority) : c.check = some .equalPriorities := by
  have hdup : ¬(IrqVector.all.map fun w => (c.vectorTable.row w).priority).Nodup := fun hn =>
    huv (List.inj_on_of_nodup_map hn (IrqVector.mem_all u) (IrqVector.mem_all v) hp)
  simp [Config.check, hdup]

/-- Settles O2: an accepted configuration constructs its reset state, which is in range field by field; the check of a
configuration refuses equal priorities first, and accepts none with a register byte outside memory. -/
theorem resetMeetsInvariant : Obligations.ResetMeetsInvariant := by
  refine ⟨resetWith_inv config_accepted, fun c hc => ⟨configure_of_accepted hc, resetWith_inv hc⟩,
    fun c u v huv hp => configure_of_check (check_of_equal_priorities huv hp), fun c a ha hsize => ?_⟩
  cases hcheck : c.check with
  | none => exact absurd ((show c.Accepted from hcheck).facts.inside a ha) (not_lt.mpr hsize)
  | some e => exact ⟨e, configure_of_check hcheck⟩

/-! ## The parts of the invariant across an update -/

theorem MemoryInv.congr {s t : State} (h : MemoryInv s) (hc : t.cfg = s.cfg) (hm : t.mem = s.mem)
    (hs : t.snap = s.snap) : MemoryInv t := by
  obtain ⟨hwf, hin, hswf, hobs⟩ := h
  exact ⟨hm ▸ hwf, by rwa [hm, hc], hs ▸ hswf, by rwa [hs, hc]⟩

/-- A write inside register memory keeps the two memories canonical and inside their ranges (R26). -/
theorem MemoryInv.write {s t : State} (h : MemoryInv s) {a : Nat} (ha : a < s.cfg.regMemSize) {v : Byte}
    (hc : t.cfg = s.cfg) (hm : t.mem = s.mem.write a v) (hs : t.snap = s.snap) : MemoryInv t :=
  MemoryInv.congr (s := { s with mem := s.mem.write a v })
    ⟨Memory.write_wf h.mem_wf a v, Memory.write_within h.mem_within v ha, h.snap_wf, h.snap_observed⟩ hc hm hs

/-- A copy of observed bytes into the snapshot keeps it canonical and on the observed addresses (R45). -/
theorem MemoryInv.copySnapshot {s t : State} (h : MemoryInv s) {snap : Memory} (hw : snap.wf = true)
    (hi : ∀ c ∈ snap, c.1 ∈ observedAddrs s.cfg) (hc : t.cfg = s.cfg) (hm : t.mem = s.mem)
    (hs : t.snap = s.mem.copyAt (observedAddrs s.cfg) snap) : MemoryInv t := by
  refine MemoryInv.congr (s := { s with snap := s.mem.copyAt (observedAddrs s.cfg) snap })
    ⟨h.mem_wf, h.mem_within, Memory.copyAt_wf _ _ hw, fun c hmem => ?_⟩ hc hm hs
  exact (Memory.mem_copyAt hmem).elim (hi c) id

/-- A registry that keeps the next handle and adds no handle keeps its order (R48). -/
theorem RegistryInv.of_sublist {c : Config} {r q : DeviceRegistry} (h : RegistryInv c r)
    (hn : q.nextHandle = r.nextHandle) (hs : (q.entries.map Prod.fst).Sublist (r.entries.map Prod.fst))
    (hd : ∀ e ∈ q.entries, DeviceInv c e.2) : RegistryInv c q := by
  refine ⟨h.sorted.sublist hs, fun e he => ?_, hn ▸ h.next_pos, hd⟩
  obtain ⟨x, hx, hxe⟩ := List.mem_map.mp (hs.subset (List.mem_map_of_mem (f := Prod.fst) he))
  rw [hn, ← hxe]
  exact h.below_next x hx

/-- A device registered under the next handle comes last and leaves the next handle above it (R48). -/
theorem RegistryInv.add {c : Config} {r : DeviceRegistry} (h : RegistryInv c r) {d : Device} (hd : DeviceInv c d) :
    RegistryInv c ⟨r.entries ++ [(r.nextHandle, d)], r.nextHandle + 1⟩ := by
  refine ⟨?_, fun e he => ?_, Nat.le_add_left 1 _, fun e he => ?_⟩
  · rw [List.map_append]
    refine List.pairwise_append.mpr ⟨h.sorted, List.pairwise_singleton _ _, fun a ha b hb => ?_⟩
    obtain ⟨e, he, rfl⟩ := List.mem_map.mp ha
    rw [List.mem_singleton.mp hb]
    exact h.below_next e he
  · rcases List.mem_append.mp he with he | he
    · exact Nat.lt_succ_of_lt (h.below_next e he)
    · rw [List.mem_singleton.mp he]
      exact Nat.lt_succ_self _
  · rcases List.mem_append.mp he with he | he
    · exact h.devices e he
    · rw [List.mem_singleton.mp he]
      exact hd

theorem AtMostOneInService.of_imp {ic jc : IcState} (h : AtMostOneInService ic)
    (hv : ∀ v, jc.vec v = .inService → ic.vec v = .inService) : AtMostOneInService jc :=
  fun u v hu hw => h u v (hv u hu) (hv v hw)

/-- A vector set to any state but InService leaves at most one in service. -/
theorem AtMostOneInService.setVec {ic : IcState} (h : AtMostOneInService ic) (v : IrqVector) {x : VecState}
    (hx : x ≠ .inService) : AtMostOneInService (ic.setVec v x) :=
  h.of_imp fun u hu => by
    rw [IcState.vec_setVec] at hu
    split at hu
    · exact absurd hu hx
    · exact hu

/-- With none in service, the vector that enters service is the only one (R170). -/
theorem atMostOneInService_enter {ic : IcState} (h : ∀ u, ic.vec u ≠ .inService) (w : IrqVector) :
    AtMostOneInService (ic.setVec w .inService) := by
  have key (u : IrqVector) (hu : (ic.setVec w .inService).vec u = .inService) : u = w := by
    by_contra hne
    exact h u (IcState.vec_setVec_other ic _ hne ▸ hu)
  exact fun u v hu hv => (key u hu).trans (key v hv).symm

theorem State.Inv.timer {s : State} (h : s.Inv) (t : TimerId) :
    TimerInv (timerWidth s.cfg t) (maxDivisor s.cfg) (s.timer t) := by
  cases t
  · exact h.t0
  · exact h.t1

theorem State.Inv.devicesInv {s : State} (h : s.Inv) : DevicesInv s := h.devs.devices

/-! ## Devices, time and observation -/

/-- Device records and output may change, as long as the devices stay in range. -/
theorem State.Inv.of_onlyDevices {s t : State} (h : s.Inv) (k : OnlyDevices s t) (hd : DevicesInv t) : t.Inv where
  cfg := k.cfg ▸ h.cfg
  memory := h.memory.congr k.cfg k.mem k.snap
  t0 := by rw [k.cfg, k.t0]; exact h.t0
  t1 := by rw [k.cfg, k.t1]; exact h.t1
  ic := k.ic ▸ h.ic
  devs := by
    rw [k.cfg]
    exact h.devs.of_sublist k.nextHandle (k.handles ▸ List.Sublist.refl _) fun e he => k.cfg ▸ hd e he

theorem State.Inv.emit {s : State} (h : s.Inv) (e : Event) : (s.emit e).Inv :=
  h.of_onlyDevices (.emit s e) (h.devicesInv.emit e)

theorem State.Inv.warn {s : State} (h : s.Inv) (w : Warning) : (s.warn w).Inv := h.emit _

theorem State.Inv.consume {s : State} (h : s.Inv) (n : Nat) : (s.consume n).Inv :=
  { h with memory := h.memory.congr rfl rfl rfl }

theorem timeTick_inv {s : State} (h : s.Inv) (n : Nat) : (timeTick n s).Inv :=
  { h with memory := h.memory.congr rfl rfl rfl }

theorem observe_inv {s : State} (h : s.Inv) : (observe s).Inv := by
  have k := observe_observation s
  have hd := observe_devicesInv h.devicesInv
  exact
    { cfg := k.cfg ▸ h.cfg
      memory := h.memory.copySnapshot h.memory.snap_wf h.memory.snap_observed k.cfg k.mem k.snap
      t0 := by rw [k.cfg, k.t0]; exact h.t0
      t1 := by rw [k.cfg, k.t1]; exact h.t1
      ic := k.ic ▸ h.ic
      devs := by
        rw [k.cfg]
        exact h.devs.of_sublist k.nextHandle (k.handles ▸ List.Sublist.refl _) fun e he => k.cfg ▸ hd e he }

/-! ## Interrupts -/

theorem setGie_inv {s : State} (h : s.Inv) (b : Bool) : (setGie b s).Inv :=
  { h with
    memory := h.memory.congr rfl rfl rfl
    ic := h.ic.of_imp fun v hv => by rwa [setGie, IcState.vec_gie] at hv }

/-- A vector leaves Idle for Pending, or returns to Idle: none enters service. -/
theorem State.Inv.setVec {s : State} (h : s.Inv) (v : IrqVector) {x : VecState} (hx : x ≠ .inService) :
    ({ s with ic := s.ic.setVec v x } : State).Inv :=
  { h with memory := h.memory.congr rfl rfl rfl, ic := h.ic.setVec v hx }

theorem raise_inv {s : State} (h : s.Inv) (id : Nat) : (raise id s).Inv := by
  unfold raise
  split
  · exact h.warn _
  · unfold raiseVector
    split
    · exact h.setVec _ (by decide)
    · exact h

/-- The flag register of a vector lies inside register memory. -/
theorem State.Inv.flagReg_lt {s : State} (h : s.Inv) (t : TimerId) : flagReg s.cfg t < s.cfg.regMemSize :=
  h.cfg.facts.timerWrites_inside t (flagReg_mem_timerWrites s.cfg t)

theorem takeInterrupt_inv {s : State} (h : s.Inv) (hidle : ∀ u, s.ic.vec u ≠ .inService) (w : IrqVector) :
    (takeInterrupt w s).Inv :=
  { h with
    memory := h.memory.write (h.flagReg_lt (vectorTimer w)) rfl rfl rfl
    ic := atMostOneInService_enter hidle w }

theorem dispatchPending_inv {s : State} (h : s.Inv) : (dispatchPending s).Inv := by
  rcases dispatchPending_cases s with ⟨he, -⟩ | ⟨-, hidle, w, -, -, he⟩ <;> rw [he]
  · exact h
  · exact takeInterrupt_inv h hidle w

theorem returnFromInterrupt_inv {s : State} (h : s.Inv) : (returnFromInterrupt s).Inv := by
  rcases returnFromInterrupt_cases s with ⟨he, -⟩ | ⟨u, -, he⟩ <;> rw [he]
  · exact h
  · exact h.setVec u (by decide)

/-! ## Timers -/

/-- A batch's record fits the width of its timer (R143, R146); the remainder is none of its fields. -/
theorem batchTimer_inv {s : State} (hc : s.cfg.Facts) {t : TimerId} {bound : Nat}
    (hr : (s.timer t).cycleRemainder < bound) (k : Nat) :
    TimerInv (timerWidth s.cfg t) bound (batchTimer t k s) :=
  ⟨advance_lt hc t _ k _, topValue_lt hc t _, readCompare_lt hc t .a _, readCompare_lt hc t .b _, hr⟩

/-- The remainder that a tick carries lies below its divisor (R128). -/
theorem tickPrescaled_timerInv {s : State} (hc : s.cfg.Facts) {t : TimerId} {d bound : Nat} (hd : 0 < d)
    (hb : d ≤ bound) (h : TimerInv (timerWidth s.cfg t) bound (s.timer t)) (n : Nat) :
    TimerInv (timerWidth s.cfg t) bound ((tickPrescaled t d n s).timer t) := by
  have hrem : (s.timer t).cycleRemainder + n - ((s.timer t).cycleRemainder + n) / d * d < bound := by
    rw [← Nat.mod_eq_sub_div_mul]
    exact lt_of_lt_of_le (Nat.mod_lt _ hd) hb
  simp only [tickPrescaled]
  split
  · rw [State.timer_setTimer_same]
    exact { h with remainder_lt := hrem }
  · rw [tickBatch_timer]
    have hinv := batchTimer_inv (s := s.setTimer t { s.timer t with
        cycleRemainder := (s.timer t).cycleRemainder + n - ((s.timer t).cycleRemainder + n) / d * d })
      (t := t) (bound := bound) (by rwa [State.setTimer_cfg]) (by rwa [State.timer_setTimer_same])
      (((s.timer t).cycleRemainder + n) / d)
    rwa [State.setTimer_cfg] at hinv

theorem tickDecoded_timerInv {s : State} {t : TimerId} {width bound : Nat} (h : TimerInv width bound (s.timer t)) :
    TimerInv width bound ((tickDecoded t s).timer t) := by
  rw [tickDecoded, State.timer_setTimer_same]
  exact { h with }

theorem tick_timerInv {s : State} (h : s.Inv) (t : TimerId) (n : Nat) :
    TimerInv (timerWidth s.cfg t) (maxDivisor s.cfg) ((tick t n s).timer t) := by
  have hdec := tickDecoded_timerInv (h.timer t)
  rcases tick_cases t n s with ⟨-, he⟩ | ⟨-, -, he⟩ | ⟨-, -, -, he⟩ | ⟨-, -, d, hd, he⟩ <;> rw [he]
  · exact h.timer t
  · exact hdec
  · cases t <;> exact hdec
  · obtain ⟨hpos, hle⟩ := h.cfg.facts.divisor_bounds hd
    have hcfg : (tickDecoded t s).cfg = s.cfg := State.setTimer_cfg s t _
    rw [← hcfg] at hdec hle ⊢
    exact tickPrescaled_timerInv (hcfg ▸ h.cfg.facts) hpos hle hdec n

/-- A tick keeps the invariant if it keeps that of its own timer. -/
theorem State.Inv.of_timerStep {s u : State} (h : s.Inv) {t : TimerId} (k : TimerStep t s u)
    (hT : TimerInv (timerWidth s.cfg t) (maxDivisor s.cfg) (u.timer t)) : u.Inv := by
  have htimer (x : TimerId) : TimerInv (timerWidth u.cfg x) (maxDivisor u.cfg) (u.timer x) := by
    rw [k.cfg]
    by_cases hx : x = t
    · exact hx ▸ hT
    · exact k.other x hx ▸ h.timer x
  refine ⟨k.cfg ▸ h.cfg, ⟨k.wf h.memory.mem_wf, ?_, k.snap ▸ h.memory.snap_wf, ?_⟩, htimer .t0, htimer .t1,
    h.ic.of_imp fun v hv => ?_, by rw [k.cfg, k.devs]; exact h.devs⟩
  · rw [k.cfg]
    exact k.within h.cfg.facts h.memory.mem_within
  · rw [k.snap, k.cfg]
    exact h.memory.snap_observed
  · rcases k.vecs v with hsame | ⟨-, -, hpending⟩
    · exact hsame ▸ hv
    · rw [hpending] at hv
      exact absurd hv (by decide)

theorem tick_inv {s : State} (h : s.Inv) (t : TimerId) (n : Nat) : (tick t n s).Inv :=
  h.of_timerStep (tick_step t n s) (tick_timerInv h t n)

/-! ## The step, registration, the CPU's write and reset -/

/-- The step is the sequence of R272, each part of which keeps the invariant. -/
theorem stepCycles_inv {s : State} (h : s.Inv) (n : Nat) : (stepCycles n s).Inv :=
  observe_inv (dispatchPending_inv (setGie_inv (tick_inv (tick_inv (timeTick_inv h n) .t0 n) .t1 n) _))

theorem State.Inv.addDevice {s : State} (h : s.Inv) {d : Device} (hd : DeviceInv s.cfg d) : (s.addDevice d).Inv :=
  { h with memory := h.memory.congr rfl rfl rfl, devs := h.devs.add hd }

theorem State.Inv.removeDevice {s : State} (h : s.Inv) (k : Nat) : (s.removeDevice k).Inv :=
  { h with
    memory := h.memory.congr rfl rfl rfl
    devs := h.devs.of_sublist rfl (List.filter_sublist.map Prod.fst)
      fun e he => h.devicesInv e (List.mem_of_mem_filter he) }

theorem registerDisplay_inv {s : State} (h : s.Inv) {d : List Nat} (hd : d.length = 4 ∨ d.length = 8)
    (rs en rows cols : Nat) (mode : Addressing) : (registerDisplay rs en d rows cols mode s).Inv := by
  rcases registerDisplay_cases rs en d rows cols mode s with ⟨hv, he⟩ | ⟨-, he⟩ <;> rw [he]
  · exact h.addDevice (d := .display _) (newDisplay_inv hv hd mode)
  · exact h.warn _

theorem registerServo_inv {s : State} (h : s.Inv) (pin speed deadband maxTorque load arm period initAngle : Nat) :
    (registerServo pin speed deadband maxTorque load arm period initAngle s).Inv := by
  simp only [registerServo]
  split
  · next hv =>
    split
    · exact (h.warn _).addDevice (d := .servo _) (newServo_inv hv speed deadband maxTorque load arm _)
    · exact h.addDevice (d := .servo _) (newServo_inv hv speed deadband maxTorque load arm _)
  · exact h.warn _

theorem setLoad_onlyDevices (k load arm : Nat) (s : State) : OnlyDevices s (setLoad k load arm s) := by
  rcases setLoad_cases k load arm s with ⟨-, he⟩ | ⟨V, -, he⟩ <;> rw [he]
  · exact .refl s
  · exact .setDevice s k _

theorem setLoad_inv {s : State} (h : s.Inv) (k load arm : Nat) : (setLoad k load arm s).Inv :=
  h.of_onlyDevices (setLoad_onlyDevices k load arm s) (setLoad_devicesInv h.devicesInv k load arm)

theorem resetBlock_inv {s : State} (h : s.Inv) : (resetBlock s).Inv where
  cfg := h.cfg
  memory := h.memory.copySnapshot rfl (fun _ hm => absurd hm List.not_mem_nil) rfl rfl rfl
  t0 := t0_reset_inv h.cfg.facts
  t1 := t1_reset_inv h.cfg.facts
  ic := atMostOneInService_reset
  devs := by
    refine h.devs.of_sublist rfl (by rw [resetBlock_handles]) fun e he => ?_
    obtain ⟨x, hx, rfl⟩ := List.mem_map.mp he
    exact resetDevice_inv (h.devicesInv x hx)

/-! ## Every instruction and every step -/

/-- A display byte keeps the invariant if it keeps the devices in range. -/
theorem onDisplay_inv {s : State} (h : s.Inv) (k : Nat) {f : DisplayState → DisplayState}
    (hc : ∀ D, SameDisplayConfig D (f D)) (hf : ∀ D, DisplayInv s.cfg D → DisplayInv s.cfg (f D)) :
    (onDisplay k f s).Inv :=
  h.of_onlyDevices (onDisplay_step k hc s).only
    (onDisplay_devicesInv h.devicesInv k fun D hD => hf D (h.devicesInv.display hD))

/-- Every well-formed instruction keeps the invariant. -/
theorem exec_inv {i : Instr} {s t : State} (h : s.Inv) (hi : i.WellFormed s.cfg) (he : exec i s = .next t) :
    t.Inv := by
  have keep {u : State} (hu : u.Inv) (hx : exec i s = .next u) : t.Inv :=
    Host.Outcome.next.inj (hx.symm.trans he) ▸ hu
  have hd := h.devicesInv
  cases i with
  | reset => exact keep (resetBlock_inv h) (exec_reset s)
  | step n => exact keep (stepCycles_inv h n) (exec_step s n)
  | memwrite a v =>
    obtain ⟨ha, rfl⟩ := exec_memwrite_next he
    exact { h with memory := h.memory.write ha rfl rfl rfl }
  | motion => exact keep (h.of_onlyDevices (motion_step s).only (motion_devicesInv hd)) (exec_motion s)
  | tick x n => exact keep (tick_inv h x n) (exec_tick s x n)
  | raise v => exact keep (raise_inv h v) (exec_raise s v)
  | setgie b => exact keep (setGie_inv h b) (exec_setgie s b)
  | dispatch => exact keep (dispatchPending_inv h) (exec_dispatch s)
  | reti => exact keep (returnFromInterrupt_inv h) (exec_reti s)
  | observe => exact keep (observe_inv h) (exec_observe s)
  | pinchange pin level ts =>
    exact keep (h.of_onlyDevices (pinChange_step pin level s).only (pinChange_devicesInv hd pin level))
      (exec_pinchange s pin level ts)
  | regchange a old new =>
    exact keep (h.of_onlyDevices (regChange_step a s).only (regChange_devicesInv hd a)) (exec_regchange s a old new)
  | regdisplay rs en d rows cols mode =>
    have hlines : d.length = 4 ∨ d.length = 8 := by
      simp only [Instr.WellFormed, Instr.wellFormed, Bool.and_eq_true, Bool.or_eq_true, beq_iff_eq] at hi
      exact hi.1.1.1.2
    exact keep (registerDisplay_inv h hlines rs en rows cols mode) (exec_regdisplay s rs en d rows cols mode)
  | regservo pin speed deadband maxTorque load arm period initAngle =>
    exact keep (registerServo_inv h pin speed deadband maxTorque load arm period initAngle)
      (exec_regservo s pin speed deadband maxTorque load arm period initAngle)
  | unreg k => exact keep (h.removeDevice k) (exec_unreg s k)
  | setload k load arm => exact keep (setLoad_inv h k load arm) (exec_setload s k load arm)
  | timetick n => exact keep (timeTick_inv h n) (exec_timetick s n)
  | nowus => exact keep (h.emit _) (exec_nowus s)
  | nowms => exact keep (h.emit _) (exec_nowms s)
  | lcdUnknown k =>
    exact keep (h.of_onlyDevices (warnOnDisplay_step k _ s).only (warnOnDisplay_devicesInv hd k _))
      (exec_lcdUnknown s k)
  | lcdClear k => exact keep (onDisplay_inv h k clearDisplay_config fun _ => clearDisplay_inv) (exec_lcdClear s k)
  | lcdHome k x => exact keep (onDisplay_inv h k clearDisplay_config fun _ => clearDisplay_inv) (exec_lcdHome s k x)
  | lcdEntryModeSet k inc shift => exact keep h (exec_lcdEntryModeSet s k inc shift)
  | lcdDisplayControl k d c b =>
    exact keep (onDisplay_inv h k (controlDisplay_config d c b) fun _ hD => controlDisplay_inv hD d c b)
      (exec_lcdDisplayControl s k d c b)
  | lcdCursorDisplayShift k sc rl x => exact keep h (exec_lcdCursorDisplayShift s k sc rl x)
  | lcdFunctionSet k dl n f x => exact keep h (exec_lcdFunctionSet s k dl n f x)
  | lcdSetCgramAddress k a => exact keep h (exec_lcdSetCgramAddress s k a)
  | lcdSetDdramAddress k a =>
    exact keep (h.of_onlyDevices (setDdramAddress_step k a.toNat s).only (setDdramAddress_devicesInv hd k a.toNat))
      (exec_lcdSetDdramAddress s k a)
  | lcdWriteData k c =>
    exact keep (onDisplay_inv h k (writeChar_config c) fun _ hD => writeChar_inv hD c) (exec_lcdWriteData s k c)

/-- Settles O60: a step runs a decoded command, whose operands are legal, so that its instruction keeps the invariant;
at the end of the stream nothing changes. -/
theorem stepKeepsInvariant : Obligations.StepKeepsInvariant := by
  intro s t h he
  unfold step at he
  split at he
  · next i n hdec => exact exec_inv (h.consume n) (decodeCommand_wellFormed hdec) he
  · exact Host.Outcome.next.inj he ▸ h
  all_goals exact absurd he (by simp)

end Sys2Proof.Machine
end

section
/-! PROOFS. What the block writes and reads of register memory (R30, R72, R74, R75): an instruction but MEMWRITE is an
operation that writes counter and flag bytes only (`BlockOp.writes`) and takes two states with the same view of the
register map to two such states (`BlockOp.view`). -/

namespace Sys2Proof.Machine

/-! ## The registers that the block reads are on the register map (R30) -/

section
variable (c : Config) (t : TimerId)

theorem controlA_mem_bytes : controlA c t ∈ c.reg.bytes := by cases t <;> simp [controlA, RegMap.bytes]

theorem controlB_mem_bytes : controlB c t ∈ c.reg.bytes := by cases t <;> simp [controlB, RegMap.bytes]

theorem flagReg_mem_bytes : flagReg c t ∈ c.reg.bytes := by cases t <;> simp [flagReg, RegMap.bytes]

theorem maskReg_mem_bytes : maskReg c t ∈ c.reg.bytes := by cases t <;> simp [maskReg, RegMap.bytes]

theorem sreg_mem_bytes : c.reg.sreg ∈ c.reg.bytes := by simp [RegMap.bytes]

theorem counterReg_mem_bytes : counterReg c t ∈ c.reg.bytes ∧ (t = .t1 → counterReg c t + 1 ∈ c.reg.bytes) := by
  cases t <;> simp [counterReg, RegMap.bytes]

theorem compareReg_mem_bytes (x : CompareChannel) :
    compareReg c t x ∈ c.reg.bytes ∧ (t = .t1 → compareReg c t x + 1 ∈ c.reg.bytes) := by
  cases t <;> cases x <;> simp [compareReg, RegMap.bytes]

theorem icr1_mem_bytes : c.reg.icr1 ∈ c.reg.bytes ∧ c.reg.icr1 + 1 ∈ c.reg.bytes := by simp [RegMap.bytes]

/-- The observed bytes of a register, whether the configuration's list names it or not. -/
theorem observedBytes_mem_bytes (r : ObservedReg) {a : Nat} (ha : a ∈ observedBytes c r) : a ∈ c.reg.bytes :=
  observedAddrs_mem (c := { c with observedRegs := [r] }) (List.mem_flatMap.mpr ⟨r, List.mem_singleton_self r, ha⟩)

end

/-! ## Two memories that agree on the register map -/

/-- The two memories hold the same bytes on the register map. -/
def AgreeOnMap (c : Config) (m m' : Memory) : Prop := ∀ a ∈ c.reg.bytes, m'.read a = m.read a

section
variable {c : Config} {m m' : Memory} (h : AgreeOnMap c m m')
include h

theorem AgreeOnMap.bit {a : Nat} (ha : a ∈ c.reg.bytes) (i : Nat) : m'.bit a i = m.bit a i := by
  simp only [Memory.bit, h a ha]

theorem AgreeOnMap.read16 {a : Nat} (ha : a ∈ c.reg.bytes) (ha' : a + 1 ∈ c.reg.bytes) : m'.read16 a = m.read16 a := by
  simp only [Memory.read16, h a ha, h (a + 1) ha']

theorem AgreeOnMap.readTimerReg {t : TimerId} {a : Nat} (ha : a ∈ c.reg.bytes ∧ (t = .t1 → a + 1 ∈ c.reg.bytes)) :
    readTimerReg t m' a = readTimerReg t m a := by
  cases t
  · exact congrArg BitVec.toNat (h a ha.1)
  · exact h.read16 ha.1 (ha.2 rfl)

theorem AgreeOnMap.clockSelect (t : TimerId) : clockSelect c t m' = clockSelect c t m := by
  simp only [Machine.clockSelect, h _ (controlB_mem_bytes c t)]

theorem AgreeOnMap.modeNumber (t : TimerId) : modeNumber c t m' = modeNumber c t m := by
  cases t <;> simp only [Machine.modeNumber, h _ (controlA_mem_bytes c _), h _ (controlB_mem_bytes c _)]

theorem AgreeOnMap.readCounter (t : TimerId) : readCounter c t m' = readCounter c t m :=
  h.readTimerReg (counterReg_mem_bytes c t)

theorem AgreeOnMap.readCompare (t : TimerId) (x : CompareChannel) : readCompare c t x m' = readCompare c t x m :=
  h.readTimerReg (compareReg_mem_bytes c t x)

theorem AgreeOnMap.topOf (t : TimerId) (src : TopSource) : topOf c t src m' = topOf c t src m := by
  cases src with
  | fixed v => rfl
  | compareA => exact h.readCompare t .a
  | capture => exact h.read16 (icr1_mem_bytes c).1 (icr1_mem_bytes c).2
  | absent => rfl

theorem AgreeOnMap.pinLevel (p : Nat) : pinLevel c m' p = pinLevel c m p := by
  unfold Machine.pinLevel
  split
  · next hp => exact h.bit (pinLocation_mem hp).1 _
  · rfl

theorem AgreeOnMap.lineValue (pins : List Nat) : lineValue c m' pins = lineValue c m pins := by
  simp only [Machine.lineValue, h.pinLevel]

theorem AgreeOnMap.triggeredBy (a : Nat) (d : Device) : d.triggeredBy c a m' = d.triggeredBy c a m := by
  cases d with
  | display D => rfl
  | servo V =>
    have hch : channelTriggeredBy c a m' = channelTriggeredBy c a m :=
      funext fun ch => by simp only [channelTriggeredBy, h.modeNumber]
    simp only [Device.triggeredBy, hch]

theorem AgreeOnMap.copyAt {addrs : List Nat} (ha : ∀ a ∈ addrs, a ∈ c.reg.bytes) (dst : Memory) :
    m'.copyAt addrs dst = m.copyAt addrs dst :=
  List.foldl_ext _ _ dst fun d a hm => by rw [h a (ha a hm)]

end

/-! ## Two states with the same view of register memory (R75) -/

/-- The state with its register memory replaced. -/
def State.withMem (s : State) (m : Memory) : State := { s with mem := m }

/-- What commutes with a replacement of register memory leaves register memory alone. -/
theorem mem_eq_of_withMem_comm {f : State → State} (hf : ∀ s m, f (s.withMem m) = (f s).withMem m) (s : State) :
    (f s).mem = s.mem := (congrArg State.mem (hf s s.mem) :)

/-- The state with its interrupt controller replaced. -/
def State.withIc (s : State) (ic : IcState) : State := { s with ic := ic }

/-- The two states differ in register memory only, and there outside the register map only. -/
structure SameView (s u : State) : Prop where
  same : u = s.withMem u.mem
  left_wf : s.mem.wf = true
  right_wf : u.mem.wf = true
  agree : AgreeOnMap s.cfg s.mem u.mem

section
variable {s u : State} (h : SameView s u)
include h

theorem SameView.cfg : u.cfg = s.cfg := (congrArg State.cfg h.same :)
theorem SameView.ic : u.ic = s.ic := (congrArg State.ic h.same :)
theorem SameView.snap : u.snap = s.snap := (congrArg State.snap h.same :)
theorem SameView.devs : u.devs = s.devs := (congrArg State.devs h.same :)
theorem SameView.timer (t : TimerId) : u.timer t = s.timer t := (congrArg (State.timer · t) h.same :)
theorem SameView.nowMicros : u.nowMicros = s.nowMicros := (congrArg State.nowMicros h.same :)
theorem SameView.display? (k : Nat) : u.display? k = s.display? k := (congrArg (State.display? · k) h.same :)
theorem SameView.servo? (k : Nat) : u.servo? k = s.servo? k := (congrArg (State.servo? · k) h.same :)

theorem SameView.clock (t : TimerId) : u.clock t = s.clock t := by
  simp only [State.clock, h.cfg, h.agree.clockSelect]

theorem SameView.mode (t : TimerId) : u.mode t = s.mode t := by
  simp only [State.mode, h.cfg, h.agree.modeNumber]

theorem SameView.countKind (t : TimerId) : u.countKind t = s.countKind t := by
  simp only [State.countKind, h.mode]

theorem SameView.count (t : TimerId) : u.count t = s.count t := by
  simp only [State.count, h.cfg, h.agree.readCounter]

theorem SameView.compare (t : TimerId) (x : CompareChannel) : u.compare t x = s.compare t x := by
  simp only [State.compare, h.cfg, h.agree.readCompare]

theorem SameView.top (t : TimerId) : u.top t = s.top t := by
  simp only [State.top, topValue, h.cfg, h.mode, h.agree.topOf]

/-- An update that neither reads nor writes register memory. -/
theorem SameView.map {f : State → State} (hf : ∀ s m, f (s.withMem m) = (f s).withMem m)
    (hc : ∀ s, (f s).cfg = s.cfg) : SameView (f s) (f u) := by
  have hmem := mem_eq_of_withMem_comm hf
  refine ⟨?_, by rw [hmem]; exact h.left_wf, by rw [hmem]; exact h.right_wf, by rw [hc, hmem, hmem]; exact h.agree⟩
  calc f u = f (s.withMem u.mem) := congrArg f h.same
    _ = (f s).withMem u.mem := hf s u.mem
    _ = (f s).withMem (f u).mem := by rw [hmem]

theorem SameView.emit (e : Event) : SameView (s.emit e) (u.emit e) :=
  h.map (f := (State.emit · e)) (fun _ _ => rfl) fun _ => rfl

theorem SameView.warn (w : Warning) : SameView (s.warn w) (u.warn w) := h.emit _

theorem SameView.setDevice (k : Nat) (d : Device) : SameView (s.setDevice k d) (u.setDevice k d) :=
  h.map (f := (State.setDevice · k d)) (fun _ _ => rfl) fun _ => rfl

theorem SameView.addDevice (d : Device) : SameView (s.addDevice d) (u.addDevice d) :=
  h.map (f := (State.addDevice · d)) (fun _ _ => rfl) fun _ => rfl

theorem SameView.setTimer (t : TimerId) (T : TimerState) : SameView (s.setTimer t T) (u.setTimer t T) :=
  h.map (f := (State.setTimer · t T)) (fun _ _ => by cases t <;> rfl) fun s => State.setTimer_cfg s t T

theorem SameView.withIc (ic : IcState) : SameView (s.withIc ic) (u.withIc ic) :=
  h.map (f := (State.withIc · ic)) (fun _ _ => rfl) fun _ => rfl

/-- The same byte written at the same address, on the register map or off it. -/
theorem SameView.write (a : Nat) (v : Byte) :
    SameView (s.withMem (s.mem.write a v)) (u.withMem (u.mem.write a v)) := by
  refine ⟨(congrArg (State.withMem · (u.mem.write a v)) h.same :), Memory.write_wf h.left_wf a v,
    Memory.write_wf h.right_wf a v, fun b hb => ?_⟩
  simp only [State.withMem, Memory.read_write h.left_wf, Memory.read_write h.right_wf, h.agree b hb]

theorem SameView.setBit {a : Nat} (ha : a ∈ s.cfg.reg.bytes) (i : Nat) :
    SameView (s.withMem (s.mem.setBit a i)) (u.withMem (u.mem.setBit a i)) := by
  simp only [Memory.setBit, h.agree a ha]
  exact h.write a _

theorem SameView.clearBit {a : Nat} (ha : a ∈ s.cfg.reg.bytes) (i : Nat) :
    SameView (s.withMem (s.mem.clearBit a i)) (u.withMem (u.mem.clearBit a i)) := by
  simp only [Memory.clearBit, h.agree a ha]
  exact h.write a _

theorem SameView.writeCounter (t : TimerId) (n : Nat) :
    SameView (s.withMem (writeCounter s.cfg t s.mem n)) (u.withMem (writeCounter s.cfg t u.mem n)) := by
  cases t
  · exact h.write (counterReg s.cfg .t0) (BitVec.ofNat 8 n)
  · have hlow := h.write (counterReg s.cfg .t1) (BitVec.ofNat 8 n)
    exact hlow.write (counterReg s.cfg .t1 + 1) (BitVec.ofNat 8 (n / 256))

theorem SameView.refreshSnapshot {addrs : List Nat} (ha : ∀ a ∈ addrs, a ∈ s.cfg.reg.bytes) :
    SameView (refreshSnapshot addrs s) (refreshSnapshot addrs u) := by
  simp only [Machine.refreshSnapshot, h.agree.copyAt ha, h.snap]
  exact h.map (f := fun x => { x with snap := s.mem.copyAt addrs s.snap }) (fun _ _ => rfl) fun _ => rfl

end

/-- A loop over the same list, each round of which keeps the view. -/
theorem SameView.foldl {α : Type} {f : State → α → State}
    (hf : ∀ s u a, SameView s u → SameView (f s a) (f u a)) (l : List α) {s u : State} (h : SameView s u) :
    SameView (l.foldl f s) (l.foldl f u) := by
  induction l generalizing s u with
  | nil => exact h
  | cons a l ih => exact ih (hf s u a h)

/-! ## Operations by the deliveries they make and the memory they replace (R131, R135, R166, R180) -/

/-- The deliveries of one observed register, before its snapshot bytes are refreshed (R180). -/
def deliverReg (ts : Nat) (s : State) (r : ObservedReg) : State :=
  let addr := registerAddr s.cfg r.reg
  match r.cls with
  | .port => (List.range 8).foldl (observeBit ts addr (s.snap.read addr) (s.mem.read addr)) s
  | .value =>
    if isWideRegister r.reg then observeValue addr (s.snap.read16 addr) (s.mem.read16 addr) s
    else observeValue addr (s.snap.read addr).toNat (s.mem.read addr).toNat s

theorem observeReg_eq (ts : Nat) (s : State) (r : ObservedReg) :
    observeReg ts s r = refreshSnapshot (observedBytes s.cfg r) (deliverReg ts s r) := rfl

theorem deliverReg_cfg (ts : Nat) (s : State) (r : ObservedReg) : (deliverReg ts s r).cfg = s.cfg := by
  obtain ⟨t, ht, he⟩ := observeReg_cases ts s r
  rw [observeReg_eq] at he
  exact (congrArg State.cfg he :).trans ht.only.cfg

theorem takeInterrupt_eq (v : IrqVector) (s : State) :
    takeInterrupt v s =
      ((s.withIc (s.ic.setVec v .inService)).withMem
        (s.mem.clearBit (flagReg s.cfg (vectorTimer v)) (vectorRow s.cfg v).flagBit)).emit
        (.dispatch (vectorRow s.cfg v).id (vectorRow s.cfg v).handlerAddress) := rfl

theorem signalEvent_eq (t : TimerId) (e : TimerEvent) (s : State) :
    signalEvent t e s =
      if (s.mem.setBit (flagReg s.cfg t) (flagBit s.cfg t e)).bit (maskReg s.cfg t) (maskBit s.cfg t e) then
        raiseVector (eventVector t e) (s.withMem (s.mem.setBit (flagReg s.cfg t) (flagBit s.cfg t e)))
      else s.withMem (s.mem.setBit (flagReg s.cfg t) (flagBit s.cfg t e)) := rfl

theorem batchWritten_eq (t : TimerId) (k : Nat) (s : State) :
    batchWritten t k s =
      (s.setTimer t (batchTimer t k s)).withMem (writeCounter s.cfg t s.mem (batchTimer t k s).counter) := rfl

/-! ## What each operation sees -/

section
variable {s u : State} (h : SameView s u)
include h

/-! ### The display decoder -/

theorem onDisplay_sameView (k : Nat) (f : DisplayState → DisplayState) :
    SameView (onDisplay k f s) (onDisplay k f u) := by
  simp only [onDisplay, h.display?]
  cases s.display? k with
  | none => exact h
  | some D =>
    dsimp only
    split
    · exact (h.setDevice k _).emit _
    · exact h.setDevice k _

theorem warnOnDisplay_sameView (k : Nat) (w : Warning) : SameView (warnOnDisplay k w s) (warnOnDisplay k w u) := by
  simp only [warnOnDisplay, h.display?]
  cases s.display? k with
  | none => exact h
  | some D => exact h.warn w

theorem setDdramAddress_sameView (k a : Nat) : SameView (setDdramAddress k a s) (setDdramAddress k a u) := by
  simp only [setDdramAddress, h.display?]
  cases s.display? k with
  | none => exact h
  | some D =>
    dsimp only
    cases addrToPos D.rows D.cols a with
    | none => exact warnOnDisplay_sameView h k _
    | some pos => exact onDisplay_sameView h k _

theorem dispatchByte_sameView (k : Nat) (rs : Bool) (b : Byte) :
    SameView (dispatchByte k rs b s) (dispatchByte k rs b u) := by
  unfold dispatchByte
  cases decodeDisplayByte rs b with
  | unknown => exact warnOnDisplay_sameView h k _
  | clear => exact onDisplay_sameView h k _
  | home x => exact onDisplay_sameView h k _
  | entryModeSet id sh => exact h
  | displayControl d c b => exact onDisplay_sameView h k _
  | cursorDisplayShift sc rl x => exact h
  | functionSet dl n f x => exact h
  | setCgramAddress a => exact h
  | setDdramAddress a => exact setDdramAddress_sameView h k _
  | writeData c => exact onDisplay_sameView h k _

theorem assemble_sameView (k : Nat) (D : DisplayState) (rs : Bool) (v : BitVec 4) :
    SameView (assemble k D rs v s) (assemble k D rs v u) := by
  unfold assemble
  split
  · exact h.setDevice k _
  · exact dispatchByte_sameView (h.setDevice k _) k rs _

theorem latch_sameView (k : Nat) : SameView (latch k s) (latch k u) := by
  simp only [latch, h.display?, h.cfg, h.agree.pinLevel, h.agree.lineValue]
  cases s.display? k with
  | none => exact h
  | some D =>
    dsimp only
    split
    · exact dispatchByte_sameView h k _ _
    · exact assemble_sameView h k D _ _

theorem pinChange_sameView (pin : Nat) (level : Bool) : SameView (pinChange pin level s) (pinChange pin level u) := by
  simp only [pinChange, displaysEnabledBy, h.devs]
  split
  · exact h
  · exact h.foldl (fun _ _ k hs => latch_sameView hs k) _

/-! ### The servo engine -/

theorem rejectNoTop_sameView (k : Nat) (V : ServoState) (mode : Nat) :
    SameView (rejectNoTop k V mode s) (rejectNoTop k V mode u) := (h.warn _).setDevice k _

theorem acceptPulse_sameView (k : Nat) (V : ServoState) (pw : Nat) :
    SameView (acceptPulse k V pw s) (acceptPulse k V pw u) := by
  simp only [acceptPulse, h.cfg]
  split
  · exact h.setDevice k _
  · exact (h.warn _).setDevice k _

theorem decodePulse_sameView (k : Nat) (V : ServoState) (ch : ServoChannel) :
    SameView (decodePulse k V ch s) (decodePulse k V ch u) := by
  simp only [decodePulse, h.countKind, h.mode, h.top, h.compare]
  split
  · exact rejectNoTop_sameView h k V _
  · split
    · exact rejectNoTop_sameView h k V _
    · exact acceptPulse_sameView h k V _

theorem decodeServo_sameView (k : Nat) : SameView (decodeServo k s) (decodeServo k u) := by
  simp only [decodeServo, h.servo?]
  cases s.servo? k with
  | none => exact h
  | some V =>
    dsimp only
    cases V.channel with
    | none => exact h
    | some ch => exact decodePulse_sameView h k V ch

theorem regChange_sameView (a : Nat) : SameView (regChange a s) (regChange a u) := by
  simp only [regChange, servosTriggeredBy, h.devs, h.cfg, h.agree.triggeredBy]
  exact h.foldl (fun _ _ k hs => decodeServo_sameView hs k) _

theorem motionServo_sameView (now k : Nat) : SameView (motionServo now k s) (motionServo now k u) := by
  simp only [motionServo, h.servo?, h.cfg]
  cases s.servo? k with
  | none => exact h
  | some V =>
    dsimp only
    split
    · exact (h.setDevice k _).emit _
    · exact h.setDevice k _

theorem motion_sameView : SameView (motion s) (motion u) := by
  simp only [motion, servoHandles, h.devs, h.nowMicros]
  exact h.foldl (fun _ _ k hs => motionServo_sameView hs _ k) _

theorem setLoad_sameView (k load arm : Nat) : SameView (setLoad k load arm s) (setLoad k load arm u) := by
  simp only [setLoad, h.servo?]
  cases s.servo? k with
  | none => exact h
  | some V => exact h.setDevice k _

/-! ### The observer bridge -/

theorem observeBit_sameView (ts addr : Nat) (old new : Byte) (i : Nat) :
    SameView (observeBit ts addr old new s i) (observeBit ts addr old new u i) := by
  simp only [observeBit, h.cfg]
  split
  · exact h
  · cases pinOf s.cfg addr i with
    | none => exact h
    | some p => exact pinChange_sameView (h.emit _) p _

theorem observeValue_sameView (addr old new : Nat) :
    SameView (observeValue addr old new s) (observeValue addr old new u) := by
  unfold observeValue
  split
  · exact h
  · exact regChange_sameView (h.emit _) addr

/-- The events of one register are delivered alike. -/
theorem deliverReg_sameView (ts : Nat) (r : ObservedReg) : SameView (deliverReg ts s r) (deliverReg ts u r) := by
  obtain ⟨hread, hwide⟩ := registerAddr_mem (c := s.cfg) r.reg
  simp only [deliverReg, h.cfg, h.snap, h.agree _ hread]
  split
  · exact h.foldl (fun _ _ i hs => observeBit_sameView hs _ _ _ _ i) _
  · split
    · next hw =>
      rw [h.agree.read16 hread (hwide hw)]
      exact observeValue_sameView h _ _ _
    · exact observeValue_sameView h _ _ _

theorem observeReg_sameView (ts : Nat) (r : ObservedReg) : SameView (observeReg ts s r) (observeReg ts u r) := by
  rw [observeReg_eq, observeReg_eq, h.cfg]
  refine (deliverReg_sameView h ts r).refreshSnapshot fun a ha => ?_
  rw [deliverReg_cfg]
  exact observedBytes_mem_bytes s.cfg r ha

theorem observe_sameView : SameView (observe s) (observe u) := by
  simp only [observe, h.cfg, h.nowMicros]
  exact h.foldl (fun _ _ r hs => observeReg_sameView hs _ r) _

/-! ### The interrupt controller -/

theorem raiseVector_sameView (v : IrqVector) : SameView (raiseVector v s) (raiseVector v u) := by
  simp only [raiseVector_eq, h.ic]
  exact h.withIc _

theorem raise_sameView (id : Nat) : SameView (raise id s) (raise id u) := by
  simp only [raise, h.cfg]
  cases vectorOfId s.cfg id with
  | none => exact h.warn _
  | some v => exact raiseVector_sameView h v

theorem setGie_sameView (b : Bool) : SameView (setGie b s) (setGie b u) :=
  h.map (f := setGie b) (fun _ _ => rfl) fun _ => rfl

theorem takeInterrupt_sameView (v : IrqVector) : SameView (takeInterrupt v s) (takeInterrupt v u) := by
  simp only [takeInterrupt_eq, h.ic, h.cfg]
  exact ((h.withIc (s.ic.setVec v .inService)).clearBit (flagReg_mem_bytes s.cfg (vectorTimer v)) _).emit _

theorem dispatchPending_sameView : SameView (dispatchPending s) (dispatchPending u) := by
  simp only [dispatchPending, h.ic, h.cfg]
  split
  · exact h
  · split
    · exact h
    · cases highest s.cfg s.ic.pendingVectors with
      | none => exact h
      | some w => exact takeInterrupt_sameView h w

theorem returnFromInterrupt_sameView : SameView (returnFromInterrupt s) (returnFromInterrupt u) := by
  simp only [returnFromInterrupt, h.ic]
  cases s.ic.inService with
  | none => exact h
  | some v => exact h.withIc _

/-! ### The timers -/

theorem signalEvent_sameView (t : TimerId) (e : TimerEvent) : SameView (signalEvent t e s) (signalEvent t e u) := by
  have hflag := h.setBit (flagReg_mem_bytes s.cfg t) (flagBit s.cfg t e)
  have hmask : (u.mem.setBit (flagReg s.cfg t) (flagBit s.cfg t e)).bit (maskReg s.cfg t) (maskBit s.cfg t e) =
      (s.mem.setBit (flagReg s.cfg t) (flagBit s.cfg t e)).bit (maskReg s.cfg t) (maskBit s.cfg t e) :=
    hflag.agree.bit (maskReg_mem_bytes s.cfg t) _
  simp only [signalEvent_eq, h.cfg, hmask]
  split
  · exact raiseVector_sameView hflag _
  · exact hflag

theorem signalIf_sameView (b : Bool) (t : TimerId) (e : TimerEvent) :
    SameView (signalIf b t e s) (signalIf b t e u) := by
  cases b
  · exact h
  · exact signalEvent_sameView h t e

theorem SameView.batchTimer (t : TimerId) (k : Nat) : batchTimer t k u = batchTimer t k s := by
  simp only [Machine.batchTimer, h.countKind, h.count, h.top, h.compare, h.timer]

theorem batchWritten_sameView (t : TimerId) (k : Nat) : SameView (batchWritten t k s) (batchWritten t k u) := by
  have hset := (h.setTimer t (batchTimer t k s)).writeCounter t (batchTimer t k s).counter
  simp only [State.setTimer_cfg, State.setTimer_mem] at hset
  simp only [batchWritten_eq, h.batchTimer, h.cfg]
  exact hset

theorem tickBatch_sameView (t : TimerId) (k : Nat) : SameView (tickBatch t k s) (tickBatch t k u) := by
  simp only [tickBatch_eq, h.batchTimer]
  exact signalIf_sameView (signalIf_sameView (signalIf_sameView (batchWritten_sameView h t k) _ _ _) _ _ _) _ _ _

theorem tickPrescaled_sameView (t : TimerId) (d n : Nat) :
    SameView (tickPrescaled t d n s) (tickPrescaled t d n u) := by
  simp only [tickPrescaled, h.timer]
  split
  · exact h.setTimer t _
  · exact tickBatch_sameView (h.setTimer t _) t _

theorem tick_sameView (t : TimerId) (n : Nat) : SameView (tick t n s) (tick t n u) := by
  have hdec := h.setTimer t { s.timer t with prescaler := s.clock t }
  simp only [tick, h.clock, h.mode, h.countKind, h.timer, h.cfg, h.agree.clockSelect]
  split
  · exact h
  · split
    · exact hdec
    · split
      · exact hdec.warn _
      · cases (s.clock t).divisor? with
        | none => exact hdec.warn _
        | some d => exact tickPrescaled_sameView hdec t d n

/-! ### Registration and reset -/

theorem registerDisplay_sameView (rs en : Nat) (d : List Nat) (rows cols : Nat) (mode : Addressing) :
    SameView (registerDisplay rs en d rows cols mode s) (registerDisplay rs en d rows cols mode u) := by
  simp only [registerDisplay, h.cfg]
  split
  · exact h.addDevice _
  · exact h.warn _

theorem registerServo_sameView (pin speed deadband maxTorque load arm period initAngle : Nat) :
    SameView (registerServo pin speed deadband maxTorque load arm period initAngle s)
      (registerServo pin speed deadband maxTorque load arm period initAngle u) := by
  simp only [registerServo, h.cfg, h.nowMicros]
  split
  · split
    · exact (h.warn _).addDevice _
    · exact h.addDevice _
  · exact h.warn _

theorem resetBlock_sameView : SameView (resetBlock s) (resetBlock u) := by
  have hsnap := (h.map (f := fun x => { x with snap := [] }) (fun _ _ => rfl) fun _ => rfl).refreshSnapshot
    (addrs := observedAddrs s.cfg) fun _ ha => observedAddrs_mem ha
  have hrest := hsnap.map (f := fun x =>
    { x with
      t0 := TimerState.reset 0xFF, t1 := TimerState.reset 0xFFFF, ic := IcState.reset, time := ⟨0⟩,
      devs := { x.devs with entries := x.devs.entries.map fun e => (e.1, resetDevice e.2) } })
    (fun _ _ => rfl) fun _ => rfl
  have hcfg := h.cfg
  simpa only [resetBlock, Machine.refreshSnapshot, hcfg] using hrest

end

/-! ## Operations of the block -/

/-- The bytes of register memory that the block writes: the counters and the flag registers (R72). -/
def blockWrites (c : Config) : List Nat := [c.reg.tcnt0, c.reg.tcnt1, c.reg.tcnt1 + 1, c.reg.tifr0, c.reg.tifr1]

theorem timerWrites_subset_blockWrites (c : Config) (t : TimerId) : timerWrites c t ⊆ blockWrites c := by
  cases t <;> simp [timerWrites, blockWrites]

/-- What every operation of the block does with register memory: it writes counter and flag bytes only, and it reads
the register map only. -/
structure BlockOp (f : State → State) : Prop where
  cfg : ∀ s, (f s).cfg = s.cfg
  writes : ∀ s a, a ∉ blockWrites s.cfg → (f s).mem.read a = s.mem.read a
  view : ∀ s u, SameView s u → SameView (f s) (f u)

theorem BlockOp.comp {f g : State → State} (hg : BlockOp g) (hf : BlockOp f) : BlockOp (fun s => g (f s)) where
  cfg s := (hg.cfg (f s)).trans (hf.cfg s)
  writes s a ha := (hg.writes (f s) a (by rwa [hf.cfg])).trans (hf.writes s a ha)
  view s u h := hg.view _ _ (hf.view s u h)

/-- An operation that leaves register memory alone. -/
theorem BlockOp.of_mem_eq {f : State → State} (hc : ∀ s, (f s).cfg = s.cfg) (hm : ∀ s, (f s).mem = s.mem)
    (hv : ∀ s u, SameView s u → SameView (f s) (f u)) : BlockOp f :=
  ⟨hc, fun s a _ => by rw [hm], hv⟩

theorem BlockOp.of_onlyDevices {f : State → State} (ho : ∀ s, OnlyDevices s (f s))
    (hv : ∀ s u, SameView s u → SameView (f s) (f u)) : BlockOp f :=
  .of_mem_eq (fun s => (ho s).cfg) (fun s => (ho s).mem) hv

/-- An operation that neither reads nor writes register memory. -/
theorem BlockOp.of_withMem_comm {f : State → State} (hf : ∀ s m, f (s.withMem m) = (f s).withMem m)
    (hc : ∀ s, (f s).cfg = s.cfg) : BlockOp f :=
  .of_mem_eq hc (mem_eq_of_withMem_comm hf) fun _ _ h => h.map hf hc

theorem blockOp_id : BlockOp fun s => s := .of_withMem_comm (fun _ _ => rfl) fun _ => rfl

theorem blockOp_timeTick (n : Nat) : BlockOp (timeTick n) := .of_withMem_comm (fun _ _ => rfl) fun _ => rfl

theorem blockOp_tick (t : TimerId) (n : Nat) : BlockOp (tick t n) where
  cfg s := (tick_step t n s).cfg
  writes s a ha := (tick_step t n s).mem a fun hm => ha (timerWrites_subset_blockWrites s.cfg t hm)
  view _ _ h := tick_sameView h t n

theorem blockOp_setGie (b : Bool) : BlockOp (setGie b) := .of_withMem_comm (fun _ _ => rfl) fun _ => rfl

theorem blockOp_removeDevice (k : Nat) : BlockOp (State.removeDevice · k) :=
  .of_withMem_comm (fun _ _ => rfl) fun _ => rfl

theorem blockOp_nowMicros : BlockOp fun s => s.emit (.value s.nowMicros) :=
  .of_withMem_comm (fun _ _ => rfl) fun _ => rfl

theorem blockOp_nowMillis : BlockOp fun s => s.emit (.value s.nowMillis) :=
  .of_withMem_comm (fun _ _ => rfl) fun _ => rfl

theorem blockOp_raise (id : Nat) : BlockOp (raise id) := by
  have hframe (s : State) : (raise id s).cfg = s.cfg ∧ (raise id s).mem = s.mem := by
    unfold raise
    split
    · exact ⟨rfl, rfl⟩
    · rw [raiseVector_eq]
      exact ⟨rfl, rfl⟩
  exact .of_mem_eq (fun s => (hframe s).1) (fun s => (hframe s).2) fun _ _ h => raise_sameView h id

theorem blockOp_dispatchPending : BlockOp dispatchPending := by
  refine ⟨fun s => (dispatchPending_registersNothing s).cfg, fun s a ha => ?_, fun _ _ h => dispatchPending_sameView h⟩
  rcases dispatchPending_cases s with ⟨he, -⟩ | ⟨-, -, w, -, -, he⟩ <;> rw [he]
  rw [takeInterrupt_mem]
  refine Memory.read_write_other _ _ fun hflag => ha ?_
  exact timerWrites_subset_blockWrites s.cfg _ (hflag ▸ flagReg_mem_timerWrites s.cfg _)

theorem blockOp_returnFromInterrupt : BlockOp returnFromInterrupt := by
  have hmem (s : State) : (returnFromInterrupt s).mem = s.mem := by
    rcases returnFromInterrupt_cases s with ⟨he, -⟩ | ⟨u, -, he⟩ <;> rw [he]
  exact .of_mem_eq (fun s => (returnFromInterrupt_registersNothing s).cfg) hmem
    fun _ _ h => returnFromInterrupt_sameView h

theorem blockOp_observe : BlockOp observe :=
  .of_mem_eq (fun s => (observe_observation s).cfg) (fun s => (observe_observation s).mem) fun _ _ h =>
    observe_sameView h

/-- The refresh of the global-enable mirror from SREG in a step (R271). -/
def refreshGie (s : State) : State := setGie (s.mem.bit s.cfg.reg.sreg 7) s

theorem blockOp_refreshGie : BlockOp refreshGie := by
  refine .of_mem_eq (fun _ => rfl) (fun _ => rfl) fun s u h => ?_
  rw [refreshGie, refreshGie, h.cfg, h.agree.bit (sreg_mem_bytes s.cfg)]
  exact setGie_sameView h _

/-- A step is six operations one after the other (R272). -/
theorem stepCycles_eq (n : Nat) (s : State) :
    stepCycles n s = observe (dispatchPending (refreshGie (tick .t1 n (tick .t0 n (timeTick n s))))) := by
  simp only [stepCycles, refreshGie, tick_cfg]
  rfl

theorem blockOp_stepCycles (n : Nat) : BlockOp (stepCycles n) := by
  rw [funext (stepCycles_eq n)]
  exact blockOp_observe.comp <| blockOp_dispatchPending.comp <| blockOp_refreshGie.comp <|
    (blockOp_tick .t1 n).comp <| (blockOp_tick .t0 n).comp (blockOp_timeTick n)

theorem blockOp_onDisplay (k : Nat) {f : DisplayState → DisplayState} (hf : ∀ D, SameDisplayConfig D (f D)) :
    BlockOp (onDisplay k f) :=
  .of_onlyDevices (fun s => (onDisplay_step k hf s).only) fun _ _ h => onDisplay_sameView h k f

theorem registerDisplay_mem (rs en : Nat) (d : List Nat) (rows cols : Nat) (mode : Addressing) (s : State) :
    (registerDisplay rs en d rows cols mode s).mem = s.mem := by
  rcases registerDisplay_cases rs en d rows cols mode s with ⟨-, he⟩ | ⟨-, he⟩ <;> rw [he]
  · exact State.addDevice_mem s _
  · exact State.warn_mem s _

theorem registerServo_mem (pin speed deadband maxTorque load arm period initAngle : Nat) (s : State) :
    (registerServo pin speed deadband maxTorque load arm period initAngle s).mem = s.mem := by
  simp only [registerServo]
  split
  · rw [State.addDevice_mem]
    split <;> rfl
  · exact State.warn_mem s _

theorem blockOp_registerDisplay (rs en : Nat) (d : List Nat) (rows cols : Nat) (mode : Addressing) :
    BlockOp (registerDisplay rs en d rows cols mode) :=
  .of_mem_eq (fun s => (registerDisplay_historyStep rs en d rows cols mode s).cfg)
    (registerDisplay_mem rs en d rows cols mode) fun _ _ h => registerDisplay_sameView h rs en d rows cols mode

theorem blockOp_registerServo (pin speed deadband maxTorque load arm period initAngle : Nat) :
    BlockOp (registerServo pin speed deadband maxTorque load arm period initAngle) :=
  .of_mem_eq (fun s => (registerServo_historyStep pin speed deadband maxTorque load arm period initAngle s).cfg)
    (registerServo_mem pin speed deadband maxTorque load arm period initAngle)
    fun _ _ h => registerServo_sameView h pin speed deadband maxTorque load arm period initAngle

/-! ## Every instruction -/

/-- Every instruction but MEMWRITE is an operation of the block. -/
theorem exec_blockOp {i : Instr} (hi : ∀ a v, i ≠ .memwrite a v) :
    ∃ f, BlockOp f ∧ ∀ s, exec i s = .next (f s) := by
  cases i with
  | reset => exact ⟨_, .of_mem_eq resetBlock_cfg resetBlock_mem fun _ _ => resetBlock_sameView, exec_reset⟩
  | step n => exact ⟨_, blockOp_stepCycles n, (exec_step · n)⟩
  | memwrite a v => exact absurd rfl (hi a v)
  | motion => exact ⟨_, .of_onlyDevices (fun s => (motion_step s).only) fun _ _ => motion_sameView, exec_motion⟩
  | tick t n => exact ⟨_, blockOp_tick t n, (exec_tick · t n)⟩
  | raise v => exact ⟨_, blockOp_raise v, (exec_raise · v)⟩
  | setgie b => exact ⟨_, blockOp_setGie b, (exec_setgie · b)⟩
  | dispatch => exact ⟨_, blockOp_dispatchPending, exec_dispatch⟩
  | reti => exact ⟨_, blockOp_returnFromInterrupt, exec_reti⟩
  | observe => exact ⟨_, blockOp_observe, exec_observe⟩
  | pinchange pin level ts =>
    exact ⟨_, .of_onlyDevices (fun s => (pinChange_step pin level s).only) fun _ _ h => pinChange_sameView h pin level,
      (exec_pinchange · pin level ts)⟩
  | regchange a old new =>
    exact ⟨_, .of_onlyDevices (fun s => (regChange_step a s).only) fun _ _ h => regChange_sameView h a,
      (exec_regchange · a old new)⟩
  | regdisplay rs en d rows cols mode =>
    exact ⟨_, blockOp_registerDisplay rs en d rows cols mode, (exec_regdisplay · rs en d rows cols mode)⟩
  | regservo pin speed deadband maxTorque load arm period initAngle =>
    exact ⟨_, blockOp_registerServo pin speed deadband maxTorque load arm period initAngle,
      (exec_regservo · pin speed deadband maxTorque load arm period initAngle)⟩
  | unreg k => exact ⟨_, blockOp_removeDevice k, (exec_unreg · k)⟩
  | setload k load arm =>
    exact ⟨_, .of_onlyDevices (setLoad_onlyDevices k load arm) fun _ _ h => setLoad_sameView h k load arm,
      (exec_setload · k load arm)⟩
  | timetick n => exact ⟨_, blockOp_timeTick n, (exec_timetick · n)⟩
  | nowus => exact ⟨_, blockOp_nowMicros, exec_nowus⟩
  | nowms => exact ⟨_, blockOp_nowMillis, exec_nowms⟩
  | lcdUnknown k =>
    exact ⟨_, .of_onlyDevices (fun s => (warnOnDisplay_step k _ s).only) fun _ _ h => warnOnDisplay_sameView h k _,
      (exec_lcdUnknown · k)⟩
  | lcdClear k => exact ⟨_, blockOp_onDisplay k clearDisplay_config, (exec_lcdClear · k)⟩
  | lcdHome k x => exact ⟨_, blockOp_onDisplay k clearDisplay_config, (exec_lcdHome · k x)⟩
  | lcdEntryModeSet k inc shift => exact ⟨_, blockOp_id, (exec_lcdEntryModeSet · k inc shift)⟩
  | lcdDisplayControl k d c b =>
    exact ⟨_, blockOp_onDisplay k (controlDisplay_config d c b), (exec_lcdDisplayControl · k d c b)⟩
  | lcdCursorDisplayShift k sc rl x => exact ⟨_, blockOp_id, (exec_lcdCursorDisplayShift · k sc rl x)⟩
  | lcdFunctionSet k dl n f x => exact ⟨_, blockOp_id, (exec_lcdFunctionSet · k dl n f x)⟩
  | lcdSetCgramAddress k a => exact ⟨_, blockOp_id, (exec_lcdSetCgramAddress · k a)⟩
  | lcdSetDdramAddress k a =>
    exact ⟨_, .of_onlyDevices (fun s => (setDdramAddress_step k a.toNat s).only)
      fun _ _ h => setDdramAddress_sameView h k a.toNat, (exec_lcdSetDdramAddress · k a)⟩
  | lcdWriteData k c => exact ⟨_, blockOp_onDisplay k (writeChar_config c), (exec_lcdWriteData · k c)⟩

/-- An instruction is MEMWRITE, the CPU's write, or an operation of the block. -/
theorem memwrite_or_blockOp (i : Instr) :
    (∃ a v, i = .memwrite a v) ∨ ∃ f, BlockOp f ∧ ∀ s, exec i s = .next (f s) := by
  by_cases hi : ∃ a v, i = .memwrite a v
  · exact .inl hi
  · exact .inr (exec_blockOp fun a v he => hi ⟨a, v, he⟩)

/-- What an instruction answers from one state, it answers from another with the same view (R75). -/
theorem exec_sameView {i : Instr} {s t u : State} (h : SameView s u) (he : exec i s = .next t) :
    ∃ w, exec i u = .next w ∧ SameView t w := by
  rcases memwrite_or_blockOp i with ⟨a, v, rfl⟩ | ⟨f, hf, hexec⟩
  · obtain ⟨ha, rfl⟩ := exec_memwrite_next he
    exact ⟨_, exec_memwrite u a v (h.cfg ▸ ha), h.write a v⟩
  · rw [hexec, Host.Outcome.next.injEq] at he
    exact ⟨f u, hexec u, he ▸ hf.view s u h⟩

/-- Settles O57: MEMWRITE writes its own address only, and every other instruction is an operation of the block, which
writes counter and flag bytes and reads the register map. -/
theorem blockWritesOnlyTimerBytes : Obligations.BlockWritesOnlyTimerBytes := by
  refine ⟨fun i s t a he hi ha => ?_, fun i s t m hs hm hread he => ?_⟩
  · rcases memwrite_or_blockOp i with ⟨b, v, rfl⟩ | ⟨f, hf, hexec⟩
    · obtain ⟨-, rfl⟩ := exec_memwrite_next he
      exact Memory.read_write_other s.mem v fun hab => hi v (by rw [hab])
    · rw [hexec, Host.Outcome.next.injEq] at he
      exact he ▸ hf.writes s a ha
  · obtain ⟨w, hw, hview⟩ := exec_sameView (u := s.withMem m) ⟨rfl, hs, hm, hread⟩ he
    have hcfg : t.cfg = s.cfg := (historyOnlyGrows i s t he).1
    exact ⟨w, hw, hview.same, fun a ha => hview.agree a (hcfg ▸ ha)⟩

end Sys2Proof.Machine
end

section
/-! PROOFS. Encoder and decoders are inverse to each other (R101, R102, R107, R108). One notion, `operand`, says what
the bytes of a command mean, with a law for bytes in front of an operand, one for reading what was written and one for
writing what was read; each row of R102's opcode map is one equation over it. -/

namespace Sys2Proof

/-! ## Operands of a command (R101) -/

/-- The operand of `k` bytes at byte `i`: `u8`, `u16` and `u32`, for every width. -/
def operand (k : Nat) (bs : List Byte) (i : Nat) : Nat := leNat ((bs.drop i).take k)

theorem u8_eq_operand (bs : List Byte) (i : Nat) : u8 bs i = operand 1 bs i := rfl

@[simp] theorem operand_succ_cons (k : Nat) (b : Byte) (bs : List Byte) (i : Nat) :
    operand k (b :: bs) (i + 1) = operand k bs i := rfl

@[simp] theorem operand_one_cons (b : Byte) (bs : List Byte) : operand 1 (b :: bs) 0 = b.toNat := by
  simp [operand, leNat]

@[simp] theorem operand_two_cons (lo hi : Byte) (bs : List Byte) :
    operand 2 (lo :: hi :: bs) 0 = lo.toNat + 256 * hi.toNat := by
  simp [operand, leNat]

/-- An operand behind other bytes is read past them. -/
@[simp] theorem operand_append_right (k : Nat) (l bs : List Byte) {i : Nat} (h : l.length ≤ i) :
    operand k (l ++ bs) i = operand k bs (i - l.length) := by
  simp only [operand, List.drop_append, List.drop_eq_nil_of_le h, List.nil_append]

/-- A natural that fits its width is read from the place where it was written. -/
@[simp] theorem operand_leBytes {k n : Nat} (h : fitsBytes k n = true) (bs : List Byte) :
    operand k (leBytes k n ++ bs) 0 = n := by
  rw [operand, List.drop_zero, List.take_left' (leBytes_length k n), leNat_leBytes (fitsBytes_iff.mp h)]

/-- The bytes of an operand that was read are those it was read from. -/
theorem leBytes_operand {k i : Nat} {bs : List Byte} (h : i + k ≤ bs.length) :
    leBytes k (operand k bs i) = (bs.drop i).take k := by
  have hlen : ((bs.drop i).take k).length = k := by
    rw [List.length_take, List.length_drop]
    omega
  have hread := leBytes_leNat ((bs.drop i).take k)
  rwa [hlen] at hread

theorem leBytes_operand_zero {k : Nat} {bs : List Byte} (h : k ≤ bs.length) :
    leBytes k (operand k bs 0) = bs.take k := leBytes_operand (by omega)

/-- The bytes before an operand and the operand's bytes are the bytes up to its end. -/
theorem take_append_leBytes_operand {k i : Nat} {bs : List Byte} (h : i + k ≤ bs.length) :
    bs.take i ++ leBytes k (operand k bs i) = bs.take (i + k) := by
  rw [leBytes_operand h, ← List.take_add]

@[simp] theorem fitsBytes_timerOperand (t : TimerId) : fitsBytes 1 t.operand = true := by cases t <;> rfl

@[simp] theorem fitsBytes_boolToNat (b : Bool) : fitsBytes 1 b.toNat = true := by cases b <;> rfl

@[simp] theorem fitsBytes_addressingOperand (m : Addressing) : fitsBytes 1 m.operand = true := by cases m <;> rfl

/-- A natural that fits a byte is read back from it. -/
theorem toNat_ofNat_of_fitsBytes {n : Nat} (h : fitsBytes 1 n = true) : (BitVec.ofNat 8 n).toNat = n := by
  have hn : n < 256 ^ 1 := fitsBytes_iff.mp h
  rw [BitVec.toNat_ofNat]
  omega

/-- Naturals that fit a byte each are read back from their bytes. -/
theorem map_toNat_map_ofNat {d : List Nat} (h : d.all (fitsBytes 1) = true) :
    (d.map (BitVec.ofNat 8)).map BitVec.toNat = d := by
  rw [List.map_map]
  exact (List.map_congr_left fun n hn => toNat_ofNat_of_fitsBytes (List.all_eq_true.mp h n hn)).trans (List.map_id d)

theorem map_ofNat_map_toNat (bs : List Byte) : (bs.map BitVec.toNat).map (BitVec.ofNat 8) = bs := by
  rw [List.map_map]
  exact (List.map_congr_left fun b _ => by simp).trans (List.map_id bs)

/-! ## The answers of the command decoder (R101, R102, R104) -/

section Answers

variable {mnemonic : String} {length n : Nat} {bs : List Byte} {j : Instr}

@[simp] theorem sized_eq_instr_iff {i : Instr} :
    sized mnemonic length bs i = .instr j n ↔ length ≤ bs.length ∧ i = j ∧ length = n := by
  unfold sized
  split <;> simp <;> omega

@[simp] theorem sizedChecked_eq_instr_iff {i : Option Instr} :
    sizedChecked mnemonic length bs i = .instr j n ↔ length ≤ bs.length ∧ i = some j ∧ length = n := by
  unfold sizedChecked
  split
  · simp; omega
  · cases i <;> simp; omega

end Answers

/-! ## The opcode map, row by row (R102) -/

section Rows

variable (c : Config) (bs : List Byte)

@[simp] theorem decodeCommand_reset : decodeCommand c (0x01#8 :: bs) = sized "RESET" 1 (0x01#8 :: bs) .reset := rfl

@[simp] theorem decodeCommand_step :
    decodeCommand c (0x02#8 :: bs) = sized "STEP" 5 (0x02#8 :: bs) (.step (operand 4 bs 0)) := rfl

@[simp] theorem decodeCommand_memwrite :
    decodeCommand c (0x03#8 :: bs) = sizedChecked "MEMWRITE" 4 (0x03#8 :: bs)
      (if operand 2 bs 0 < c.regMemSize then some (.memwrite (operand 2 bs 0) (BitVec.ofNat 8 (operand 1 bs 2)))
        else none) := rfl

@[simp] theorem decodeCommand_motion : decodeCommand c (0x04#8 :: bs) = sized "MOTION" 1 (0x04#8 :: bs) .motion := rfl

@[simp] theorem decodeCommand_tick :
    decodeCommand c (0x10#8 :: bs) = sizedChecked "TICK" 6 (0x10#8 :: bs)
      ((timerOfOperand (operand 1 bs 0)).map fun t => .tick t (operand 4 bs 1)) := rfl

@[simp] theorem decodeCommand_raise :
    decodeCommand c (0x20#8 :: bs) = sized "RAISE" 2 (0x20#8 :: bs) (.raise (operand 1 bs 0)) := rfl

@[simp] theorem decodeCommand_setgie :
    decodeCommand c (0x21#8 :: bs) = sizedChecked "SETGIE" 2 (0x21#8 :: bs)
      ((boolOfOperand (operand 1 bs 0)).map .setgie) := rfl

@[simp] theorem decodeCommand_dispatch :
    decodeCommand c (0x22#8 :: bs) = sized "DISPATCH" 1 (0x22#8 :: bs) .dispatch := rfl

@[simp] theorem decodeCommand_reti : decodeCommand c (0x23#8 :: bs) = sized "RETI" 1 (0x23#8 :: bs) .reti := rfl

@[simp] theorem decodeCommand_observe :
    decodeCommand c (0x30#8 :: bs) = sized "OBSERVE" 1 (0x30#8 :: bs) .observe := rfl

@[simp] theorem decodeCommand_pinchange :
    decodeCommand c (0x31#8 :: bs) = sizedChecked "PINCHANGE" 7 (0x31#8 :: bs)
      ((boolOfOperand (operand 1 bs 1)).map fun level => .pinchange (operand 1 bs 0) level (operand 4 bs 2)) := rfl

@[simp] theorem decodeCommand_regchange :
    decodeCommand c (0x32#8 :: bs) = sized "REGCHANGE" 7 (0x32#8 :: bs)
      (.regchange (operand 2 bs 0) (operand 2 bs 2) (operand 2 bs 4)) := rfl

theorem decodeCommand_regdisplay : decodeCommand c (0x40#8 :: bs) = decodeRegdisplay (0x40#8 :: bs) := rfl

@[simp] theorem decodeCommand_regservo :
    decodeCommand c (0x41#8 :: bs) = sized "REGSERVO" 30 (0x41#8 :: bs)
      (.regservo (operand 1 bs 0) (operand 4 bs 1) (operand 4 bs 5) (operand 4 bs 9) (operand 4 bs 13)
        (operand 4 bs 17) (operand 4 bs 21) (operand 4 bs 25)) := rfl

@[simp] theorem decodeCommand_unreg :
    decodeCommand c (0x42#8 :: bs) = sized "UNREG" 3 (0x42#8 :: bs) (.unreg (operand 2 bs 0)) := rfl

@[simp] theorem decodeCommand_setload :
    decodeCommand c (0x43#8 :: bs) = sized "SETLOAD" 11 (0x43#8 :: bs)
      (.setload (operand 2 bs 0) (operand 4 bs 2) (operand 4 bs 6)) := rfl

@[simp] theorem decodeCommand_timetick :
    decodeCommand c (0x50#8 :: bs) = sized "TIMETICK" 5 (0x50#8 :: bs) (.timetick (operand 4 bs 0)) := rfl

@[simp] theorem decodeCommand_nowus : decodeCommand c (0x51#8 :: bs) = sized "NOWUS" 1 (0x51#8 :: bs) .nowus := rfl

@[simp] theorem decodeCommand_nowms : decodeCommand c (0x52#8 :: bs) = sized "NOWMS" 1 (0x52#8 :: bs) .nowms := rfl

end Rows

/-- REGDISPLAY with 4 or 8 data lines: the mode is the last of its `7 + n` bytes. -/
theorem decodeCommand_regdisplay_bytes (c : Config) (rs en rows cols mode : Byte) {n : Byte} {d : List Byte}
    (hn : n.toNat = 4 ∨ n.toNat = 8) (hd : d.length = n.toNat) (r : List Byte) :
    decodeCommand c (0x40 :: rs :: en :: n :: (d ++ rows :: cols :: mode :: r)) =
      sizedChecked "REGDISPLAY" (7 + d.length) (0x40 :: rs :: en :: n :: (d ++ rows :: cols :: mode :: r))
        ((addressingOfOperand mode.toNat).map
          (.regdisplay rs.toNat en.toNat (d.map BitVec.toNat) rows.toNat cols.toNat)) := by
  have hlines : ∀ t, (d ++ t).take n.toNat = d := fun t => List.take_left' hd
  refine (decodeCommand_regdisplay c _).trans ?_
  rcases hn with hn | hn <;> rw [hn] at hd hlines <;>
    simp [decodeRegdisplay, u8_eq_operand, hn, hd, hlines, -List.map_take]

/-! ## From the instruction to its bytes and back -/

theorem decodeCommand_encode_regdisplay {c : Config} {rs en rows cols : Nat} {d : List Nat} {mode : Addressing}
    (hi : (Instr.regdisplay rs en d rows cols mode).WellFormed c) (rest : List Byte) :
    decodeCommand c (encode (.regdisplay rs en d rows cols mode) ++ rest) =
      .instr (.regdisplay rs en d rows cols mode) (7 + d.length) := by
  simp only [Instr.WellFormed, Instr.wellFormed, Bool.and_eq_true, Bool.or_eq_true, beq_iff_eq] at hi
  obtain ⟨⟨⟨⟨⟨hrs, hen⟩, hlen⟩, hd⟩, hrows⟩, hcols⟩ := hi
  have hn : (BitVec.ofNat 8 d.length).toNat = d.length :=
    toNat_ofNat_of_fitsBytes (by rcases hlen with h | h <;> rw [h] <;> decide)
  have hread := decodeCommand_regdisplay_bytes c (BitVec.ofNat 8 rs) (BitVec.ofNat 8 en) (BitVec.ofNat 8 rows)
    (BitVec.ofNat 8 cols) (BitVec.ofNat 8 mode.operand) (hn.symm ▸ hlen)
    (show (d.map (BitVec.ofNat 8)).length = _ by rw [List.length_map, hn]) rest
  simp only [map_toNat_map_ofNat hd, toNat_ofNat_of_fitsBytes, hrs, hen, hrows, hcols, fitsBytes_addressingOperand,
    addressingOfOperand_operand, Option.map_some, List.length_map] at hread
  simp only [encode, leBytes_one, List.cons_append, List.nil_append, List.append_assoc, hread,
    sizedChecked_eq_instr_iff]
  simp +arith

/-- The command decoder reads a well-formed command back from its encoding: the opcode selects the row, and each operand
is read from where the encoder wrote it. -/
theorem decodeCommand_encode {c : Config} {i : Instr} (hi : i.WellFormed c) (hs : i.source = .stream)
    (rest : List Byte) : decodeCommand c (encode i ++ rest) = .instr i (encode i).length := by
  cases i with
  | regdisplay rs en d rows cols mode =>
    rw [Laws.EncodeLength.regdisplay rs en d rows cols mode c hi]
    exact decodeCommand_encode_regdisplay hi rest
  | reset | motion | dispatch | reti | observe | nowus | nowms => simp [encode]
  | step n | raise n | unreg n | timetick n =>
    have hn : fitsBytes _ n = true := hi
    simp [encode, hn]
  | setgie b => simp [encode, boolOfOperand_toNat]
  | tick t n =>
    have hn : fitsBytes 4 n = true := hi
    simp +arith [encode, hn, timerOfOperand_operand]
  | memwrite a v =>
    simp only [Instr.WellFormed, Instr.wellFormed, Bool.and_eq_true, decide_eq_true_eq] at hi
    obtain ⟨ha, hinside⟩ := hi
    simp +arith [encode, ha, hinside]
  | pinchange pin level ts =>
    simp only [Instr.WellFormed, Instr.wellFormed, Bool.and_eq_true] at hi
    obtain ⟨hpin, hts⟩ := hi
    simp +arith [encode, hpin, hts, boolOfOperand_toNat]
  | regchange a old new =>
    simp only [Instr.WellFormed, Instr.wellFormed, Bool.and_eq_true] at hi
    obtain ⟨⟨ha, hold⟩, hnew⟩ := hi
    simp +arith [encode, ha, hold, hnew]
  | regservo pin speed deadband maxTorque load arm period initAngle =>
    simp only [Instr.WellFormed, Instr.wellFormed, Bool.and_eq_true] at hi
    simp +arith [encode, hi]
  | setload h load arm =>
    simp only [Instr.WellFormed, Instr.wellFormed, Bool.and_eq_true] at hi
    obtain ⟨⟨hh, hload⟩, harm⟩ := hi
    simp +arith [encode, hh, hload, harm]
  | lcdUnknown | lcdClear | lcdHome | lcdEntryModeSet | lcdDisplayControl | lcdCursorDisplayShift | lcdFunctionSet
  | lcdSetCgramAddress | lcdSetDdramAddress | lcdWriteData => exact absurd hs (by simp [Instr.source])

/-! ## The fields of a display byte are read back from it (R108)

The bits of the encoder's constant select the branch of the priority encoder, and the fields lie below them. -/

theorem decodeDisplayCommand_setDdramAddress (a : BitVec 7) :
    decodeDisplayCommand (1#1 ++ a : BitVec 8) = .setDdramAddress a := by
  have haddr : (1#1 ++ a : BitVec 8).extractLsb' 0 7 = a := BitVec.extractLsb'_append_eq_right
  simp only [decodeDisplayCommand, BitVec.getLsbD_append]
  simp [haddr]

theorem decodeDisplayCommand_setCgramAddress (a : BitVec 6) :
    decodeDisplayCommand (1#2 ++ a : BitVec 8) = .setCgramAddress a := by
  have haddr : (1#2 ++ a : BitVec 8).extractLsb' 0 6 = a := BitVec.extractLsb'_append_eq_right
  simp only [decodeDisplayCommand, BitVec.getLsbD_append]
  simp [haddr]

theorem decodeDisplayCommand_functionSet (dl n f : Bool) (x : BitVec 2) :
    decodeDisplayCommand (1#3 ++ bit01 dl ++ bit01 n ++ bit01 f ++ x : BitVec 8) = .functionSet dl n f x := by
  have hignored : ∀ y : BitVec 6, (y ++ x : BitVec 8).extractLsb' 0 2 = x :=
    fun _ => BitVec.extractLsb'_append_eq_right
  simp only [decodeDisplayCommand, BitVec.getLsbD_append, bit01]
  simp [hignored]

theorem decodeDisplayCommand_cursorDisplayShift (sc rl : Bool) (x : BitVec 2) :
    decodeDisplayCommand (1#4 ++ bit01 sc ++ bit01 rl ++ x : BitVec 8) = .cursorDisplayShift sc rl x := by
  have hignored : ∀ y : BitVec 6, (y ++ x : BitVec 8).extractLsb' 0 2 = x :=
    fun _ => BitVec.extractLsb'_append_eq_right
  simp only [decodeDisplayCommand, BitVec.getLsbD_append, bit01]
  simp [hignored]

theorem decodeDisplayCommand_displayControl (d c b : Bool) :
    decodeDisplayCommand (1#5 ++ bit01 d ++ bit01 c ++ bit01 b : BitVec 8) = .displayControl d c b := by
  simp only [decodeDisplayCommand, BitVec.getLsbD_append, bit01]
  simp

theorem decodeDisplayCommand_entryModeSet (id s : Bool) :
    decodeDisplayCommand (1#6 ++ bit01 id ++ bit01 s : BitVec 8) = .entryModeSet id s := by
  simp only [decodeDisplayCommand, BitVec.getLsbD_append, bit01]
  simp

theorem decodeDisplayCommand_home (x : Bool) :
    decodeDisplayCommand (1#7 ++ bit01 x : BitVec 8) = .home x := by
  simp only [decodeDisplayCommand, BitVec.getLsbD_append, bit01]
  simp

/-- A command byte on a display's data lines is read as the instruction of its meaning (R205). -/
theorem decodeFrom_lines (c : Config) {h : Nat} {b : Byte} {op : DisplayOp} (hop : decodeDisplayCommand b = op)
    (rest : List Byte) : decodeFrom c (.lines h false) (b :: rest) = .instr (op.toInstr h) 1 :=
  hop ▸ rfl

/-- Settles O4: a command is read back row by row of R102, a display byte row by row of R108. -/
theorem decodeOfEncode : Obligations.DecodeOfEncode := by
  intro c i rest hi
  cases i with
  | lcdUnknown | lcdClear => exact decodeFrom_lines c rfl rest
  | lcdHome h x => exact decodeFrom_lines c (decodeDisplayCommand_home x) rest
  | lcdEntryModeSet h id s => exact decodeFrom_lines c (decodeDisplayCommand_entryModeSet id s) rest
  | lcdDisplayControl h d x b => exact decodeFrom_lines c (decodeDisplayCommand_displayControl d x b) rest
  | lcdCursorDisplayShift h sc rl x => exact decodeFrom_lines c (decodeDisplayCommand_cursorDisplayShift sc rl x) rest
  | lcdFunctionSet h dl n f x => exact decodeFrom_lines c (decodeDisplayCommand_functionSet dl n f x) rest
  | lcdSetCgramAddress h a => exact decodeFrom_lines c (decodeDisplayCommand_setCgramAddress a) rest
  | lcdSetDdramAddress h a => exact decodeFrom_lines c (decodeDisplayCommand_setDdramAddress a) rest
  | lcdWriteData => rfl
  | _ => exact decodeCommand_encode hi rfl rest

/-! ## From the bytes to the instruction and back -/

/-- The first `n` bytes are the encoding of a command of the stream. -/
def ReadsEncoding (bs : List Byte) (i : Instr) (n : Nat) : Prop :=
  i.source = .stream ∧ n ≤ bs.length ∧ bs.take n = encode i

section ReadsEncoding

variable {mnemonic : String} {k n : Nat} {opcode : Byte} {bs : List Byte} {j : Instr}

theorem sized_readsEncoding {i : Instr} (h : sized mnemonic (k + 1) (opcode :: bs) i = .instr j n)
    (hs : i.source = .stream) (he : k ≤ bs.length → encode i = opcode :: bs.take k) :
    ReadsEncoding (opcode :: bs) j n := by
  obtain ⟨hlen, rfl, rfl⟩ := sized_eq_instr_iff.mp h
  exact ⟨hs, hlen, (he (Nat.le_of_succ_le_succ hlen)).symm⟩

theorem sizedChecked_readsEncoding {i : Option Instr}
    (h : sizedChecked mnemonic (k + 1) (opcode :: bs) i = .instr j n)
    (he : ∀ i', i = some i' → i'.source = .stream ∧ (k ≤ bs.length → encode i' = opcode :: bs.take k)) :
    ReadsEncoding (opcode :: bs) j n := by
  obtain ⟨hlen, hj, rfl⟩ := sizedChecked_eq_instr_iff.mp h
  obtain ⟨hs, he⟩ := he j hj
  exact ⟨hs, hlen, (he (Nat.le_of_succ_le_succ hlen)).symm⟩

end ReadsEncoding

/-- The opcodes of R102's map. -/
def legalOpcodes : List Byte :=
  [0x01, 0x02, 0x03, 0x04, 0x10, 0x20, 0x21, 0x22, 0x23, 0x30, 0x31, 0x32, 0x40, 0x41, 0x42, 0x43, 0x50, 0x51, 0x52]

/-- An opcode outside R102's map is refused (R103). -/
theorem decodeCommand_illegalOpcode (c : Config) {opcode : Byte} (h : opcode ∉ legalOpcodes) (bs : List Byte) :
    decodeCommand c (opcode :: bs) = .illegalOpcode opcode := by
  have hne : ∀ o ∈ legalOpcodes, opcode.toNat ≠ o.toNat := fun o ho he => h (BitVec.eq_of_toNat_eq he ▸ ho)
  unfold decodeCommand
  split <;> simp_all [legalOpcodes]

theorem take_succ_eq_append_operand {cs : List Byte} {i j : Nat} (hj : i + 1 = j) (h : j ≤ cs.length) :
    cs.take j = cs.take i ++ leBytes 1 (operand 1 cs i) := by
  rw [take_append_leBytes_operand (hj ▸ h), hj]

/-- The bytes of a REGDISPLAY with `k` data lines, one operand after the other. -/
theorem take_regdisplay {cs : List Byte} {k : Nat} (h : 7 + k ≤ cs.length) :
    cs.take (7 + k) =
      cs.take 1 ++ leBytes 1 (operand 1 cs 1) ++ leBytes 1 (operand 1 cs 2) ++ leBytes 1 (operand 1 cs 3) ++
        (cs.drop 4).take k ++ leBytes 1 (operand 1 cs (4 + k)) ++ leBytes 1 (operand 1 cs (5 + k)) ++
        leBytes 1 (operand 1 cs (6 + k)) := by
  rw [take_succ_eq_append_operand (show 6 + k + 1 = 7 + k by omega) h,
    take_succ_eq_append_operand (show 5 + k + 1 = 6 + k by omega) (by omega),
    take_succ_eq_append_operand (show 4 + k + 1 = 5 + k by omega) (by omega), List.take_add,
    take_succ_eq_append_operand (show 3 + 1 = 4 from rfl) (by omega),
    take_succ_eq_append_operand (show 2 + 1 = 3 from rfl) (by omega),
    take_succ_eq_append_operand (show 1 + 1 = 2 from rfl) (by omega)]

/-- A REGDISPLAY is read from its encoding: 4 or 8 pins, and a mode that names something. -/
theorem decodeRegdisplay_readsEncoding {bs : List Byte} {i : Instr} {n : Nat}
    (h : decodeRegdisplay (0x40 :: bs) = .instr i n) : ReadsEncoding (0x40 :: bs) i n := by
  generalize hbs : (0x40 :: bs : List Byte) = cs at h ⊢
  have hop : cs.take 1 = [0x40] := by rw [← hbs]; rfl
  simp only [decodeRegdisplay] at h
  split at h
  · exact absurd h (by simp)
  split at h
  · obtain ⟨hlen, hi, rfl⟩ := sizedChecked_eq_instr_iff.mp h
    obtain ⟨mode, hm, rfl⟩ := Option.map_eq_some_iff.mp hi
    refine ⟨rfl, hlen, ?_⟩
    simp only [u8_eq_operand] at hm hlen ⊢
    have hlines : ((cs.drop 4).take (operand 1 cs 3)).length = operand 1 cs 3 := by
      rw [List.length_take, List.length_drop]
      omega
    rw [encode, List.length_map, hlines, map_ofNat_map_toNat, ← addressingOfOperand_some hm]
    rw [take_regdisplay hlen, hop]
    rfl
  · exact absurd h (by simp)

/-- The command decoder reads a command from its encoding: row by row of R102, the bytes of the operands that were read
make up the bytes of the stream. -/
theorem decodeCommand_readsEncoding {c : Config} {bs : List Byte} {i : Instr} {n : Nat}
    (h : decodeCommand c bs = .instr i n) : ReadsEncoding bs i n := by
  cases bs with
  | nil => exact absurd h (by simp [decodeCommand])
  | cons opcode bs =>
    have hop : opcode ∈ legalOpcodes := by
      by_contra hop
      exact absurd ((decodeCommand_illegalOpcode c hop bs).symm.trans h) (by simp)
    fin_cases hop
    · exact sized_readsEncoding ((decodeCommand_reset c bs).symm.trans h) rfl fun _ => rfl
    · exact sized_readsEncoding ((decodeCommand_step c bs).symm.trans h) rfl fun hlen => by
        simp only [encode, leBytes_operand_zero hlen]
    · refine sizedChecked_readsEncoding ((decodeCommand_memwrite c bs).symm.trans h) fun i' hi' => ?_
      obtain ⟨-, ha⟩ := Option.ite_none_right_eq_some.mp hi'
      obtain rfl := Option.some.inj ha
      exact ⟨rfl, fun hlen => by
        simp (disch := omega) only [encode, ← leBytes_one, leBytes_operand_zero, take_append_leBytes_operand]⟩
    · exact sized_readsEncoding ((decodeCommand_motion c bs).symm.trans h) rfl fun _ => rfl
    · refine sizedChecked_readsEncoding ((decodeCommand_tick c bs).symm.trans h) fun i' hi' => ?_
      obtain ⟨t, ht, rfl⟩ := Option.map_eq_some_iff.mp hi'
      exact ⟨rfl, fun hlen => by
        simp (disch := omega) only [encode, ← timerOfOperand_some ht, leBytes_operand_zero,
          take_append_leBytes_operand]⟩
    · exact sized_readsEncoding ((decodeCommand_raise c bs).symm.trans h) rfl fun hlen => by
        simp only [encode, leBytes_operand_zero hlen]
    · refine sizedChecked_readsEncoding ((decodeCommand_setgie c bs).symm.trans h) fun i' hi' => ?_
      obtain ⟨b, hb, rfl⟩ := Option.map_eq_some_iff.mp hi'
      exact ⟨rfl, fun hlen => by simp only [encode, ← boolOfOperand_some hb, leBytes_operand_zero hlen]⟩
    · exact sized_readsEncoding ((decodeCommand_dispatch c bs).symm.trans h) rfl fun _ => rfl
    · exact sized_readsEncoding ((decodeCommand_reti c bs).symm.trans h) rfl fun _ => rfl
    · exact sized_readsEncoding ((decodeCommand_observe c bs).symm.trans h) rfl fun _ => rfl
    · refine sizedChecked_readsEncoding ((decodeCommand_pinchange c bs).symm.trans h) fun i' hi' => ?_
      obtain ⟨level, hl, rfl⟩ := Option.map_eq_some_iff.mp hi'
      exact ⟨rfl, fun hlen => by
        simp (disch := omega) only [encode, ← boolOfOperand_some hl, leBytes_operand_zero,
          take_append_leBytes_operand]⟩
    · exact sized_readsEncoding ((decodeCommand_regchange c bs).symm.trans h) rfl fun hlen => by
        simp (disch := omega) only [encode, leBytes_operand_zero, take_append_leBytes_operand]
    · exact decodeRegdisplay_readsEncoding h
    · exact sized_readsEncoding ((decodeCommand_regservo c bs).symm.trans h) rfl fun hlen => by
        simp (disch := omega) only [encode, leBytes_operand_zero, take_append_leBytes_operand]
    · exact sized_readsEncoding ((decodeCommand_unreg c bs).symm.trans h) rfl fun hlen => by
        simp only [encode, leBytes_operand_zero hlen]
    · exact sized_readsEncoding ((decodeCommand_setload c bs).symm.trans h) rfl fun hlen => by
        simp (disch := omega) only [encode, leBytes_operand_zero, take_append_leBytes_operand]
    · exact sized_readsEncoding ((decodeCommand_timetick c bs).symm.trans h) rfl fun hlen => by
        simp only [encode, leBytes_operand_zero hlen]
    · exact sized_readsEncoding ((decodeCommand_nowus c bs).symm.trans h) rfl fun _ => rfl
    · exact sized_readsEncoding ((decodeCommand_nowms c bs).symm.trans h) rfl fun _ => rfl

/-- Settles O5: what is read is well formed, and its encoding is the bytes it was read from. -/
theorem encodeOfDecode : Obligations.EncodeOfDecode := by
  intro c bs i n h
  obtain ⟨hs, hlen, htake⟩ := decodeCommand_readsEncoding h
  exact ⟨decodeCommand_wellFormed h, hs, by rw [← htake, List.length_take, min_eq_left hlen], htake⟩

end Sys2Proof
end

section
/-! PROOFS. What the decoders refuse and what a display byte means (R103, R104, R107, R108), and the step that runs or
refuses what was decoded (R270, R302). -/

namespace Sys2Proof

/-! ## Refusals (R103, R104) -/

section Refusals

variable (mnemonic : String) (length : Nat) (bs : List Byte) (opcode : Byte)

theorem sized_ne_illegalOpcode (i : Instr) : sized mnemonic length bs i ≠ .illegalOpcode opcode := by
  unfold sized
  split <;> simp

theorem sizedChecked_ne_illegalOpcode (i : Option Instr) :
    sizedChecked mnemonic length bs i ≠ .illegalOpcode opcode := by
  unfold sizedChecked
  split
  · simp
  · cases i <;> simp

theorem decodeRegdisplay_ne_illegalOpcode : decodeRegdisplay bs ≠ .illegalOpcode opcode := by
  unfold decodeRegdisplay
  simp only
  split
  · simp
  · split
    · exact sizedChecked_ne_illegalOpcode _ _ _ _ _
    · simp

end Refusals

/-- A stream is refused for its opcode exactly when R102's map does not have it. -/
theorem decodeCommand_illegalOpcode_iff (c : Config) (opcode : Byte) (bs : List Byte) :
    decodeCommand c (opcode :: bs) = .illegalOpcode opcode ↔ opcode ∉ legalOpcodes := by
  refine ⟨fun h hop => ?_, fun h => decodeCommand_illegalOpcode c h bs⟩
  revert h
  fin_cases hop <;>
    simp [decodeCommand_regdisplay, sized_ne_illegalOpcode, sizedChecked_ne_illegalOpcode,
      decodeRegdisplay_ne_illegalOpcode]

/-- The opcodes outside R102's map are those that R103 lists. -/
theorem not_mem_legalOpcodes_iff (opcode : Byte) :
    opcode ∉ legalOpcodes ↔
      opcode = 0x00 ∨ (0x05 ≤ opcode ∧ opcode ≤ 0x0F) ∨ (0x11 ≤ opcode ∧ opcode ≤ 0x1F) ∨
      (0x24 ≤ opcode ∧ opcode ≤ 0x2F) ∨ (0x33 ≤ opcode ∧ opcode ≤ 0x3F) ∨ (0x44 ≤ opcode ∧ opcode ≤ 0x4F) ∨
      0x53 ≤ opcode := by
  simp [legalOpcodes, ← BitVec.toNat_inj, BitVec.le_def]
  omega

theorem sizedChecked_none {mnemonic : String} {length : Nat} {bs : List Byte} (h : length ≤ bs.length) :
    sizedChecked mnemonic length bs none = .illegalOperand mnemonic := if_neg (not_lt.mpr h)

theorem timerOfOperand_eq_none {n : Nat} (h : 1 < n) : timerOfOperand n = none := by
  obtain ⟨k, rfl⟩ := Nat.exists_eq_add_of_le' h
  rfl

theorem boolOfOperand_eq_none {n : Nat} (h : 1 < n) : boolOfOperand n = none := by
  obtain ⟨k, rfl⟩ := Nat.exists_eq_add_of_le' h
  rfl

theorem addressingOfOperand_eq_none {n : Nat} (h : 1 < n) : addressingOfOperand n = none := by
  obtain ⟨k, rfl⟩ := Nat.exists_eq_add_of_le' h
  rfl

theorem decodeCommand_regdisplay_lines (c : Config) (rs en : Byte) {n : Byte} (h4 : n.toNat ≠ 4) (h8 : n.toNat ≠ 8)
    (r : List Byte) : decodeCommand c (0x40 :: rs :: en :: n :: r) = .illegalOperand "REGDISPLAY" := by
  refine (decodeCommand_regdisplay c _).trans ?_
  simp [decodeRegdisplay, u8_eq_operand, h4, h8]

/-! ## Display bytes (R107, R108) -/

/-- The bits of a byte under a mask are those of the masked byte. -/
theorem getLsbD_of_and_eq {b m r : Byte} (h : b &&& m = r) (i : Nat) (hi : m.getLsbD i = true) :
    b.getLsbD i = r.getLsbD i := by
  rw [← h, BitVec.getLsbD_and, hi, Bool.and_true]

/-- A command byte is the encoding of its meaning: in each branch of the priority encoder, bit by bit. -/
theorem encode_decodeDisplayCommand (b : Byte) (h : Nat) : encode ((decodeDisplayCommand b).toInstr h) = [b] := by
  unfold decodeDisplayCommand
  split_ifs with h7 h6 h5 h4 h3 h2 h1 h0
  all_goals
    simp only [DisplayOp.toInstr, encode, List.cons.injEq, and_true]
    refine BitVec.eq_of_getLsbD_eq fun i hi => ?_
    simp only [BitVec.ofNat_eq_ofNat, BitVec.getLsbD_append, BitVec.getLsbD_extractLsb', bit01,
      BitVec.getLsbD_ofBool]
    interval_cases i <;> simp_all [-BitVec.getLsbD_eq_getElem]

/-- Settles O6: the masked bits select the branch of the priority encoder, and a row's fields and constant bits are the
bits of the byte. -/
theorem displayBytesDecodeOnce : Obligations.DisplayBytesDecodeOnce := by
  refine ⟨fun b => ⟨?ddram, ?cgram, ?functionSet, ?shift, ?control, ?entryMode, ?home, ?clear, ?unknown⟩,
    fun rs b h => ?roundTrip⟩
  case roundTrip =>
    cases rs with
    | false => exact encode_decodeDisplayCommand b h
    | true => rfl
  case clear => rintro rfl; rfl
  case unknown => rintro rfl; rfl
  all_goals
    intro hb
    simp [decodeDisplayCommand, getLsbD_of_and_eq hb, -BitVec.getLsbD_eq_getElem]

/-- Settles O9: the words are evaluated. -/
theorem specWordsDecode : Obligations.SpecWordsDecode := by
  unfold Obligations.SpecWordsDecode
  decide

end Sys2Proof

namespace Sys2Proof.Machine

/-! ## The step on what the decoder answers (R270, R302) -/

theorem step_of_instr {s : State} {i : Instr} {n : Nat} (h : decodeCommand s.cfg s.stream = .instr i n) :
    step s = exec i (s.consume n) := by
  rw [step, h]

theorem step_of_illegalOpcode {s : State} {opcode : Byte} (h : decodeCommand s.cfg s.stream = .illegalOpcode opcode) :
    step s = .refused (.illegalOpcode opcode s.pos) := by
  rw [step, h]

theorem step_of_illegalOperand {s : State} {m : String} (h : decodeCommand s.cfg s.stream = .illegalOperand m) :
    step s = .refused (.illegalOperand m s.pos) := by
  rw [step, h]

theorem step_of_endOfStream {s : State} (h : decodeCommand s.cfg s.stream = .endOfStream) : step s = .next s := by
  rw [step, h]

/-- Settles O7: the decoder refuses the opcodes that R102's map does not have, which are those of R103's list. -/
theorem illegalOpcodesRefused : Obligations.IllegalOpcodesRefused := by
  intro c opcode rest
  refine ⟨(decodeCommand_illegalOpcode_iff c opcode rest).trans (not_mem_legalOpcodes_iff opcode), ?_⟩
  rintro s rfl hs h
  exact step_of_illegalOpcode (hs ▸ h)

/-- Settles O8: an operand that names nothing makes the command's row answer a refusal, any other operand is read. -/
theorem illegalOperandsRefused : Obligations.IllegalOperandsRefused := by
  intro c
  refine ⟨?tick, ?setgie, ?pinchange, ?lines, ?mode, ?memwrite, ?step, ?raise, ?unreg, ?pin, ?geometry⟩
  case tick =>
    intro t x y z w r ht
    simp [decodeCommand_tick, timerOfOperand_eq_none ht, sizedChecked_none]
  case setgie =>
    intro b r hb
    simp [decodeCommand_setgie, boolOfOperand_eq_none hb, sizedChecked_none]
  case pinchange =>
    intro pin level x y z w r hl
    simp [decodeCommand_pinchange, boolOfOperand_eq_none hl, sizedChecked_none]
  case lines =>
    intro rs en n r h4 h8
    exact decodeCommand_regdisplay_lines c rs en h4 h8 r
  case mode =>
    intro rs en n rows cols mode d r hn hd hm
    rw [decodeCommand_regdisplay_bytes c rs en rows cols mode hn hd r, addressingOfOperand_eq_none hm]
    exact sizedChecked_none (by simp +arith)
  case memwrite =>
    intro lo hi v r ha
    simp [decodeCommand_memwrite, not_lt.mpr ha, sizedChecked_none]
  case step => exact fun s m h => step_of_illegalOperand h
  case raise => simp [decodeCommand_raise]
  case unreg => simp [decodeCommand_unreg]
  case pin =>
    intro pin x y z w r
    simp [decodeCommand_pinchange, boolOfOperand]
  case geometry =>
    intro rs en rows cols d r hd
    refine (decodeCommand_regdisplay_bytes c rs en rows cols 0 (.inl rfl) hd r).trans ?_
    simp +arith [hd, addressingOfOperand]

/-- Settles O11: a step is `exec` of what the decoder reads, and O4 says what it reads from an encoding. -/
theorem stepRunsDecodedCommand : Obligations.StepRunsDecodedCommand := by
  refine ⟨fun s i n h => step_of_instr h, fun s i rest hi hs hstream => ?_, fun s hs => ?_⟩
  · have h := step_of_instr (hstream ▸ decodeCommand_encode hi hs rest)
    rw [h, State.consume, hstream, List.drop_left]
  · exact step_of_endOfStream (by rw [hs, decodeCommand])

end Sys2Proof.Machine
end

section
/-! PROOFS. Registers: the two writes of SET16 (R105), and what the control registers, the vector table and the pin map
of a configuration encode (R91 to R95, R97, R99). -/

namespace Sys2Proof.Machine

/-! ## SET16 (R105) -/

theorem runInstrs_expandSet16 {a : Nat} {s : State} (h : a + 1 < s.cfg.regMemSize) (v : Nat) :
    runInstrs (expandSet16 a v) s =
      .next { s with mem := (s.mem.write (a + 1) (BitVec.ofNat 8 (v / 256))).write a (BitVec.ofNat 8 v) } := by
  have hhigh := exec_memwrite s (a + 1) (BitVec.ofNat 8 (v / 256)) h
  have hlow := exec_memwrite { s with mem := s.mem.write (a + 1) (BitVec.ofNat 8 (v / 256)) } a (BitVec.ofNat 8 v)
    (Nat.lt_of_succ_lt h)
  simp only [expandSet16, runInstrs, andThen, hhigh, hlow]

/-- What memory reads after a high byte and then a low byte are written is what it reads after `Write16` (R10). -/
theorem Memory.read_write_high_low {m : Memory} (h : m.wf = true) (a v x : Nat) :
    ((m.write (a + 1) (BitVec.ofNat 8 (v / 256))).write a (BitVec.ofNat 8 v)).read x = (m.write16 a v).read x := by
  rw [Memory.read_write (Memory.write_wf h _ _), Memory.read_write h, Memory.read_write16 h]
  by_cases hx : x = a
  · rw [if_pos hx, if_neg (by omega), if_pos hx]
  · simp only [if_neg hx]

/-- Settles O56: the two writes of SET16 leave every byte as `Write16` does. -/
theorem set16WritesRegister : Obligations.Set16WritesRegister := by
  intro a v s hw ha hv
  have hread := Memory.read_write_high_low hw a v
  refine ⟨_, runInstrs_expandSet16 ha v, rfl, ?_, fun x hx hx' => ?_⟩
  · rw [Memory.read16, hread, hread]
    exact Memory.read16_write16 hw a hv
  · rw [hread, Memory.read_write16 hw, if_neg hx', if_neg hx]

/-! ## Control registers and board pins (R91 to R95, R97, R99) -/

theorem bitField_low (v : Byte) (hi : Nat) : bitField v hi 0 = v.toNat % 2 ^ (hi + 1) := by
  simp [bitField]

theorem bitField_bit (v : Byte) (i : Nat) : bitField v i i = (v.getLsbD i).toNat := by
  rw [bitField, Nat.add_sub_cancel_left, pow_one, BitVec.getLsbD, Nat.toNat_testBit]

/-- The default pin map sends the board pins to three ports, and no other number anywhere (R99). -/
theorem pinLocation_config (p : Nat) : pinLocation config p =
    if p ≤ 7 then some (0x2B, p) else if p ≤ 13 then some (0x25, p - 8) else if p ≤ 19 then some (0x28, p - 14)
    else none := by
  by_cases hp : p ≤ 19
  · interval_cases p <;> rfl
  · have hnone : pinLocation config p = none := by
      rw [← Option.not_isSome_iff_eq_none]
      exact fun h => hp ((isBoardPin_config p).mp h)
    rw [hnone, if_neg (by omega), if_neg (by omega), if_neg hp]

theorem modeNumber_t0 (c : Config) (m : Memory) : modeNumber c .t0 m =
    4 * (((m.read c.reg.tccr0b).getLsbD 3).toNat) + (m.read c.reg.tccr0a).toNat % 4 := by
  simp only [modeNumber, bitField_bit, bitField_low]
  rfl

theorem modeNumber_t1 (c : Config) (m : Memory) : modeNumber c .t1 m =
    4 * ((m.read c.reg.tccr1b).toNat / 8 % 4) + (m.read c.reg.tccr1a).toNat % 4 := by
  simp only [modeNumber, bitField_low]
  rfl

/-- Settles O10: the tables of the defaults are evaluated; the fields of the control registers and the pins are the
lemmas above; a top is what its row of the mode table names. -/
theorem controlRegistersDecode : Obligations.ControlRegistersDecode := by
  refine ⟨?divisors, ?off, ?six, ?seven, fun c m t => bitField_low _ 2, modeNumber_t0, modeNumber_t1, ?kinds0, ?kinds1,
    ?tops0, ?tops1low, ?tops1high, ?vectors, pinLocation_config⟩
  case tops0 | tops1low | tops1high => exact fun c m => rfl
  all_goals decide

end Sys2Proof.Machine
end

section
/-! PROOFS. One TICK (R121 to R135): what it is below a divisor and from a divisor on, how each kind of mode advances
the counter, and which flag bits and vectors a batch sets. -/

namespace Sys2Proof.Machine

/-! ## What a timer reads stands across an update of its record -/

section
variable (s : State) (t : TimerId) (T : TimerState) (x : TimerId)

@[simp] theorem State.clock_setTimer : (s.setTimer t T).clock x = s.clock x := by cases t <;> rfl
@[simp] theorem State.mode_setTimer : (s.setTimer t T).mode x = s.mode x := by cases t <;> rfl
@[simp] theorem State.countKind_setTimer : (s.setTimer t T).countKind x = s.countKind x := by cases t <;> rfl
@[simp] theorem State.count_setTimer : (s.setTimer t T).count x = s.count x := by cases t <;> rfl
@[simp] theorem State.top_setTimer : (s.setTimer t T).top x = s.top x := by cases t <;> rfl
@[simp] theorem State.compare_setTimer (y : CompareChannel) : (s.setTimer t T).compare x y = s.compare x y := by
  cases t <;> rfl

end

/-! ## A tick that does not count (R122, R123, R126) -/

/-- Settles O13: the first branch of TICK. -/
theorem tickZeroCyclesChangesNothing : Obligations.TickZeroCyclesChangesNothing := by
  intro t s
  rcases tick_cases t 0 s with ⟨-, he⟩ | ⟨hn, -⟩ | ⟨hn, -⟩ | ⟨hn, -⟩
  case inl => rw [exec_tick, he]
  all_goals exact absurd rfl hn

/-- Settles O14: of the things a tick can do, only the live decode goes with a clock that is off. -/
theorem tickPrescalerOffIsNoOp : Obligations.TickPrescalerOffIsNoOp := by
  intro t n s hn hoff
  rcases tick_cases t n s with ⟨rfl, -⟩ | ⟨-, -, he⟩ | ⟨-, hon, -⟩ | ⟨-, -, d, hd, -⟩
  · exact absurd hn (lt_irrefl 0)
  · rw [exec_tick, he, tickDecoded, hoff]
  · exact absurd hoff hon
  · simp [hoff, Prescaler.divisor?] at hd

/-- Settles O15: of the things a tick can do, only the warning goes with a clock that is on and has no divisor, or with
a frozen mode. -/
theorem tickUnsupportedFreezesAndWarns : Obligations.TickUnsupportedFreezesAndWarns := by
  intro t n s hn hon hstop
  rcases tick_cases t n s with ⟨rfl, -⟩ | ⟨-, hoff, -⟩ | ⟨-, -, -, he⟩ | ⟨-, hrun, d, hd, -⟩
  · exact absurd hn (lt_irrefl 0)
  · exact absurd hoff hon
  · rw [exec_tick, he, tickDecoded, State.warn]
  · rcases hstop with hunsupported | hfrozen
    · simp [hunsupported, Prescaler.divisor?] at hd
    · exact absurd hfrozen hrun

/-! ## A tick below its divisor (R129), and one that is a batch (R131) -/

/-- Too few cycles for a timer tick go to the remainder (R128, R129). -/
theorem tick_below_divisor {t : TimerId} {n d : Nat} {s : State} (hn : 0 < n) (hd : (s.clock t).divisor? = some d)
    (hk : s.countKind t ≠ .frozen) (hlt : (s.timer t).cycleRemainder + n < d) :
    tick t n s = s.setTimer t { s.timer t with
      prescaler := s.clock t, cycleRemainder := (s.timer t).cycleRemainder + n } := by
  have hrun : tick t n s = tickPrescaled t d n (tickDecoded t s) :=
    Host.Outcome.next.inj (exec_tick_running t n d s hn hd hk)
  have hzero : ((s.timer t).cycleRemainder + n) / d = 0 := Nat.div_eq_of_lt hlt
  rw [hrun]
  simp [tickPrescaled, tickDecoded, hzero]

/-- Settles O16: the tick below its divisor, at `exec`. -/
theorem tickBelowDivisorAccumulates : Obligations.TickBelowDivisorAccumulates := by
  intro t n d s hn hd hk hlt
  rw [exec_tick, tick_below_divisor hn hd hk hlt]

/-- The timer counts at `s`: its prescaler has the divisor `d`, and its mode runs (R122, R126). -/
structure Counts (t : TimerId) (d : Nat) (s : State) : Prop where
  cfg : s.cfg.Facts
  divisor : (s.clock t).divisor? = some d
  running : s.countKind t ≠ .frozen

theorem Counts.divisor_pos {t : TimerId} {d : Nat} {s : State} (h : Counts t d s) : 0 < d :=
  (h.cfg.divisor_bounds h.divisor).1

/-- TICK `t, n` is a batch at `s`: the timer counts, and the cycles with the remainder reach its divisor (R128, R131). -/
structure IsBatch (t : TimerId) (n d : Nat) (s : State) : Prop extends Counts t d s where
  cycles : 0 < n
  reaches : d ≤ (s.timer t).cycleRemainder + n

/-- The state from which a batch starts: prescaler and remainder are recorded (R121, R128). -/
def batchStart (t : TimerId) (n d : Nat) (s : State) : State :=
  s.setTimer t { s.timer t with
    prescaler := s.clock t, cycleRemainder := ((s.timer t).cycleRemainder + n) % d }

section
variable (t : TimerId) (n d : Nat) (s : State)

theorem batchStart_cfg : (batchStart t n d s).cfg = s.cfg := State.setTimer_cfg s t _
theorem batchStart_mem : (batchStart t n d s).mem = s.mem := State.setTimer_mem s t _
theorem batchStart_ic : (batchStart t n d s).ic = s.ic := State.setTimer_ic s t _
theorem batchStart_out : (batchStart t n d s).out = s.out := State.setTimer_out s t _

end

section
variable {t : TimerId} {n d : Nat} {s : State} (h : IsBatch t n d s)
include h

theorem IsBatch.tick_eq : tick t n s = tickBatch t (ticksOf t d n s) (batchStart t n d s) :=
  Host.Outcome.next.inj (exec_tick_batch t n d s h.cycles h.divisor h.divisor_pos h.running h.reaches)

theorem IsBatch.out : (tick t n s).out = s.out := by
  rw [h.tick_eq, tickBatch_out, batchStart_out]

/-- The timer's record after a batch: the batch's, with prescaler and remainder (R121, R128, R131, R134). -/
theorem IsBatch.timer : (tick t n s).timer t =
    { batchTimer t (ticksOf t d n s) s with
      prescaler := s.clock t, cycleRemainder := ((s.timer t).cycleRemainder + n) % d } := by
  rw [h.tick_eq, tickBatch_timer]
  simp [batchTimer, batchStart]

theorem IsBatch.counter_lt : ((tick t n s).timer t).counter < 2 ^ timerWidth s.cfg t := by
  rw [h.timer]
  exact advance_lt h.cfg t _ _ _

/-- The counter in register memory after a batch is the one in the record (R131). -/
theorem IsBatch.readCounter (hw : s.mem.wf = true) :
    readCounter s.cfg t (tick t n s).mem = ((tick t n s).timer t).counter := by
  have hread := tickBatch_readCounter t (ticksOf t d n s) (s := batchStart t n d s)
  rw [← tickBatch_timer, ← h.tick_eq, batchStart_cfg, batchStart_mem] at hread
  exact hread h.cfg hw h.counter_lt

end

/-! ## The advance of each kind (R132, R133) -/

theorem advanceUp_counter (c k top : Nat) : (advanceUp c k top).counter = if top ≤ c + k then 0 else c + k := by
  unfold advanceUp
  split <;> rfl

theorem advanceUp_overflow (c k top : Nat) : (advanceUp c k top).overflow = true ↔ top ≤ c + k := by
  unfold advanceUp
  split <;> simp [*]

theorem advanceUp_countDown (c k top : Nat) : (advanceUp c k top).countDown = false := by
  unfold advanceUp
  split <;> rfl

theorem advanceUp_visited (c k top x : Nat) :
    (advanceUp c k top).visited x = true ↔ (c < x ∧ x ≤ min top (c + k)) ∨ (top ≤ c + k ∧ x = 0) := by
  unfold advanceUp
  split <;> simp <;> omega

/-- The advance of a symmetric mode that counts up (R133). -/
theorem advanceSym_up (c k top : Nat) :
    (advanceSym c k top false).counter = min top (c + k) ∧
    ((advanceSym c k top false).overflow = true ↔ top ≤ c + k) ∧
    ((advanceSym c k top false).countDown = true ↔ top ≤ c + k) ∧
    ∀ x, (advanceSym c k top false).visited x = true ↔ c < x ∧ x ≤ min top (c + k) := by
  by_cases hr : top ≤ c + k
  · simp [advanceSym, hr]
  · have hmin : min top (c + k) = c + k := Nat.min_eq_right (Nat.le_of_not_le hr)
    simp [advanceSym, hr, hmin]

/-- The advance of a symmetric mode that counts down (R133). -/
theorem advanceSym_down (c k top : Nat) :
    (advanceSym c k top true).counter = c - k ∧ (advanceSym c k top true).overflow = false ∧
    ((advanceSym c k top true).countDown = true ↔ k < c) ∧
    ∀ x, (advanceSym c k top true).visited x = true ↔ c - k ≤ x ∧ x < c := by
  by_cases hr : c ≤ k
  · simp [advanceSym, hr, Nat.sub_eq_zero_of_le hr]
  · simp [advanceSym, hr, Nat.lt_of_not_le hr]

/-- Settles O17: a batch's record with the advance of kind up. -/
theorem tickUpBatch : Obligations.TickUpBatch := by
  intro t n d s hacc hw hn hd hup hb k c top
  have h : IsBatch t n d s := ⟨⟨hacc.facts, hd, by simp [hup]⟩, hn, hb⟩
  have hadv : advance (s.countKind t) c k top (s.timer t).countDown = advanceUp c k top := by rw [hup]; rfl
  refine ⟨tick t n s, exec_tick s t n, h.out, ?_⟩
  rw [h.readCounter hw, h.timer, batchTimer, ticksOf, hadv]
  exact ⟨rfl, rfl, rfl, rfl, rfl, advanceUp_counter c k top, rfl, advanceUp_countDown c k top,
    advanceUp_overflow c k top, advanceUp_visited c k top _, advanceUp_visited c k top _⟩

/-- Settles O18: a batch's record with the advance of kind sym, by the direction before. -/
theorem tickSymmetricBatch : Obligations.TickSymmetricBatch := by
  intro t n d s hacc hw hn hd hsym hb k c top
  have h : IsBatch t n d s := ⟨⟨hacc.facts, hd, by simp [hsym]⟩, hn, hb⟩
  have hadv : advance (s.countKind t) c k top (s.timer t).countDown = advanceSym c k top (s.timer t).countDown := by
    rw [hsym]; rfl
  refine ⟨tick t n s, exec_tick s t n, h.out, ?_⟩
  rw [h.readCounter hw, h.timer, batchTimer, ticksOf, hadv]
  refine ⟨rfl, rfl, rfl, rfl, rfl, rfl, fun hdir => ?_, fun hdir => ?_⟩
  · rw [hdir]
    obtain ⟨hcount, hover, hturn, hvisit⟩ := advanceSym_up c k top
    exact ⟨hcount, hover, hturn, hvisit _, hvisit _⟩
  · rw [hdir]
    obtain ⟨hcount, hover, hturn, hvisit⟩ := advanceSym_down c k top
    exact ⟨hcount, hover, hturn, hvisit _, hvisit _⟩

/-- Settles O22: the counter of each kind's advance, and the width that no batch exceeds. -/
theorem tickCounterRange : Obligations.TickCounterRange := by
  intro t n d s u hacc hn hd hb hu k c top
  obtain rfl : tick t n s = u := Host.Outcome.next.inj hu
  have hcount (hk : s.countKind t ≠ .frozen) : ((tick t n s).timer t).counter =
      (advance (s.countKind t) c k top (s.timer t).countDown).counter := by
    rw [IsBatch.timer ⟨⟨hacc.facts, hd, hk⟩, hn, hb⟩]
    rfl
  refine ⟨fun hup => ?_, fun hsym => ?_, fun hk => IsBatch.counter_lt ⟨⟨hacc.facts, hd, hk⟩, hn, hb⟩⟩
  · rw [hcount (by simp [hup]), hup, advance, advanceUp_counter]
    split
    · exact ⟨Nat.zero_le _, .inl rfl⟩
    · exact ⟨by omega, .inr ⟨rfl, by omega⟩⟩
  · rw [hcount (by simp [hsym]), hsym, advance]
    cases hdir : (s.timer t).countDown with
    | false =>
      rw [(advanceSym_up c k top).1]
      exact ⟨fun _ => Nat.min_le_left _ _, fun hgt => absurd hgt (by omega), by simp⟩
    | true =>
      rw [(advanceSym_down c k top).1]
      exact ⟨(Nat.sub_le c k).trans, fun hgt => ⟨rfl, hgt.trans_le (Nat.sub_le c k)⟩,
        fun _ hle => (Nat.sub_eq_zero_of_le hle).trans_le (Nat.zero_le top)⟩

/-! ## The flags and vectors of a batch (R135) -/

/-- The order of a batch's events (R136). -/
def signalOrder : List TimerEvent := [.compA, .compB, .overflow]

/-- The signals of those of the given events that were detected, one after another (R135, R136). -/
def signalAll (detected : TimerEvent → Bool) (t : TimerId) (es : List TimerEvent) (s : State) : State :=
  es.foldl (fun s e => signalIf (detected e) t e s) s

theorem tickBatch_eq_signalAll (t : TimerId) (k : Nat) (s : State) :
    tickBatch t k s =
      signalAll (batchTimer t k s).detected t signalOrder (batchWritten t k s) := rfl

theorem mem_signalOrder (e : TimerEvent) : e ∈ signalOrder := by
  cases e <;> simp [signalOrder]

section
variable {s : State} (hc : s.cfg.Facts) (detected : TimerEvent → Bool) (t : TimerId) (es : List TimerEvent)
include hc

/-- The signals set the flag bits of the detected events, whatever the mask. -/
theorem signalAll_flag_bit (hw : s.mem.wf = true) (j : Nat) :
    (signalAll detected t es s).mem.bit (flagReg s.cfg t) j = true ↔
      s.mem.bit (flagReg s.cfg t) j = true ∨ ∃ e ∈ es, detected e = true ∧ j = flagBit s.cfg t e := by
  induction es generalizing s with
  | nil => simp [signalAll]
  | cons e es ih =>
    have hcfg := signalIf_cfg (detected e) t e s
    have hstep := ih (hcfg.symm ▸ hc) (signalIf_wf (detected e) t e hw)
    rw [hcfg, signalIf_flag_bit (detected e) t e hc hw] at hstep
    simpa [signalAll, or_assoc] using hstep

/-- The signals make a vector pending if it was idle, is enabled and stands for a detected event. -/
theorem signalAll_vec (v : IrqVector) :
    (signalAll detected t es s).ic.vec v =
      if (∃ e ∈ es, detected e = true ∧ v = eventVector t e ∧
          s.mem.bit (maskReg s.cfg t) (maskBit s.cfg t e) = true) ∧ s.ic.vec v = .idle
      then .pending else s.ic.vec v := by
  induction es generalizing s with
  | nil => simp [signalAll]
  | cons e es ih =>
    have hcfg := signalIf_cfg (detected e) t e s
    have hstep := ih (hcfg.symm ▸ hc)
    simp only [hcfg, signalIf_mask_bit (detected e) t e hc, signalIf_vec (detected e) t e hc] at hstep
    refine hstep.trans ?_
    by_cases hv : v = eventVector t e
    · by_cases hidle : s.ic.vec v = .idle
      · by_cases hraise : detected e = true ∧ s.mem.bit (maskReg s.cfg t) (maskBit s.cfg t e) = true
        · simp [← hv, hidle, hraise]
        · simp [← hv, hidle, hraise]
      · simp [← hv, hidle]
    · simp [hv]

/-- A batch keeps the flag bits that are set, and sets those of the events it detected. -/
theorem tickBatch_flag_bit (hw : s.mem.wf = true) (k j : Nat) :
    (tickBatch t k s).mem.bit (flagReg s.cfg t) j = true ↔
      s.mem.bit (flagReg s.cfg t) j = true ∨
        ∃ e, ((tickBatch t k s).timer t).detected e = true ∧ j = flagBit s.cfg t e := by
  have hcfg := batchWritten_cfg t k s
  have hsignals := signalAll_flag_bit (hcfg.symm ▸ hc) (batchTimer t k s).detected t signalOrder
    ((batchWritten_step t k s).wf hw) j
  rw [hcfg, batchWritten_mem, (writeCounter_flag_mask hc t s.mem _ j).1] at hsignals
  rw [← tickBatch_eq_signalAll] at hsignals
  simpa only [tickBatch_timer, mem_signalOrder, true_and] using hsignals

/-- A batch makes the vector of an event pending if the event was detected, and the vector was idle and is enabled. -/
theorem tickBatch_vec (k : Nat) (e : TimerEvent) :
    (tickBatch t k s).ic.vec (eventVector t e) =
      if ((tickBatch t k s).timer t).detected e = true ∧ s.mem.bit (maskReg s.cfg t) (maskBit s.cfg t e) = true ∧
          s.ic.vec (eventVector t e) = .idle
      then .pending else s.ic.vec (eventVector t e) := by
  have hcfg := batchWritten_cfg t k s
  have hic : (batchWritten t k s).ic = s.ic := State.setTimer_ic s t _
  rw [tickBatch_timer, tickBatch_eq_signalAll, signalAll_vec (hcfg.symm ▸ hc)]
  simp only [hcfg, hic, batchWritten_mem, writeCounter_flag_mask hc]
  refine if_congr ?_ rfl rfl
  constructor
  · rintro ⟨⟨f, -, hf, hvector, hmask⟩, hidle⟩
    obtain rfl := eventVector_injective hvector
    exact ⟨hf, hmask, hidle⟩
  · rintro ⟨he, hmask, hidle⟩
    exact ⟨⟨e, mem_signalOrder e, he, rfl, hmask⟩, hidle⟩

end

/-- Settles O19: the flags and vectors of the batch that the tick is; flag bits and vectors tell its events apart. -/
theorem tickSignalsDetectedEvents : Obligations.TickSignalsDetectedEvents := by
  intro t n d s u hacc hw hn hd hk hb hu
  obtain rfl : tick t n s = u := Host.Outcome.next.inj hu
  have hc := hacc.facts
  have h : IsBatch t n d s := ⟨⟨hc, hd, hk⟩, hn, hb⟩
  have hflag := tickBatch_flag_bit ((batchStart_cfg t n d s).symm ▸ hc) t ((batchStart_mem t n d s).symm ▸ hw)
    (ticksOf t d n s)
  have hvec := tickBatch_vec ((batchStart_cfg t n d s).symm ▸ hc) t (ticksOf t d n s)
  rw [← h.tick_eq, batchStart_cfg, batchStart_mem] at hflag hvec
  rw [batchStart_ic] at hvec
  refine ⟨fun e => ?_, fun j hj => ?_, fun e => ?_, fun v hv => ?_⟩
  · rw [Bool.eq_iff_iff, hflag, Bool.or_eq_true, or_comm]
    refine or_congr_left ⟨?_, fun he => ⟨e, he, rfl⟩⟩
    rintro ⟨f, hf, hbit⟩
    exact hc.flagBit_injective hbit ▸ hf
  · rw [Bool.eq_iff_iff, hflag]
    refine or_iff_left ?_
    rintro ⟨e, -, he⟩
    exact hj e he
  · exact hvec e
  · rcases (tick_step t n s).vecs v with hsame | ⟨htimer, -⟩
    · exact hsame
    · exact absurd htimer hv

end Sys2Proof.Machine
end

section
/-! PROOFS. Sequences of TICK calls (R141): the carry of the remainder, and the counter of a mode that counts up. -/

namespace Sys2Proof.Machine

/-- The state after successive `TICK t` calls (R141). -/
def ticked (t : TimerId) : List Nat → State → State
  | [], s => s
  | n :: ns, s => ticked t ns (tick t n s)

theorem runInstrs_ticks (t : TimerId) (ns : List Nat) (s : State) :
    runInstrs (ns.map (.tick t)) s = .next (ticked t ns s) := by
  induction ns generalizing s with
  | nil => rfl
  | cons n ns ih => exact ih (tick t n s)

theorem countKind_tick {s : State} (hc : s.cfg.Facts) (t : TimerId) (n : Nat) :
    (tick t n s).countKind t = s.countKind t := by
  obtain ⟨-, hmode, -, -⟩ := tick_keeps_control hc t n
  rw [State.countKind, hmode]

section
variable {t : TimerId} {d : Nat} {s : State} (h : Counts t d s)
include h

/-- A tick keeps what makes its timer count. -/
theorem Counts.after_tick (n : Nat) : Counts t d (tick t n s) := by
  obtain ⟨hclock, -, -, -⟩ := tick_keeps_control h.cfg t n
  exact ⟨(tick_cfg t n s).symm ▸ h.cfg, hclock.symm ▸ h.divisor, (countKind_tick h.cfg t n).symm ▸ h.running⟩

/-- The remainder after a non-empty sequence of ticks. -/
theorem Counts.ticked_remainder {n : Nat} {ns : List Nat} (hpos : ∀ m ∈ n :: ns, 0 < m) :
    ((ticked t (n :: ns) s).timer t).cycleRemainder = ((s.timer t).cycleRemainder + (n :: ns).sum) % d := by
  have hone := tick_remainder t n d s (hpos n List.mem_cons_self) h.divisor h.divisor_pos h.running
  induction ns generalizing n s with
  | nil => simpa [ticked] using hone
  | cons m ns ih =>
    have hnext := h.after_tick n
    have htail := fun x hx => hpos x (List.mem_cons_of_mem n hx)
    calc ((ticked t (n :: m :: ns) s).timer t).cycleRemainder
      _ = (((tick t n s).timer t).cycleRemainder + (m :: ns).sum) % d :=
        ih hnext htail <| tick_remainder t m d _ (htail m List.mem_cons_self) hnext.divisor h.divisor_pos hnext.running
      _ = ((s.timer t).cycleRemainder + (n :: m :: ns).sum) % d := by
        rw [hone, Nat.mod_add_mod, List.sum_cons (a := n), Nat.add_assoc]

/-- No cycle is lost or counted twice: each is in a timer tick or in the final remainder. -/
theorem Counts.cycles_conserved {ns : List Nat} (hpos : ∀ n ∈ ns, 0 < n) :
    d * totalTicks t d ns s + ((ticked t ns s).timer t).cycleRemainder = (s.timer t).cycleRemainder + ns.sum := by
  induction ns generalizing s with
  | nil => simp [totalTicks, ticked]
  | cons n ns ih =>
    have hone : d * ticksOf t d n s + ((tick t n s).timer t).cycleRemainder = (s.timer t).cycleRemainder + n := by
      rw [tick_remainder t n d s (hpos n List.mem_cons_self) h.divisor h.divisor_pos h.running, ticksOf,
        Nat.div_add_mod]
    have hrest := ih (h.after_tick n) fun m hm => hpos m (List.mem_cons_of_mem n hm)
    rw [totalTicks, ticked, Nat.mul_add, List.sum_cons]
    omega

/-- In a mode that counts up, a tick adds its timer ticks to a counter that they do not bring to its top (R132). -/
theorem Counts.count_tick {n : Nat} (hw : s.mem.wf = true) (hup : s.countKind t = .up) (hn : 0 < n)
    (hlt : s.count t + ticksOf t d n s < s.top t) : (tick t n s).count t = s.count t + ticksOf t d n s := by
  by_cases hreach : d ≤ (s.timer t).cycleRemainder + n
  · have hb : IsBatch t n d s := ⟨h, hn, hreach⟩
    rw [State.count, tick_cfg, hb.readCounter hw, hb.timer, batchTimer, hup, advance, advanceUp_counter,
      if_neg (Nat.not_le_of_lt hlt)]
  · have hbelow : (s.timer t).cycleRemainder + n < d := Nat.lt_of_not_le hreach
    rw [tick_below_divisor hn h.divisor h.running hbelow, State.count_setTimer, ticksOf, Nat.div_eq_of_lt hbelow,
      Nat.add_zero]

/-- The same over a sequence of ticks. -/
theorem Counts.count_ticked {ns : List Nat} (hw : s.mem.wf = true) (hup : s.countKind t = .up)
    (hpos : ∀ n ∈ ns, 0 < n) (hlt : s.count t + totalTicks t d ns s < s.top t) :
    (ticked t ns s).count t = s.count t + totalTicks t d ns s := by
  induction ns generalizing s with
  | nil => rfl
  | cons n ns ih =>
    rw [totalTicks, ← Nat.add_assoc] at hlt ⊢
    have hone := h.count_tick hw hup (hpos n List.mem_cons_self) (Nat.lt_of_le_of_lt (Nat.le_add_right _ _) hlt)
    obtain ⟨-, -, htop, -⟩ := tick_keeps_control h.cfg t n
    rw [← hone] at hlt ⊢
    exact ih (h.after_tick n) ((tick_step t n s).wf hw) ((countKind_tick h.cfg t n).trans hup)
      (fun m hm => hpos m (List.mem_cons_of_mem n hm)) (htop.symm ▸ hlt)

end

theorem ticked_cfg (t : TimerId) (ns : List Nat) (s : State) : (ticked t ns s).cfg = s.cfg := by
  induction ns generalizing s with
  | nil => rfl
  | cons n ns ih => rw [ticked, ih, tick_cfg]

/-- Settles O21: the final remainder and the conservation of the cycles determine the sum of the timer ticks. -/
theorem tickCarryLaw : Obligations.TickCarryLaw := by
  intro t d ns s hacc hne hpos hd hk
  have h : Counts t d s := ⟨hacc.facts, hd, hk⟩
  obtain ⟨n, ns, rfl⟩ := List.exists_cons_of_ne_nil hne
  have hrem := h.ticked_remainder hpos
  refine ⟨_, runInstrs_ticks t (n :: ns) s, hrem, ?_, fun hw hup hlt => ?_⟩
  · have hcons := h.cycles_conserved hpos
    rw [hrem] at hcons
    have hdiv := Nat.div_add_mod ((s.timer t).cycleRemainder + (n :: ns).sum) d
    exact Nat.eq_of_mul_eq_mul_left h.divisor_pos (Nat.add_right_cancel (hcons.trans hdiv.symm))
  · have hcount := h.count_ticked hw hup hpos hlt
    rwa [State.count, ticked_cfg] at hcount

end Sys2Proof.Machine
end

section
/-! PROOFS. Independence of the timers (R145): two states that agree on what a timer may read still agree on it after a
TICK of that timer. -/

namespace Sys2Proof.Machine

/-! ## The registers of a timer (R120) -/

section
variable (c : Config) (t : TimerId)

theorem controlA_mem_timerRegisters : controlA c t ∈ timerRegisters c t := by
  cases t <;> simp [controlA, timerRegisters]

theorem controlB_mem_timerRegisters : controlB c t ∈ timerRegisters c t := by
  cases t <;> simp [controlB, timerRegisters]

theorem flagReg_mem_timerRegisters : flagReg c t ∈ timerRegisters c t := by
  cases t <;> simp [flagReg, timerRegisters]

theorem maskReg_mem_timerRegisters : maskReg c t ∈ timerRegisters c t := by
  cases t <;> simp [maskReg, timerRegisters]

theorem counterReg_mem_timerRegisters :
    counterReg c t ∈ timerRegisters c t ∧ (t = .t1 → counterReg c t + 1 ∈ timerRegisters c t) := by
  cases t <;> simp [counterReg, timerRegisters]

theorem compareReg_mem_timerRegisters (x : CompareChannel) :
    compareReg c t x ∈ timerRegisters c t ∧ (t = .t1 → compareReg c t x + 1 ∈ timerRegisters c t) := by
  cases t <;> cases x <;> simp [compareReg, timerRegisters]

/-- Only T1 takes a top from the capture register (R93). -/
theorem t0ModeTable_top_ne_capture (m : Nat) : (t0ModeTable m).top ≠ .capture := by
  unfold t0ModeTable
  split <;> simp

end

/-! ## What a timer reads is what the view gives (R121, R131, R135) -/

section
variable {t : TimerId} {s u : State} (h : TimerViewEq t s u)
include h

theorem TimerViewEq.bit {a : Nat} (ha : a ∈ timerRegisters s.cfg t) (i : Nat) : u.mem.bit a i = s.mem.bit a i := by
  simp only [Memory.bit, h.registers a ha]

theorem TimerViewEq.readTimerReg {a : Nat}
    (ha : a ∈ timerRegisters s.cfg t ∧ (t = .t1 → a + 1 ∈ timerRegisters s.cfg t)) :
    readTimerReg t u.mem a = readTimerReg t s.mem a := by
  cases t
  · exact congrArg BitVec.toNat (h.registers a ha.1).symm
  · simp only [Machine.readTimerReg, Memory.read16, h.registers a ha.1, h.registers (a + 1) (ha.2 rfl)]

theorem TimerViewEq.clockSelect : clockSelect s.cfg t u.mem = clockSelect s.cfg t s.mem := by
  simp only [Machine.clockSelect, h.registers _ (controlB_mem_timerRegisters s.cfg t)]

theorem TimerViewEq.clock : u.clock t = s.clock t := by
  simp only [State.clock, ← h.cfg, h.clockSelect]

theorem TimerViewEq.mode : u.mode t = s.mode t := by
  have hA := h.registers _ (controlA_mem_timerRegisters s.cfg t)
  have hB := h.registers _ (controlB_mem_timerRegisters s.cfg t)
  cases t <;> simp only [State.mode, modeNumber, ← h.cfg, hA, hB]

theorem TimerViewEq.countKind : u.countKind t = s.countKind t := by
  simp only [State.countKind, h.mode]

theorem TimerViewEq.count : u.count t = s.count t := by
  simp only [State.count, readCounter, ← h.cfg, h.readTimerReg (counterReg_mem_timerRegisters s.cfg t)]

theorem TimerViewEq.compare (x : CompareChannel) : u.compare t x = s.compare t x := by
  simp only [State.compare, readCompare, ← h.cfg, h.readTimerReg (compareReg_mem_timerRegisters s.cfg t x)]

theorem TimerViewEq.top : u.top t = s.top t := by
  simp only [State.top, topValue, h.mode]
  cases hsrc : (modeTable t (s.mode t)).top with
  | fixed v => rfl
  | absent => rfl
  | compareA => exact h.compare .a
  | capture =>
    cases t with
    | t0 => exact absurd hsrc (t0ModeTable_top_ne_capture _)
    | t1 =>
      have hlow : s.cfg.reg.icr1 ∈ timerRegisters s.cfg .t1 := by simp [timerRegisters]
      have hhigh : s.cfg.reg.icr1 + 1 ∈ timerRegisters s.cfg .t1 := by simp [timerRegisters]
      simp only [topOf, Memory.read16, ← h.cfg, h.registers _ hlow, h.registers _ hhigh]

theorem TimerViewEq.batchTimer (k : Nat) : batchTimer t k u = batchTimer t k s := by
  simp only [Machine.batchTimer, h.countKind, h.count, h.top, h.compare, h.record]

/-! ## Updates that keep the view -/

theorem TimerViewEq.emit (e : Event) : TimerViewEq t (s.emit e) (u.emit e) :=
  ⟨h.cfg, by cases t <;> exact h.record, h.registers, h.vectors⟩

theorem TimerViewEq.setTimer (T : TimerState) : TimerViewEq t (s.setTimer t T) (u.setTimer t T) := by
  refine ⟨?_, ?_, ?_, ?_⟩
  · simpa using h.cfg
  · simp
  · simpa using h.registers
  · simpa using h.vectors

theorem TimerViewEq.raiseVector {v : IrqVector} (hv : vectorTimer v = t) :
    TimerViewEq t (raiseVector v s) (raiseVector v u) := by
  refine ⟨?_, ?_, ?_, fun w hw => ?_⟩
  · simpa only [raiseVector_eq] using h.cfg
  · simp only [raiseVector_eq]
    cases t <;> exact h.record
  · simpa only [raiseVector_eq] using h.registers
  · rw [raiseVector_vec, raiseVector_vec, h.vectors v hv, h.vectors w hw]

/-- The same byte written at the same address of two canonical memories. -/
theorem TimerViewEq.write (hs : s.mem.wf = true) (hu : u.mem.wf = true) (a : Nat) (v : Byte) :
    TimerViewEq t (s.withMem (s.mem.write a v)) (u.withMem (u.mem.write a v)) := by
  refine ⟨h.cfg, by cases t <;> exact h.record, fun b hb => ?_, h.vectors⟩
  simp only [State.withMem, Memory.read_write hs, Memory.read_write hu, h.registers b hb]

theorem TimerViewEq.writeCounter (hs : s.mem.wf = true) (hu : u.mem.wf = true) (n : Nat) :
    TimerViewEq t (s.withMem (writeCounter s.cfg t s.mem n)) (u.withMem (writeCounter u.cfg t u.mem n)) := by
  rw [← h.cfg]
  cases t
  · exact h.write hs hu (counterReg s.cfg .t0) (BitVec.ofNat 8 n)
  · exact (h.write hs hu (counterReg s.cfg .t1) (BitVec.ofNat 8 n)).write (Memory.write_wf hs _ _)
      (Memory.write_wf hu _ _) (counterReg s.cfg .t1 + 1) (BitVec.ofNat 8 (n / 256))

/-! ## Batches and ticks -/

theorem signalEvent_viewEq (hs : s.mem.wf = true) (hu : u.mem.wf = true) (e : TimerEvent) :
    TimerViewEq t (signalEvent t e s) (signalEvent t e u) := by
  have hflag : TimerViewEq t (s.withMem (s.mem.setBit (flagReg s.cfg t) (flagBit s.cfg t e)))
      (u.withMem (u.mem.setBit (flagReg s.cfg t) (flagBit s.cfg t e))) := by
    simp only [Memory.setBit, ← h.registers _ (flagReg_mem_timerRegisters s.cfg t)]
    exact h.write hs hu _ _
  have hmask := hflag.bit (maskReg_mem_timerRegisters s.cfg t) (maskBit s.cfg t e)
  simp only [State.withMem] at hmask
  rw [signalEvent_eq, signalEvent_eq, ← h.cfg, hmask]
  split
  · exact hflag.raiseVector (vectorTimer_eventVector t e)
  · exact hflag

theorem signalAll_viewEq (hs : s.mem.wf = true) (hu : u.mem.wf = true) (detected : TimerEvent → Bool)
    (es : List TimerEvent) : TimerViewEq t (signalAll detected t es s) (signalAll detected t es u) := by
  induction es generalizing s u with
  | nil => exact h
  | cons e es ih =>
    have hone : TimerViewEq t (signalIf (detected e) t e s) (signalIf (detected e) t e u) := by
      cases detected e
      · exact h
      · exact signalEvent_viewEq h hs hu e
    exact ih hone (signalIf_wf _ t e hs) (signalIf_wf _ t e hu)

theorem tickBatch_viewEq (hs : s.mem.wf = true) (hu : u.mem.wf = true) (k : Nat) :
    TimerViewEq t (tickBatch t k s) (tickBatch t k u) := by
  have hwritten : TimerViewEq t (batchWritten t k s) (batchWritten t k u) := by
    have hset := (h.setTimer (Machine.batchTimer t k s)).writeCounter
      ((State.setTimer_mem s t _).symm ▸ hs) ((State.setTimer_mem u t _).symm ▸ hu) (Machine.batchTimer t k s).counter
    simpa only [batchWritten_eq, h.batchTimer, State.setTimer_cfg, State.setTimer_mem] using hset
  rw [tickBatch_eq_signalAll, tickBatch_eq_signalAll, h.batchTimer]
  exact signalAll_viewEq hwritten ((batchWritten_step t k s).wf hs) ((batchWritten_step t k u).wf hu) _ _

theorem tickPrescaled_viewEq (hs : s.mem.wf = true) (hu : u.mem.wf = true) (d n : Nat) :
    TimerViewEq t (tickPrescaled t d n s) (tickPrescaled t d n u) := by
  simp only [tickPrescaled, ← h.record]
  split
  · exact h.setTimer _
  · exact tickBatch_viewEq (h.setTimer _) ((State.setTimer_mem s t _).symm ▸ hs)
      ((State.setTimer_mem u t _).symm ▸ hu) _

theorem tick_viewEq (hs : s.mem.wf = true) (hu : u.mem.wf = true) (n : Nat) :
    TimerViewEq t (tick t n s) (tick t n u) := by
  have hdec := h.setTimer { s.timer t with prescaler := s.clock t }
  simp only [tick, h.clock, h.mode, h.countKind, ← h.record, ← h.cfg, h.clockSelect]
  split
  · exact h
  · split
    · exact hdec
    · split
      · exact hdec.emit _
      · cases (s.clock t).divisor? with
        | none => exact hdec.emit _
        | some d =>
          exact tickPrescaled_viewEq hdec ((State.setTimer_mem s t _).symm ▸ hs)
            ((State.setTimer_mem u t _).symm ▸ hu) d n

end

/-- The events of a tick: the warning of R126, or none. -/
theorem newEvents_tick (t : TimerId) (n : Nat) (s : State) :
    newEvents s (tick t n s) =
      if n ≠ 0 ∧ s.clock t ≠ .off ∧ (s.clock t = .unsupported ∨ s.countKind t = .frozen) then
        [.warning (.timerUnsupported t (s.mode t) (clockSelect s.cfg t s.mem))]
      else [] := by
  rcases tick_cases t n s with ⟨rfl, he⟩ | ⟨-, hoff, he⟩ | ⟨hn, hon, hstop, he⟩ | ⟨-, hrun, d, hd, he⟩
  · simp [newEvents, he]
  · simp [newEvents, he, hoff, tickDecoded]
  · rw [if_pos ⟨hn, hon, hstop⟩]
    simp [newEvents, he, tickDecoded]
  · have hdivides : s.clock t ≠ .unsupported := by
      rintro hunsupported
      simp [hunsupported, Prescaler.divisor?] at hd
    rw [if_neg (by simp [hrun, hdivides])]
    simp [newEvents, he, tickPrescaled_out, tickDecoded]

/-- Settles O20: the frame is what a tick may do; the events and the new view depend on the view. -/
theorem tickTimersIndependent : Obligations.TickTimersIndependent := by
  refine ⟨fun t n s => ?_, fun t n s s' u u' hs hs' h hu hu' => ?_⟩
  · have k := tick_step t n s
    refine ⟨tick t n s, exec_tick s t n, k.other, k.cfg, k.snap, k.time, k.devs, k.stream, k.pos, k.gie, k.mem,
      fun v hv => ?_⟩
    exact (k.vecs v).resolve_right fun hown => hv hown.1
  · obtain rfl : tick t n s = u := Host.Outcome.next.inj hu
    obtain rfl : tick t n s' = u' := Host.Outcome.next.inj hu'
    refine ⟨tick_viewEq h hs hs' n, ?_⟩
    rw [newEvents_tick, newEvents_tick]
    simp only [h.clock, h.mode, h.countKind, ← h.cfg, h.clockSelect]

end Sys2Proof.Machine
end

section
/-! PROOFS. The interrupt controller (41_interrupt_controller.md, R160 to R171): what RAISE, SETGIE, DISPATCH and RETI
answer, one vector in service in every reachable state, and pending vectors that only a dispatch or RESET takes out of
Pending. -/

namespace Sys2Proof

open Machine

/-! ## The rows of the vector table (R97, R98) -/

/-- Priorities are distinct, so that a vector with the least priority number has the number below every other's. -/
theorem Config.Facts.priority_lt {c : Config} (hc : c.Facts) {v w : IrqVector} (hne : v ≠ w)
    (h : (vectorRow c w).priority ≤ (vectorRow c v).priority) : (vectorRow c w).priority < (vectorRow c v).priority :=
  lt_of_le_of_ne h fun he => hne (hc.priority_injective he).symm

/-- A vector's flag bit is a bit of a byte (R97). -/
theorem Config.Facts.vectorFlagBit_lt {c : Config} (hc : c.Facts) (v : IrqVector) : (vectorRow c v).flagBit < 8 := by
  have h := (hc.flagBit_lt (vectorTimer v) (vectorEvent v)).1
  rwa [flagBit, eventVector_vector] at h

end Sys2Proof

namespace Sys2Proof.Machine

/-! ## Raising (R161, R162) -/

theorem raise_of_unknown {id : Nat} {s : State} (h : ∀ v, (vectorRow s.cfg v).id ≠ id) :
    raise id s = s.warn (.irqUnknownVector id) := by
  simp only [raise, vectorOfId_unknown h]

theorem raise_id {s : State} (hc : s.cfg.Facts) (v : IrqVector) : raise (vectorRow s.cfg v).id s = raiseVector v s := by
  simp only [raise, hc.vectorOfId_id]

/-- Settles O24: the id of a row names its vector, which is raised; an id of no row names none. -/
theorem raiseMarksPending : Obligations.RaiseMarksPending := by
  refine ⟨fun v s hc => ⟨raiseVector v s, ?_, fun u => raiseVector_vec v u s, ?_, raiseVector_gie v s⟩,
    fun id s hid => ?_⟩
  · rw [exec_raise, raise_id hc.facts]
  · rw [raiseVector_eq]
  · rw [exec_raise, raise_of_unknown hid]
    rfl

/-! ## The enable (R163) -/

/-- Settles O25: the mirror is no vector's entry. -/
theorem setGieMirrorsFlag : Obligations.SetGieMirrorsFlag := fun b s =>
  ⟨setGie b s, exec_setgie s b, rfl, IcState.vec_gie s.ic b, rfl⟩

/-! ## Dispatch (R164 to R166, R168, R169) -/

/-- A dispatch with the enable clear, with a vector in service or with none pending does nothing. -/
theorem dispatchPending_of_gated {s : State}
    (h : s.ic.gie = false ∨ (∃ u, s.ic.vec u = .inService) ∨ ∀ v, s.ic.vec v ≠ .pending) : dispatchPending s = s := by
  rcases dispatchPending_cases s with ⟨he, -⟩ | ⟨hgie, hnone, w, hw, -, -⟩
  · exact he
  · rcases h with hclear | ⟨u, hu⟩ | hidle
    · exact absurd (hgie.symm.trans hclear) (by decide)
    · exact absurd hu (hnone u)
    · exact absurd hw (hidle w)

theorem dispatchPending_of_highest {s : State} {w : IrqVector} (hc : s.cfg.Facts) (hgie : s.ic.gie = true)
    (hnone : ∀ u, s.ic.vec u ≠ .inService) (hw : s.ic.vec w = .pending)
    (hleast : ∀ v, s.ic.vec v = .pending → (vectorRow s.cfg w).priority ≤ (vectorRow s.cfg v).priority) :
    dispatchPending s = takeInterrupt w s := by
  rcases dispatchPending_cases s with ⟨-, hclear | ⟨u, hu⟩ | hidle⟩ | ⟨-, -, x, hx, hxleast, he⟩
  · exact absurd (hgie.symm.trans hclear) (by decide)
  · exact absurd hu (hnone u)
  · exact absurd hw (hidle w)
  · rw [he, hc.priority_injective (le_antisymm (hxleast w hw) (hleast x hx))]

theorem Memory.bit_clearBit {m : Memory} (h : m.wf = true) {a i : Nat} (hi : i < 8) (x j : Nat) :
    (m.clearBit a i).bit x j = (m.bit x j && !(x == a && j == i)) := by
  simp only [Memory.bit, Memory.read_clearBit h]
  by_cases hx : x = a
  · subst hx
    simp [getLsbD_clearBit _ _ _ hi, Bool.beq_eq_decide_eq]
  · simp [hx]

/-- Settles O26: by the priority encoder the dispatch is the entry of the given vector, and where it is gated it does
nothing. -/
theorem dispatchEntersHighest : Obligations.DispatchEntersHighest := by
  refine ⟨fun s w hc hgie hnone hw hleast => ?_, fun s hgated => ?_⟩
  · refine ⟨takeInterrupt w s, ?_, rfl, fun v => ?_, ?_, takeInterrupt_out w s, fun hwf a j => ?_⟩
    · rw [exec_dispatch, dispatchPending_of_highest hc.facts hgie hnone hw hleast]
    · rw [takeInterrupt_ic, IcState.vec_setVec]
    · rw [takeInterrupt_ic, IcState.setVec_gie, hgie]
    · rw [takeInterrupt_mem, Memory.bit_clearBit hwf (hc.facts.vectorFlagBit_lt w)]
  · rw [exec_dispatch, dispatchPending_of_gated hgated]

/-! ## Return (R167) -/

theorem returnFromInterrupt_of_inService {s : State} {u : IrqVector} (ha : AtMostOneInService s.ic)
    (hu : s.ic.vec u = .inService) : returnFromInterrupt s = { s with ic := s.ic.setVec u .idle } := by
  rw [returnFromInterrupt, (IcState.inService_eq_some ha).mpr hu]

theorem returnFromInterrupt_of_none {s : State} (h : ∀ v, s.ic.vec v ≠ .inService) : returnFromInterrupt s = s := by
  rw [returnFromInterrupt, IcState.inService_eq_none.mpr h]

/-- Settles O27: the vector found in service is the only one there. -/
theorem retiEndsService : Obligations.RetiEndsService := by
  refine ⟨fun s u ha hu => ?_, fun s hnone => ?_⟩
  · refine ⟨{ s with ic := s.ic.setVec u .idle }, ?_, fun v => IcState.vec_setVec s.ic v u .idle,
      IcState.setVec_gie s.ic u .idle, rfl⟩
    rw [exec_reti, returnFromInterrupt_of_inService ha hu]
  · rw [exec_reti, returnFromInterrupt_of_none hnone]

/-! ## At most one vector in service (R170) -/

/-- Where the second operation after the first answers a next state, so does the first. -/
theorem andThen_eq_next {o : Host.Outcome State Fault Refusal} {k : State → Host.Outcome State Fault Refusal}
    {t : State} (h : andThen o k = .next t) : ∃ u, o = .next u ∧ k u = .next t := by
  cases o with
  | next u => exact ⟨u, rfl, h⟩
  | fault f => cases h
  | refused r => cases h

/-- A run of well-formed commands keeps the invariant: each command does, and none changes the configuration that the
next one's form refers to. -/
theorem runInstrs_inv {is : List Instr} {s t : State} (h : s.Inv) (hwf : ∀ i ∈ is, i.WellFormed s.cfg)
    (he : runInstrs is s = .next t) : t.Inv := by
  induction is generalizing s with
  | nil => exact Host.Outcome.next.inj he ▸ h
  | cons i is ih =>
    obtain ⟨u, hu, he⟩ := andThen_eq_next he
    have hcfg : u.cfg = s.cfg := (historyOnlyGrows i s u hu).1
    refine ih (exec_inv h (hwf i List.mem_cons_self) hu) (fun j hj => ?_) he
    exact hcfg ▸ hwf j (List.mem_cons_of_mem i hj)

theorem reachable_inv {s : State} (h : Reachable s) : s.Inv := by
  obtain ⟨c, is, hc, hwf, he⟩ := h
  exact runInstrs_inv (resetWith_inv hc) hwf he

/-- Settles O28: the invariant holds of every reachable state, and the priority encoder chooses a dispatch's vector. -/
theorem atMostOneVectorInService : Obligations.AtMostOneVectorInService := by
  refine ⟨fun s hs => (reachable_inv hs).ic, fun s hc => ⟨dispatchPending s, exec_dispatch s, ?_⟩⟩
  rcases dispatchPending_cases s with ⟨he, -⟩ | ⟨-, -, w, hw, hleast, he⟩ <;> rw [he]
  · exact .inl rfl
  · exact .inr ⟨w, takeInterrupt_out w s, hw, fun v hv hne => hc.facts.priority_lt hne (hleast v hv)⟩

/-! ## Pending vectors (R160, R171) -/

/-- No vector leaves Pending. -/
def KeepsPending (s t : State) : Prop := ∀ v, s.ic.vec v = .pending → t.ic.vec v = .pending

theorem KeepsPending.of_ic_eq {s t : State} (h : t.ic = s.ic) : KeepsPending s t := fun v hv => by rwa [h]

theorem KeepsPending.refl (s : State) : KeepsPending s s := .of_ic_eq rfl

theorem OnlyDevices.keepsPending {s t : State} (h : OnlyDevices s t) : KeepsPending s t := .of_ic_eq h.ic

theorem raise_keepsPending (id : Nat) (s : State) : KeepsPending s (raise id s) := by
  unfold raise
  split
  · exact .of_ic_eq rfl
  · next w _ =>
    intro v hv
    rw [raiseVector_vec, hv, ite_self]

theorem setGie_keepsPending (b : Bool) (s : State) : KeepsPending s (setGie b s) := fun v hv =>
  (IcState.vec_gie s.ic b v).trans hv

theorem returnFromInterrupt_keepsPending (s : State) : KeepsPending s (returnFromInterrupt s) := by
  rcases returnFromInterrupt_cases s with ⟨he, -⟩ | ⟨u, hu, he⟩ <;> rw [he]
  · exact .refl s
  · intro v hv
    have hne : v ≠ u := by
      rintro rfl
      simp [hu] at hv
    exact (IcState.vec_setVec_other s.ic .idle hne).trans hv

/-- A tick moves a vector only out of Idle (R135, R162). -/
theorem TimerStep.vec_of_ne_idle {x : TimerId} {s t : State} (h : TimerStep x s t) {v : IrqVector}
    (hv : s.ic.vec v ≠ .idle) : t.ic.vec v = s.ic.vec v :=
  (h.vecs v).resolve_right fun ⟨_, hidle, _⟩ => hv hidle

theorem TimerStep.keepsPending {x : TimerId} {s t : State} (h : TimerStep x s t) : KeepsPending s t := fun v hv =>
  (h.vec_of_ne_idle (by simp [hv])).trans hv

/-- The state of a step when its dispatch comes: after the two ticks and the refresh of the enable (R271, R272). -/
def stepBeforeDispatch (n : Nat) (s : State) : State := refreshGie (tick .t1 n (tick .t0 n (timeTick n s)))

theorem stepCycles_eq_observe_dispatch (n : Nat) (s : State) :
    stepCycles n s = observe (dispatchPending (stepBeforeDispatch n s)) := stepCycles_eq n s

theorem stepBeforeDispatch_vec (n : Nat) (s : State) {v : IrqVector} (hv : s.ic.vec v ≠ .idle) :
    (stepBeforeDispatch n s).ic.vec v = s.ic.vec v := by
  have h0 := (tick_step .t0 n (timeTick n s)).vec_of_ne_idle hv
  have h1 := (tick_step .t1 n (tick .t0 n (timeTick n s))).vec_of_ne_idle (h0 ▸ hv)
  rw [stepBeforeDispatch, refreshGie, setGie, IcState.vec_gie, h1, h0]
  rfl

/-- The ticks write counter and flag bytes only, so that the enable of a step is SREG's bit before it (R271, R351). -/
theorem stepBeforeDispatch_gie (n : Nat) {s : State} (hc : s.cfg.Facts) :
    (stepBeforeDispatch n s).ic.gie = s.mem.bit s.cfg.reg.sreg 7 := by
  have h0 := (tick_step .t0 n (timeTick n s)).mem _ (hc.sreg_apart .t0)
  have h1 := (tick_step .t1 n (tick .t0 n (timeTick n s))).mem s.cfg.reg.sreg (by rw [tick_cfg]; exact hc.sreg_apart .t1)
  simp only [stepBeforeDispatch, refreshGie, setGie, Memory.bit, tick_cfg]
  exact congrArg (BitVec.getLsbD · 7) (h1.trans h0)

/-- A step whose dispatch is gated dispatches nothing, and its other parts leave pending vectors alone. -/
theorem stepCycles_keepsPending {s : State} (hc : s.cfg.Facts) (n : Nat)
    (h : s.mem.bit s.cfg.reg.sreg 7 = false ∨ ∃ u, s.ic.vec u = .inService) : KeepsPending s (stepCycles n s) := by
  have hgated : dispatchPending (stepBeforeDispatch n s) = stepBeforeDispatch n s := by
    apply dispatchPending_of_gated
    rcases h with hclear | ⟨u, hu⟩
    · exact .inl ((stepBeforeDispatch_gie n hc).trans hclear)
    · exact .inr (.inl ⟨u, (stepBeforeDispatch_vec n s (by simp [hu])).trans hu⟩)
  intro v hv
  rw [stepCycles_eq_observe_dispatch, hgated, (observe_observation _).ic, stepBeforeDispatch_vec n s (by simp [hv]), hv]

theorem registerDisplay_ic (rs en : Nat) (d : List Nat) (rows cols : Nat) (mode : Addressing) (s : State) :
    (registerDisplay rs en d rows cols mode s).ic = s.ic := by
  rcases registerDisplay_cases rs en d rows cols mode s with ⟨-, he⟩ | ⟨-, he⟩ <;> rw [he]
  · exact State.addDevice_ic s _
  · exact State.warn_ic s _

theorem registerServo_ic (pin speed deadband maxTorque load arm period initAngle : Nat) (s : State) :
    (registerServo pin speed deadband maxTorque load arm period initAngle s).ic = s.ic := by
  simp only [registerServo]
  split
  · rw [State.addDevice_ic]
    split <;> rfl
  · exact State.warn_ic s _

/-- Settles O29: RAISE and a tick move vectors out of Idle, RETI out of InService, and the two operations that dispatch
are gated; the other instructions leave the controller alone. -/
theorem pendingVectorsAreKept : Obligations.PendingVectorsAreKept := by
  intro i s t v hc he hv hreset hdispatch hstep
  have keep {u : State} (hu : KeepsPending s u) (hx : exec i s = .next u) : t.ic.vec v = .pending :=
    Host.Outcome.next.inj (hx.symm.trans he) ▸ hu v hv
  cases i with
  | reset => exact absurd rfl hreset
  | step n => exact keep (stepCycles_keepsPending hc.facts n (hstep n rfl)) (exec_step s n)
  | memwrite a b =>
    obtain ⟨-, rfl⟩ := exec_memwrite_next he
    exact hv
  | motion => exact keep (motion_step s).only.keepsPending (exec_motion s)
  | tick x n => exact keep (tick_step x n s).keepsPending (exec_tick s x n)
  | raise id => exact keep (raise_keepsPending id s) (exec_raise s id)
  | setgie b => exact keep (setGie_keepsPending b s) (exec_setgie s b)
  | dispatch =>
    have hgated := dispatchPending_of_gated ((hdispatch rfl).imp_right Or.inl)
    exact keep (.of_ic_eq (by rw [hgated])) (exec_dispatch s)
  | reti => exact keep (returnFromInterrupt_keepsPending s) (exec_reti s)
  | observe => exact keep (.of_ic_eq (observe_observation s).ic) (exec_observe s)
  | pinchange pin level ts => exact keep (pinChange_step pin level s).only.keepsPending (exec_pinchange s pin level ts)
  | regchange a old new => exact keep (regChange_step a s).only.keepsPending (exec_regchange s a old new)
  | regdisplay rs en d rows cols mode =>
    exact keep (.of_ic_eq (registerDisplay_ic rs en d rows cols mode s)) (exec_regdisplay s rs en d rows cols mode)
  | regservo pin speed deadband maxTorque load arm period initAngle =>
    exact keep (.of_ic_eq (registerServo_ic pin speed deadband maxTorque load arm period initAngle s))
      (exec_regservo s pin speed deadband maxTorque load arm period initAngle)
  | unreg k => exact keep (.of_ic_eq (State.removeDevice_ic s k)) (exec_unreg s k)
  | setload k load arm => exact keep (setLoad_onlyDevices k load arm s).keepsPending (exec_setload s k load arm)
  | timetick n => exact keep (.of_ic_eq (t := timeTick n s) rfl) (exec_timetick s n)
  | nowus => exact keep (OnlyDevices.emit s _).keepsPending (exec_nowus s)
  | nowms => exact keep (OnlyDevices.emit s _).keepsPending (exec_nowms s)
  | lcdUnknown k => exact keep (warnOnDisplay_step k _ s).only.keepsPending (exec_lcdUnknown s k)
  | lcdClear k => exact keep (onDisplay_step k clearDisplay_config s).only.keepsPending (exec_lcdClear s k)
  | lcdHome k x => exact keep (onDisplay_step k clearDisplay_config s).only.keepsPending (exec_lcdHome s k x)
  | lcdEntryModeSet k inc shift => exact keep (.refl s) (exec_lcdEntryModeSet s k inc shift)
  | lcdDisplayControl k d c b =>
    exact keep (onDisplay_step k (controlDisplay_config d c b) s).only.keepsPending (exec_lcdDisplayControl s k d c b)
  | lcdCursorDisplayShift k sc rl x => exact keep (.refl s) (exec_lcdCursorDisplayShift s k sc rl x)
  | lcdFunctionSet k dl n f x => exact keep (.refl s) (exec_lcdFunctionSet s k dl n f x)
  | lcdSetCgramAddress k a => exact keep (.refl s) (exec_lcdSetCgramAddress s k a)
  | lcdSetDdramAddress k a =>
    exact keep (setDdramAddress_step k a.toNat s).only.keepsPending (exec_lcdSetDdramAddress s k a)
  | lcdWriteData k c => exact keep (onDisplay_step k (writeChar_config c) s).only.keepsPending (exec_lcdWriteData s k c)

end Sys2Proof.Machine
end

section
/-! PROOFS. The observer bridge (42_observer_bridge.md, R180 to R189). The device engines neither read nor write the
snapshot and emit no event of the bridge (`SnapTwin`); so OBSERVE is the delivery of its events one after another, and
after them one copy of the observed bytes into the snapshot (`observeList_eq`). -/

namespace Sys2Proof.Machine

/-! ## Memory: a second write, and copies (R10, R182) -/

/-- A write below every listed address puts its byte in front, or changes nothing. -/
theorem Memory.write_below {lo a : Nat} {m : Memory} (h : Memory.wfFrom lo m = true) (ha : a < lo) (v : Byte) :
    m.write a v = if v = Memory.unlisted then m else (a, v) :: m := by
  cases m with
  | nil => rfl
  | cons c m =>
    obtain ⟨b, w⟩ := c
    simp only [Memory.wfFrom, Bool.and_eq_true, decide_eq_true_eq] at h
    obtain ⟨⟨hb, -⟩, -⟩ := h
    simp only [Memory.write, if_pos (show a < b by omega)]

/-- Of two writes at one address the second alone counts. -/
theorem Memory.write_write_from {lo : Nat} {m : Memory} (h : Memory.wfFrom lo m = true) (a : Nat) (v w : Byte) :
    (m.write a v).write a w = m.write a w := by
  induction m generalizing lo with
  | nil => by_cases hv : v = Memory.unlisted <;> simp [Memory.write, hv]
  | cons c m ih =>
    obtain ⟨b, x⟩ := c
    simp only [Memory.wfFrom, Bool.and_eq_true] at h
    obtain ⟨-, hm⟩ := h
    rcases lt_trichotomy a b with hlt | rfl | hgt
    · by_cases hv : v = Memory.unlisted <;> simp [Memory.write, hlt, hv]
    · by_cases hv : v = Memory.unlisted <;> simp [Memory.write, hv, Memory.write_below hm (Nat.lt_succ_self a)]
    · simp [Memory.write, hgt.not_gt, hgt.ne', ih hm]

/-- A write undone leaves a canonical memory as it was. -/
theorem Memory.write_undo {m : Memory} (h : m.wf = true) (a : Nat) (v : Byte) :
    (m.write a v).write a (m.read a) = m :=
  (Memory.write_write_from h a v (m.read a)).trans (Memory.write_read h a)

/-- A copy leaves the other addresses alone, in every memory, canonical or not. -/
theorem Memory.read_copyAt_of_notMem (src : Memory) {addrs : List Nat} {x : Nat} (hx : x ∉ addrs) (dst : Memory) :
    (src.copyAt addrs dst).read x = dst.read x :=
  List.foldlRecOn (motive := fun m : Memory => m.read x = dst.read x) addrs _ rfl fun m hm _ ha =>
    (Memory.read_write_other m _ (ne_of_mem_of_not_mem ha hx).symm).trans hm

/-- A copy of bytes that the destination holds already changes nothing. -/
theorem Memory.copyAt_eq_self {src dst : Memory} (h : dst.wf = true) {addrs : List Nat}
    (heq : ∀ a ∈ addrs, dst.read a = src.read a) : src.copyAt addrs dst = dst :=
  List.foldlRecOn (motive := (· = dst)) addrs _ rfl fun m hm a ha => by
    rw [hm, ← heq a ha, Memory.write_read h]

/-! ## What the bytes of an observed register are (R180) -/

section
variable (c : Config) (r : ObservedReg)

theorem registerAddr_mem_observedBytes : registerAddr c r.reg ∈ observedBytes c r := by
  simp only [observedBytes]
  split
  · exact List.mem_singleton_self _
  · split <;> exact List.mem_cons_self

theorem registerAddr_succ_mem_observedBytes (hc : r.cls = .value) (hw : isWideRegister r.reg = true) :
    registerAddr c r.reg + 1 ∈ observedBytes c r := by
  simp [observedBytes, hc, hw]

theorem observedBytes_subset_observedAddrs {r : ObservedReg} (hr : r ∈ c.observedRegs) {a : Nat}
    (ha : a ∈ observedBytes c r) : a ∈ observedAddrs c :=
  List.mem_flatMap.mpr ⟨r, hr, ha⟩

/-- The events of a register depend on the snapshot at its observed bytes only. -/
theorem registerEvents_congr (ts : Nat) (mem : Memory) {snap snap' : Memory}
    (h : ∀ a ∈ observedBytes c r, snap'.read a = snap.read a) :
    registerEvents c ts snap' mem r = registerEvents c ts snap mem r := by
  have hlow := h _ (registerAddr_mem_observedBytes c r)
  simp only [registerEvents, hlow]
  split
  · rfl
  · next hc =>
    split
    · next hw => simp only [Memory.read16, hlow, h _ (registerAddr_succ_mem_observedBytes c r hc hw)]
    · rfl

/-- A register whose bytes are those of the snapshot has no event. -/
theorem registerEvents_self (ts : Nat) (mem : Memory) : registerEvents c ts mem mem r = [] := by
  cases hc : r.cls <;> simp [registerEvents, portEvents, valueEvents, hc]

end

/-! ## Two runs from states that differ in the snapshot (R45) -/

/-- The state with its snapshot replaced. -/
def State.withSnap (s : State) (m : Memory) : State := { s with snap := m }

/-- The events emitted between the two states are none of the bridge's. -/
def EmitsNoBridge (s t : State) : Prop := ∃ es, t.out = s.out ++ es ∧ es.filter Event.isBridge = []

/-- Two runs, the first one from `s₀`: `s` and `u` differ in the snapshot only, and no event of the bridge was emitted
since `s₀`. -/
structure SnapTwin (s₀ s u : State) : Prop where
  same : u = s.withSnap u.snap
  quiet : EmitsNoBridge s₀ s

theorem SnapTwin.refl (s : State) (m : Memory) : SnapTwin s s (s.withSnap m) :=
  ⟨rfl, [], (List.append_nil _).symm, rfl⟩

section
variable {s₀ s u : State} (h : SnapTwin s₀ s u)
include h

theorem SnapTwin.cfg : u.cfg = s.cfg := (congrArg State.cfg h.same :)
theorem SnapTwin.mem : u.mem = s.mem := (congrArg State.mem h.same :)
theorem SnapTwin.devs : u.devs = s.devs := (congrArg State.devs h.same :)
theorem SnapTwin.display? (k : Nat) : u.display? k = s.display? k := (congrArg (State.display? · k) h.same :)
theorem SnapTwin.servo? (k : Nat) : u.servo? k = s.servo? k := (congrArg (State.servo? · k) h.same :)
theorem SnapTwin.mode (t : TimerId) : u.mode t = s.mode t := (congrArg (State.mode · t) h.same :)
theorem SnapTwin.countKind (t : TimerId) : u.countKind t = s.countKind t := (congrArg (State.countKind · t) h.same :)
theorem SnapTwin.top (t : TimerId) : u.top t = s.top t := (congrArg (State.top · t) h.same :)
theorem SnapTwin.compare (t : TimerId) (x : CompareChannel) : u.compare t x = s.compare t x :=
  (congrArg (State.compare · t x) h.same :)

theorem SnapTwin.emit {e : Event} (he : e.isBridge = false) : SnapTwin s₀ (s.emit e) (u.emit e) := by
  obtain ⟨es, hout, hes⟩ := h.quiet
  exact ⟨(congrArg (State.emit · e) h.same :), es ++ [e], by simp [hout], by simp [hes, he]⟩

theorem SnapTwin.warn (w : Warning) : SnapTwin s₀ (s.warn w) (u.warn w) := h.emit rfl

theorem SnapTwin.setDevice (k : Nat) (d : Device) : SnapTwin s₀ (s.setDevice k d) (u.setDevice k d) :=
  ⟨(congrArg (State.setDevice · k d) h.same :), h.quiet⟩

end

/-- A loop over the same list, each round of which keeps the runs twins. -/
theorem SnapTwin.foldl {α : Type} {f : State → α → State} {s₀ s u : State}
    (hf : ∀ s u a, SnapTwin s₀ s u → SnapTwin s₀ (f s a) (f u a)) (l : List α) (h : SnapTwin s₀ s u) :
    SnapTwin s₀ (l.foldl f s) (l.foldl f u) := by
  induction l generalizing s u with
  | nil => exact h
  | cons a l ih => exact ih (hf s u a h)

/-! ## The device engines do not see the snapshot and emit none of the bridge's events -/

section
variable {s₀ s u : State} (h : SnapTwin s₀ s u)
include h

theorem onDisplay_twin (k : Nat) (f : DisplayState → DisplayState) :
    SnapTwin s₀ (onDisplay k f s) (onDisplay k f u) := by
  simp only [onDisplay, h.display?]
  cases s.display? k with
  | none => exact h
  | some D =>
    dsimp only
    split
    · exact (h.setDevice k _).emit rfl
    · exact h.setDevice k _

theorem warnOnDisplay_twin (k : Nat) (w : Warning) : SnapTwin s₀ (warnOnDisplay k w s) (warnOnDisplay k w u) := by
  simp only [warnOnDisplay, h.display?]
  cases s.display? k with
  | none => exact h
  | some D => exact h.warn w

theorem setDdramAddress_twin (k a : Nat) : SnapTwin s₀ (setDdramAddress k a s) (setDdramAddress k a u) := by
  simp only [setDdramAddress, h.display?]
  cases s.display? k with
  | none => exact h
  | some D =>
    cases hpos : addrToPos D.rows D.cols a with
    | none => simpa only [hpos] using warnOnDisplay_twin h k _
    | some pos => simpa only [hpos] using onDisplay_twin h k _

/-- A dispatched byte warns, updates its display or does nothing (R205). -/
theorem dispatchByte_twin (k : Nat) (rs : Bool) (b : Byte) :
    SnapTwin s₀ (dispatchByte k rs b s) (dispatchByte k rs b u) := by
  unfold dispatchByte
  cases decodeDisplayByte rs b with
  | unknown => exact warnOnDisplay_twin h k _
  | setDdramAddress a => exact setDdramAddress_twin h k _
  | clear | home _ | displayControl _ _ _ | writeData _ => exact onDisplay_twin h k _
  | entryModeSet _ _ | cursorDisplayShift _ _ _ | functionSet _ _ _ _ | setCgramAddress _ => exact h

theorem latch_twin (k : Nat) : SnapTwin s₀ (latch k s) (latch k u) := by
  simp only [latch, h.display?, h.cfg, h.mem]
  cases s.display? k with
  | none => exact h
  | some D =>
    dsimp only
    split
    · exact dispatchByte_twin h k _ _
    · unfold assemble
      split
      · exact h.setDevice k _
      · exact dispatchByte_twin (h.setDevice k _) k _ _

theorem pinChange_twin (pin : Nat) (level : Bool) : SnapTwin s₀ (pinChange pin level s) (pinChange pin level u) := by
  simp only [pinChange, displaysEnabledBy, h.devs]
  split
  · exact h
  · exact h.foldl (fun _ _ k ht => latch_twin ht k) _

theorem acceptPulse_twin (k : Nat) (V : ServoState) (pw : Nat) :
    SnapTwin s₀ (acceptPulse k V pw s) (acceptPulse k V pw u) := by
  simp only [acceptPulse, h.cfg]
  split
  · exact h.setDevice k _
  · exact (h.warn _).setDevice k _

theorem decodePulse_twin (k : Nat) (V : ServoState) (ch : ServoChannel) :
    SnapTwin s₀ (decodePulse k V ch s) (decodePulse k V ch u) := by
  have hreject : SnapTwin s₀ (rejectNoTop k V (s.mode ch.timer) s) (rejectNoTop k V (s.mode ch.timer) u) :=
    (h.warn _).setDevice k _
  simp only [decodePulse, h.countKind, h.mode, h.top, h.compare]
  split
  · exact hreject
  · split
    · exact hreject
    · exact acceptPulse_twin h k V _

theorem decodeServo_twin (k : Nat) : SnapTwin s₀ (decodeServo k s) (decodeServo k u) := by
  simp only [decodeServo, h.servo?]
  cases s.servo? k with
  | none => exact h
  | some V =>
    cases hch : V.channel with
    | none => simpa only [hch] using h
    | some ch => simpa only [hch] using decodePulse_twin h k V ch

theorem regChange_twin (a : Nat) : SnapTwin s₀ (regChange a s) (regChange a u) := by
  simp only [regChange, servosTriggeredBy, h.devs, h.cfg, h.mem]
  exact h.foldl (fun _ _ k ht => decodeServo_twin ht k) _

end

/-! ## Emission and delivery of one event (R187) -/

/-- The state after an event was emitted and delivered: to the display decoder, to the servo engine, or to nobody. -/
def deliverEvent (s : State) (e : Event) : State :=
  match e with
  | .pinChange pin level _ => pinChange pin level (s.emit e)
  | .regChange address _ _ => regChange address (s.emit e)
  | .warning _ | .dispatch _ _ | .notifyDisplay _ _ | .notifyServo _ _ | .handle _ | .value _ => s.emit e

theorem runInstrs_delivery (e : Event) (s : State) : runInstrs e.delivery (s.emit e) = .next (deliverEvent s e) := by
  cases e <;> rfl

theorem emitAndDeliver_eq (es : List Event) (s : State) : emitAndDeliver es s = .next (es.foldl deliverEvent s) := by
  induction es generalizing s with
  | nil => rfl
  | cons e es ih => rw [emitAndDeliver, runInstrs_delivery, andThen, ih, List.foldl_cons]

theorem deliverEvent_delivery (s : State) (e : Event) : Delivery s (deliverEvent s e) := by
  have hemit : Delivery s (s.emit e) := (DisplayStep.emit s e).delivery
  cases e with
  | pinChange pin level ts => exact hemit.trans (pinChange_step pin level _).delivery
  | regChange a old new => exact hemit.trans (regChange_step a _).delivery
  | warning _ | dispatch _ _ | notifyDisplay _ _ | notifyServo _ _ | handle _ | value _ => exact hemit

theorem deliverAll_delivery (es : List Event) (s : State) : Delivery s (es.foldl deliverEvent s) :=
  foldl_relates Delivery .refl (fun _ _ _ => .trans) _ deliverEvent_delivery es s

theorem deliverEvent_twin (s : State) (e : Event) (m : Memory) :
    SnapTwin (s.emit e) (deliverEvent s e) (deliverEvent (s.withSnap m) e) := by
  have hemit : SnapTwin (s.emit e) (s.emit e) ((s.withSnap m).emit e) := .refl (s.emit e) m
  cases e with
  | pinChange pin level ts => exact pinChange_twin hemit pin level
  | regChange a old new => exact regChange_twin hemit a
  | warning _ | dispatch _ _ | notifyDisplay _ _ | notifyServo _ _ | handle _ | value _ => exact hemit

theorem deliverEvent_withSnap (s : State) (m : Memory) (e : Event) :
    deliverEvent (s.withSnap m) e = (deliverEvent s e).withSnap m := by
  have hsame := (deliverEvent_twin s e m).same
  rwa [(deliverEvent_delivery (s.withSnap m) e).only.snap] at hsame

theorem deliverAll_withSnap (es : List Event) (s : State) (m : Memory) :
    es.foldl deliverEvent (s.withSnap m) = (es.foldl deliverEvent s).withSnap m :=
  List.foldl_hom (State.withSnap · m) fun s e => deliverEvent_withSnap s m e

/-- Of the events that deliveries add to the output, the bridge's are those delivered. -/
theorem newEvents_deliverAll_filter (es : List Event) (s : State) :
    (newEvents s (es.foldl deliverEvent s)).filter Event.isBridge = es.filter Event.isBridge := by
  suffices hout : ∃ fs, (es.foldl deliverEvent s).out = s.out ++ fs ∧
      fs.filter Event.isBridge = es.filter Event.isBridge by
    obtain ⟨fs, hfs, hfilter⟩ := hout
    rw [newEvents, hfs, List.drop_left, hfilter]
  induction es generalizing s with
  | nil => exact ⟨[], (List.append_nil _).symm, rfl⟩
  | cons e es ih =>
    obtain ⟨gs, hgs, hquiet⟩ := (deliverEvent_twin s e []).quiet
    obtain ⟨fs, hfs, hfilter⟩ := ih (deliverEvent s e)
    refine ⟨e :: (gs ++ fs), by simp [hfs, hgs], ?_⟩
    simp only [List.filter_cons, List.filter_append, hquiet, hfilter, List.nil_append]

/-! ## OBSERVE as the delivery of its events (R180, R183, R184) -/

/-- The event of one bit of a port (R183). -/
def bitEvent (c : Config) (ts addr : Nat) (old new : Byte) (i : Nat) : Option Event :=
  if old.getLsbD i = new.getLsbD i then none else (pinOf c addr i).map fun p => .pinChange p (new.getLsbD i) ts

theorem portEvents_eq (c : Config) (ts addr : Nat) (old new : Byte) :
    portEvents c ts addr old new = (List.range 8).filterMap (bitEvent c ts addr old new) := rfl

theorem observeBit_eq (ts addr : Nat) (old new : Byte) (s : State) (i : Nat) :
    observeBit ts addr old new s i = (bitEvent s.cfg ts addr old new i).elim s (deliverEvent s) := by
  unfold observeBit bitEvent
  split
  · rfl
  · cases pinOf s.cfg addr i <;> rfl

theorem observeBits_eq (ts addr : Nat) (old new : Byte) (bits : List Nat) (s : State) :
    bits.foldl (observeBit ts addr old new) s =
      (bits.filterMap (bitEvent s.cfg ts addr old new)).foldl deliverEvent s := by
  induction bits generalizing s with
  | nil => rfl
  | cons i bits ih =>
    rw [List.foldl_cons, observeBit_eq, List.filterMap_cons]
    cases bitEvent s.cfg ts addr old new i with
    | none => exact ih s
    | some e =>
      rw [Option.elim_some, ih, (deliverEvent_delivery s e).only.cfg, List.foldl_cons]

theorem observeValue_eq (addr old new : Nat) (s : State) :
    observeValue addr old new s = (valueEvents addr old new).foldl deliverEvent s := by
  unfold observeValue valueEvents
  split <;> rfl

theorem deliverReg_eq (ts : Nat) (s : State) (r : ObservedReg) :
    deliverReg ts s r = (registerEvents s.cfg ts s.snap s.mem r).foldl deliverEvent s := by
  cases hc : r.cls with
  | port =>
    simp only [deliverReg, registerEvents, hc]
    exact observeBits_eq ts _ _ _ _ s
  | value =>
    simp only [deliverReg, registerEvents, hc]
    split <;> exact observeValue_eq _ _ _ s

theorem refreshSnapshot_eq (addrs : List Nat) (s : State) :
    refreshSnapshot addrs s = s.withSnap (s.mem.copyAt addrs s.snap) := rfl

/-- One observed register: its events one after another, then the copy of its bytes (R180, R182). -/
theorem observeReg_eq_withSnap (ts : Nat) (s : State) (r : ObservedReg) :
    observeReg ts s r =
      ((registerEvents s.cfg ts s.snap s.mem r).foldl deliverEvent s).withSnap
        (s.mem.copyAt (observedBytes s.cfg r) s.snap) := by
  have honly := (deliverAll_delivery (registerEvents s.cfg ts s.snap s.mem r) s).only
  rw [observeReg_eq, deliverReg_eq, refreshSnapshot_eq, honly.mem, honly.snap]

/-- Where no byte is listed twice, refreshing the snapshot after each register hides no difference of a later one: the
registers' events are delivered one after another, and the snapshot takes the observed bytes (R180, R189). -/
theorem observeList_eq (ts : Nat) (regs : List ObservedReg) (s : State)
    (hn : (regs.flatMap (observedBytes s.cfg)).Nodup) :
    regs.foldl (observeReg ts) s =
      ((regs.flatMap (registerEvents s.cfg ts s.snap s.mem)).foldl deliverEvent s).withSnap
        (s.mem.copyAt (regs.flatMap (observedBytes s.cfg)) s.snap) := by
  induction regs generalizing s with
  | nil => rfl
  | cons r rs ih =>
    obtain ⟨-, hrs, hdisjoint⟩ := List.nodup_append'.mp (List.flatMap_cons ▸ hn)
    have k : Observation [r] s (observeReg ts s r) := observeList_observation ts [r] s
    have hsnap : (observeReg ts s r).snap = s.mem.copyAt (observedBytes s.cfg r) s.snap := by
      rw [k.snap, List.flatMap_singleton]
    have hevents : rs.flatMap (registerEvents s.cfg ts (observeReg ts s r).snap s.mem) =
        rs.flatMap (registerEvents s.cfg ts s.snap s.mem) := by
      refine List.flatMap_congr fun q hq => registerEvents_congr s.cfg q ts s.mem fun a ha => ?_
      rw [hsnap]
      exact Memory.read_copyAt_of_notMem _ (fun hr => hdisjoint hr (List.mem_flatMap.mpr ⟨q, hq, ha⟩)) _
    rw [List.foldl_cons, ih _ (by rwa [k.cfg]), k.cfg, k.mem, hevents, hsnap, ← Memory.copyAt_append,
      observeReg_eq_withSnap, deliverAll_withSnap, ← List.foldl_append]
    rfl

theorem observe_eq (s : State) (hn : (observedAddrs s.cfg).Nodup) :
    observe s = ((bridgeEvents s).foldl deliverEvent s).withSnap (s.mem.copyAt (observedAddrs s.cfg) s.snap) :=
  observeList_eq s.nowMicros s.cfg.observedRegs s hn

theorem registerEvents_isBridge (c : Config) (ts : Nat) (snap mem : Memory) (r : ObservedReg) {e : Event}
    (he : e ∈ registerEvents c ts snap mem r) : e.isBridge = true := by
  have hvalue {addr old new : Nat} (hv : e ∈ valueEvents addr old new) : e.isBridge = true := by
    unfold valueEvents at hv
    split at hv
    · exact absurd hv List.not_mem_nil
    · rw [List.mem_singleton.mp hv, Event.isBridge]
  simp only [registerEvents] at he
  split at he
  · rw [portEvents_eq, List.mem_filterMap] at he
    obtain ⟨i, -, hi⟩ := he
    unfold bitEvent at hi
    split at hi
    · exact absurd hi.symm (Option.some_ne_none e)
    · obtain ⟨p, -, rfl⟩ := Option.map_eq_some_iff.mp hi
      rfl
  · split at he <;> exact hvalue he

theorem bridgeEvents_filter (s : State) : (bridgeEvents s).filter Event.isBridge = bridgeEvents s := by
  refine List.filter_eq_self.mpr fun e he => ?_
  obtain ⟨r, -, hr⟩ := List.mem_flatMap.mp he
  exact registerEvents_isBridge _ _ _ _ r hr

/-- Settles O34: no refresh of the snapshot hides a difference, and the deliveries do not see the snapshot. -/
theorem observeEmitsDifferences : Obligations.ObserveEmitsDifferences := by
  intro s hn
  refine ⟨_, _, emitAndDeliver_eq (bridgeEvents s) s, exec_observe s, ?_, ?_⟩
  · rw [observe_eq s hn]
    rfl
  · rw [observe_eq s hn]
    exact (newEvents_deliverAll_filter (bridgeEvents s) s).trans (bridgeEvents_filter s)

/-! ## The frame of OBSERVE (R186) -/

/-- Settles O35: the frame is that of an `Observation`. -/
theorem observeFrame : Obligations.ObserveFrame := by
  intro s
  have k := observe_observation s
  refine ⟨observe s, exec_observe s, k.cfg, k.mem, k.t0, k.t1, k.ic, k.time, k.stream, k.pos, k.nextHandle, k.handles,
    k.grows, fun a ha => ?_, k.displays, k.servos⟩
  rw [k.snap]
  exact Memory.read_copyAt_of_notMem s.mem ha s.snap

/-! ## A second OBSERVE (R188) -/

/-- The snapshot reads as register memory at every observed address (R182). -/
def SnapshotFresh (s : State) : Prop := ∀ a ∈ observedAddrs s.cfg, s.snap.read a = s.mem.read a

theorem observe_snapshot {s : State} (h : s.snap.wf = true) {a : Nat} (ha : a ∈ observedAddrs s.cfg) :
    (observe s).snap.read a = s.mem.read a := by
  rw [(observe_observation s).snap]
  exact (Memory.read_copyAt s.mem (observedAddrs s.cfg) h a).trans (if_pos ha)

/-- With a fresh snapshot no register has an event, and every refresh copies what is there already. -/
theorem observe_of_fresh {s : State} (h : s.snap.wf = true) (hf : SnapshotFresh s) : observe s = s := by
  refine List.foldlRecOn (motive := (· = s)) s.cfg.observedRegs _ rfl fun t ht r hr => ?_
  subst ht
  have hread : ∀ a ∈ observedBytes t.cfg r, t.snap.read a = t.mem.read a := fun a ha =>
    hf a (observedBytes_subset_observedAddrs t.cfg hr ha)
  rw [observeReg_eq_withSnap, registerEvents_congr t.cfg r _ t.mem hread, registerEvents_self,
    Memory.copyAt_eq_self h hread]
  rfl

/-- Settles O33: an OBSERVE leaves a fresh snapshot, and freshness is about the three parts that are the same. -/
theorem secondObserveIsSilent : Obligations.SecondObserveIsSilent := by
  intro s t u hw he hcfg hmem hsnap
  obtain rfl := Host.Outcome.next.inj ((exec_observe s).symm.trans he)
  have k := observe_observation s
  have hwf : u.snap.wf = true := by
    rw [hsnap, k.snap]
    exact Memory.copyAt_wf _ _ hw
  have hfresh : SnapshotFresh u := by
    intro a ha
    rw [hcfg, k.cfg] at ha
    rw [hsnap, hmem, k.mem, observe_snapshot hw ha]
  rw [exec_observe, observe_of_fresh hwf hfresh]

/-! ## Who writes the snapshot (R45, R182) -/

theorem raise_snap (id : Nat) (s : State) : (raise id s).snap = s.snap := by
  unfold raise
  split
  · rfl
  · rw [raiseVector_eq]

theorem dispatchPending_snap (s : State) : (dispatchPending s).snap = s.snap := by
  rcases dispatchPending_cases s with ⟨he, -⟩ | ⟨-, -, w, -, -, he⟩ <;> rw [he]
  exact takeInterrupt_snap w s

theorem returnFromInterrupt_snap (s : State) : (returnFromInterrupt s).snap = s.snap := by
  rcases returnFromInterrupt_cases s with ⟨he, -⟩ | ⟨u, -, he⟩ <;> rw [he]

theorem registerDisplay_snap (rs en : Nat) (d : List Nat) (rows cols : Nat) (mode : Addressing) (s : State) :
    (registerDisplay rs en d rows cols mode s).snap = s.snap := by
  rcases registerDisplay_cases rs en d rows cols mode s with ⟨-, he⟩ | ⟨-, he⟩ <;> rw [he]
  · exact State.addDevice_snap s _
  · exact State.warn_snap s _

theorem registerServo_snap (pin speed deadband maxTorque load arm period initAngle : Nat) (s : State) :
    (registerServo pin speed deadband maxTorque load arm period initAngle s).snap = s.snap := by
  simp only [registerServo]
  split
  · rw [State.addDevice_snap]
    split <;> rfl
  · exact State.warn_snap s _

/-- Only OBSERVE, RESET and STEP write the snapshot. -/
theorem exec_snap {i : Instr} {s t : State} (he : exec i s = .next t) (hobserve : i ≠ .observe)
    (hreset : i ≠ .reset) (hstep : ∀ n, i ≠ .step n) : t.snap = s.snap := by
  have keep {u : State} (hu : u.snap = s.snap) (hx : exec i s = .next u) : t.snap = s.snap :=
    Host.Outcome.next.inj (hx.symm.trans he) ▸ hu
  cases i with
  | reset => exact absurd rfl hreset
  | step n => exact absurd rfl (hstep n)
  | memwrite a b =>
    obtain ⟨-, rfl⟩ := exec_memwrite_next he
    rfl
  | motion => exact keep (motion_step s).only.snap (exec_motion s)
  | tick x n => exact keep (tick_step x n s).snap (exec_tick s x n)
  | raise id => exact keep (raise_snap id s) (exec_raise s id)
  | setgie b => exact keep (u := setGie b s) rfl (exec_setgie s b)
  | dispatch => exact keep (dispatchPending_snap s) (exec_dispatch s)
  | reti => exact keep (returnFromInterrupt_snap s) (exec_reti s)
  | observe => exact absurd rfl hobserve
  | pinchange pin level ts => exact keep (pinChange_step pin level s).only.snap (exec_pinchange s pin level ts)
  | regchange a old new => exact keep (regChange_step a s).only.snap (exec_regchange s a old new)
  | regdisplay rs en d rows cols mode =>
    exact keep (registerDisplay_snap rs en d rows cols mode s) (exec_regdisplay s rs en d rows cols mode)
  | regservo pin speed deadband maxTorque load arm period initAngle =>
    exact keep (registerServo_snap pin speed deadband maxTorque load arm period initAngle s)
      (exec_regservo s pin speed deadband maxTorque load arm period initAngle)
  | unreg k => exact keep (State.removeDevice_snap s k) (exec_unreg s k)
  | setload k load arm => exact keep (setLoad_onlyDevices k load arm s).snap (exec_setload s k load arm)
  | timetick n => exact keep (u := timeTick n s) rfl (exec_timetick s n)
  | nowus => exact keep (State.emit_snap s _) (exec_nowus s)
  | nowms => exact keep (State.emit_snap s _) (exec_nowms s)
  | lcdUnknown k => exact keep (warnOnDisplay_step k _ s).only.snap (exec_lcdUnknown s k)
  | lcdClear k => exact keep (onDisplay_step k clearDisplay_config s).only.snap (exec_lcdClear s k)
  | lcdHome k x => exact keep (onDisplay_step k clearDisplay_config s).only.snap (exec_lcdHome s k x)
  | lcdEntryModeSet k inc shift => exact keep rfl (exec_lcdEntryModeSet s k inc shift)
  | lcdDisplayControl k d c b =>
    exact keep (onDisplay_step k (controlDisplay_config d c b) s).only.snap (exec_lcdDisplayControl s k d c b)
  | lcdCursorDisplayShift k sc rl x => exact keep rfl (exec_lcdCursorDisplayShift s k sc rl x)
  | lcdFunctionSet k dl n f x => exact keep rfl (exec_lcdFunctionSet s k dl n f x)
  | lcdSetCgramAddress k a => exact keep rfl (exec_lcdSetCgramAddress s k a)
  | lcdSetDdramAddress k a =>
    exact keep (setDdramAddress_step k a.toNat s).only.snap (exec_lcdSetDdramAddress s k a)
  | lcdWriteData k c => exact keep (onDisplay_step k (writeChar_config c) s).only.snap (exec_lcdWriteData s k c)

/-- A write of a byte and the write of its old value leave the state as it was. -/
theorem runInstrs_memwrite_undo {s : State} (h : s.mem.wf = true) {a : Nat} (ha : a < s.cfg.regMemSize) (v : Byte) :
    runInstrs [.memwrite a v, .memwrite a (s.mem.read a)] s = .next s := by
  have hback : exec (.memwrite a (s.mem.read a)) { s with mem := s.mem.write a v } = .next s := by
    rw [exec_memwrite { s with mem := s.mem.write a v } a _ ha, Memory.write_undo h]
  rw [runInstrs, exec_memwrite s a v ha, andThen, runInstrs, hback]
  rfl

/-- Settles O32: the refresh is the copy of the observed bytes, and a write undone leaves no trace to observe. -/
theorem observeRefreshesSnapshot : Obligations.ObserveRefreshesSnapshot :=
  ⟨fun s hw => ⟨observe s, exec_observe s, fun _ ha => observe_snapshot hw ha⟩,
    fun _ _ _ he hobserve hreset hstep => exec_snap he hobserve hreset hstep,
    fun _ _ v hw ha => runInstrs_append_next (runInstrs_memwrite_undo hw ha v) [.observe]⟩

end Sys2Proof.Machine
end

section
/-! PROOFS. The display decoder (43_display_decoder.md, R200 to R221): what each byte makes of its display, the falling
edge as the decoded bytes of the displays on its line, one after another, and each display's share of it. -/

namespace Sys2Proof.Machine

/-! ## What a byte makes of its display (R206 to R216) -/

/-- SET_DDRAM_ADDRESS on a display (R216): an address that names no position leaves it as it is. -/
def addressDisplay (a : Nat) (D : DisplayState) : DisplayState :=
  ((addrToPos D.rows D.cols a).map fun pos => moveCursor pos D).getD D

/-- What a byte of meaning `op` makes of its display (R205). -/
def byteEffect : DisplayOp → DisplayState → DisplayState
  | .unknown | .entryModeSet _ _ | .cursorDisplayShift _ _ _ | .functionSet _ _ _ _ | .setCgramAddress _ => id
  | .clear | .home _ => clearDisplay
  | .displayControl d c b => controlDisplay d c b
  | .setDdramAddress a => addressDisplay a.toNat
  | .writeData c => writeChar c

/-- What a falling edge makes of a display on its line, by the levels in register memory (R202 to R204). -/
def latchEffect (c : Config) (m : Memory) (D : DisplayState) : DisplayState :=
  let rs := pinLevel c m D.rsPin
  let v := lineValue c m D.dataPins
  match D.bitMode, D.expectingHighNibble with
  | .eight, _ => byteEffect (decodeDisplayByte rs (BitVec.ofNat 8 v)) D
  | .four, true => { D with pendingNibble := BitVec.ofNat 4 v, expectingHighNibble := false }
  | .four, false =>
    byteEffect (decodeDisplayByte rs (D.pendingNibble ++ BitVec.ofNat 4 v)) { D with expectingHighNibble := true }

/-- The two displays have the same nibble assembly (R203). -/
def SameAssembly (D D' : DisplayState) : Prop :=
  D'.pendingNibble = D.pendingNibble ∧ D'.expectingHighNibble = D.expectingHighNibble

theorem SameAssembly.refl (D : DisplayState) : SameAssembly D D := ⟨rfl, rfl⟩

theorem advanceCursor_of_inside {D : DisplayState} (h : D.cursor.col + 1 < D.cols) :
    advanceCursor D = moveCursor ⟨D.cursor.row, D.cursor.col + 1⟩ D := if_pos h

theorem advanceCursor_of_wrap {D : DisplayState} (h : ¬D.cursor.col + 1 < D.cols) (hw : D.addressing = .wrap) :
    advanceCursor D = moveCursor ⟨(D.cursor.row + 1) % D.rows, 0⟩ D := by
  simp only [advanceCursor, if_neg h, hw, moveCursor]

theorem advanceCursor_of_clamp {D : DisplayState} (h : ¬D.cursor.col + 1 < D.cols) (hc : D.addressing = .clamp) :
    advanceCursor D = D := by
  simp only [advanceCursor, if_neg h, hc]

/-- The advance moves the cursor and nothing else (R207). -/
theorem advanceCursor_eq_moveCursor (D : DisplayState) : advanceCursor D = moveCursor (advanceCursor D).cursor D := by
  by_cases h : D.cursor.col + 1 < D.cols
  · rw [advanceCursor_of_inside h]
    rfl
  · cases ha : D.addressing with
    | wrap =>
      rw [advanceCursor_of_wrap h ha]
      rfl
    | clamp =>
      rw [advanceCursor_of_clamp h ha]
      rfl

theorem writeChar_buffer (b : Byte) (D : DisplayState) : (writeChar b D).buffer = writeCell D.buffer D.cursor b :=
  congrArg DisplayState.buffer (advanceCursor_eq_moveCursor _)

/-- Where the cursor goes does not depend on what was written. -/
theorem writeChar_cursor (b : Byte) (D : DisplayState) : (writeChar b D).cursor = (advanceCursor D).cursor := by
  simp only [writeChar, advanceCursor]
  split
  · rfl
  · split <;> rfl

/-- A data byte changes the buffer and the cursor and nothing else (R206). -/
theorem writeChar_frame (b : Byte) (D : DisplayState) :
    writeChar b D = { D with buffer := (writeChar b D).buffer, cursor := (writeChar b D).cursor } := by
  rw [writeChar_buffer]
  exact advanceCursor_eq_moveCursor _

theorem writeChar_assembly (b : Byte) (D : DisplayState) : SameAssembly D (writeChar b D) := by
  rw [writeChar_frame]
  exact .refl D

theorem addressDisplay_assembly (a : Nat) (D : DisplayState) : SameAssembly D (addressDisplay a D) := by
  unfold addressDisplay
  cases addrToPos D.rows D.cols a with
  | none => exact .refl D
  | some pos => exact .refl D

/-- No byte touches the nibble assembly. -/
theorem byteEffect_assembly (op : DisplayOp) (D : DisplayState) : SameAssembly D (byteEffect op D) := by
  cases op with
  | setDdramAddress a => exact addressDisplay_assembly a.toNat D
  | writeData c => exact writeChar_assembly c D
  | _ => exact .refl D

/-! ## The display record after a byte (R205) -/

theorem State.display?_eq_of_device? {s t : State} {h : Nat} (hd : t.device? h = s.device? h) :
    t.display? h = s.display? h := by
  simp only [State.display?, hd]

theorem onDisplay_display? (h : Nat) (f : DisplayState → DisplayState) (s : State) :
    (onDisplay h f s).display? h = (s.display? h).map f := by
  cases hD : s.display? h with
  | none => rw [onDisplay_none hD, hD, Option.map_none]
  | some D =>
    have hset : (s.setDevice h (.display (f D))).display? h = some (f D) := by
      rw [State.display?_setDisplay hD, if_pos rfl]
    rw [onDisplay_some hD]
    split
    · exact hset
    · exact hset

theorem warnOnDisplay_display? (h : Nat) (w : Warning) (s : State) :
    (warnOnDisplay h w s).display? h = s.display? h :=
  State.display?_eq_of_device? (warnOnDisplay_device? s h h w)

theorem warnOnDisplay_none {s : State} {h : Nat} (hn : s.display? h = none) (w : Warning) :
    warnOnDisplay h w s = s := by
  simp only [warnOnDisplay, hn]

theorem warnOnDisplay_some {s : State} {h : Nat} {D : DisplayState} (hD : s.display? h = some D) (w : Warning) :
    warnOnDisplay h w s = s.warn w := by
  simp only [warnOnDisplay, hD]

theorem setDdramAddress_absent {s : State} {h : Nat} (hn : s.display? h = none) (a : Nat) :
    setDdramAddress h a s = s := by
  simp only [setDdramAddress, hn]

/-- An address that names no position only warns (R216). -/
theorem setDdramAddress_of_none {s : State} {h a : Nat} {D : DisplayState} (hD : s.display? h = some D)
    (ha : addrToPos D.rows D.cols a = none) : setDdramAddress h a s = s.warn (.lcdBadAddress h a) := by
  simp only [setDdramAddress, hD, ha, warnOnDisplay_some hD]

theorem setDdramAddress_of_some {s : State} {h a : Nat} {D : DisplayState} {pos : Cursor} (hD : s.display? h = some D)
    (ha : addrToPos D.rows D.cols a = some pos) : setDdramAddress h a s = onDisplay h (moveCursor pos) s := by
  simp only [setDdramAddress, hD, ha]

theorem setDdramAddress_display? (h a : Nat) (s : State) :
    (setDdramAddress h a s).display? h = (s.display? h).map (addressDisplay a) := by
  cases hD : s.display? h with
  | none => rw [setDdramAddress_absent hD, hD, Option.map_none]
  | some D =>
    rw [Option.map_some, addressDisplay]
    cases ha : addrToPos D.rows D.cols a with
    | none =>
      rw [setDdramAddress_of_none hD ha]
      exact hD
    | some pos =>
      rw [setDdramAddress_of_some hD ha, onDisplay_display?, hD]
      rfl

theorem dispatchByte_display? (h : Nat) (rs : Bool) (b : Byte) (s : State) :
    (dispatchByte h rs b s).display? h = (s.display? h).map (byteEffect (decodeDisplayByte rs b)) := by
  unfold dispatchByte
  cases decodeDisplayByte rs b with
  | clear | home | displayControl | writeData => exact onDisplay_display? h _ s
  | setDdramAddress a => exact setDdramAddress_display? h a.toNat s
  | unknown => exact (warnOnDisplay_display? h _ s).trans Option.map_id_apply.symm
  | entryModeSet | cursorDisplayShift | functionSet | setCgramAddress => exact Option.map_id_apply.symm

theorem dispatchByte_absent {s : State} {h : Nat} (hn : s.display? h = none) (rs : Bool) (b : Byte) :
    dispatchByte h rs b s = s := by
  unfold dispatchByte
  cases decodeDisplayByte rs b with
  | clear | home | displayControl | writeData => exact onDisplay_none hn _
  | setDdramAddress a => exact setDdramAddress_absent hn a.toNat
  | unknown => exact warnOnDisplay_none hn _
  | entryModeSet | cursorDisplayShift | functionSet | setCgramAddress => rfl

/-- Every byte of a display has an encoding: no operand of it can be out of range. -/
theorem wellFormed_of_lines {i : Instr} {h : Nat} {rs : Bool} (hi : i.source = .lines h rs) (c : Config) :
    i.WellFormed c := by
  cases i with
  | lcdUnknown | lcdClear | lcdHome | lcdEntryModeSet | lcdDisplayControl | lcdCursorDisplayShift | lcdFunctionSet
  | lcdSetCgramAddress | lcdSetDdramAddress | lcdWriteData => rfl
  | _ => exact absurd hi (by simp [Instr.source])

/-- An instruction of a display's data lines is the dispatch of the byte that encodes it. -/
theorem exec_of_lines {i : Instr} {h : Nat} {rs : Bool} (hi : i.source = .lines h rs) :
    ∃ b, ∀ s, exec i s = .next (dispatchByte h rs b s) := by
  have hdecode := decodeOfEncode config i [] (wellFormed_of_lines hi config)
  rw [hi, List.append_nil] at hdecode
  cases hbytes : encode i with
  | nil => simp [hbytes, decodeFrom] at hdecode
  | cons b bs =>
    simp only [hbytes, decodeFrom, Decoded.instr.injEq] at hdecode
    obtain ⟨rfl, -⟩ := hdecode
    exact ⟨b, exec_displayOp h rs b⟩

/-- Settles O43: such an instruction is the dispatch of a byte, whose effect on the display keeps the assembly. -/
theorem displayBytesFrame : Obligations.DisplayBytesFrame := by
  intro i h rs s hi
  obtain ⟨b, hexec⟩ := exec_of_lines hi
  have hstep := dispatchByte_step h rs b s
  refine ⟨_, hexec s, hstep.only, hstep.servos, hstep.grows, fun k D hk hD => ?_, fun D hD => ?_,
    fun hn => dispatchByte_absent hn rs b⟩
  · rw [State.display?_eq_of_device? (dispatchByte_other s h k rs b hk), hD]
  · obtain ⟨D', hD', hconfig⟩ := hstep.displays h D hD
    have heffect : byteEffect (decodeDisplayByte rs b) D = D' := by
      rw [dispatchByte_display?, hD, Option.map_some, Option.some.injEq] at hD'
      exact hD'
    exact ⟨D', hD', hconfig, heffect ▸ byteEffect_assembly _ D⟩

/-! ## The bytes on a registered display (R205, R208) -/

/-- A byte that updates a registered display does just that, with its notification. -/
theorem onDisplay_updated {s : State} {h : Nat} {D : DisplayState} (hD : s.display? h = some D)
    (f : DisplayState → DisplayState) : DisplayUpdated s h D (f D) (onDisplay h f s) := by
  have hdevice (k : Nat) : (s.setDevice h (.display (f D))).device? k =
      if k = h then some (.display (f D)) else s.device? k := by
    rw [State.device?_setDevice, State.display?_eq_some.mp hD, Option.map_some]
  rw [onDisplay_some hD]
  split
  · next hsame => exact ⟨.setDevice s h _, hdevice, by simp [hsame]⟩
  · next hchanged => exact ⟨(OnlyDevices.setDevice s h _).trans (.emit _ _), hdevice, by simp [hchanged]⟩

/-- Settles O37: both are the update by `clearDisplay`. -/
theorem clearAndHomeBlankDisplay : Obligations.ClearAndHomeBlankDisplay := fun h x s _ hD =>
  ⟨onDisplay h clearDisplay s, exec_lcdClear s h, exec_lcdHome s h x, onDisplay_updated hD clearDisplay⟩

/-- Settles O38: it is the update by `controlDisplay`. -/
theorem displayControlSetsFlags : Obligations.DisplayControlSetsFlags := fun h d c b s _ hD =>
  ⟨onDisplay h (controlDisplay d c b) s, exec_lcdDisplayControl s h d c b,
    onDisplay_updated hD (controlDisplay d c b)⟩

/-- Settles O39: each of the four is without effect. -/
theorem ignoredDisplayCommands : Obligations.IgnoredDisplayCommands := fun h s =>
  ⟨exec_lcdEntryModeSet s h, exec_lcdCursorDisplayShift s h, exec_lcdFunctionSet s h, exec_lcdSetCgramAddress s h⟩

/-- Settles O40: a command byte is the encoding of its meaning, and that of no meaning is 0x00. -/
theorem unknownDisplayByteWarns : Obligations.UnknownDisplayByteWarns := by
  refine ⟨fun b => ⟨fun hb => ?_, ?_⟩, fun h s D hD => ?_⟩
  · have hencode := encode_decodeDisplayCommand b 0
    rw [hb] at hencode
    exact (List.singleton_inj.mp hencode).symm
  · rintro rfl
    rfl
  · rw [exec_lcdUnknown, warnOnDisplay_some hD]
    rfl

/-! ## Addresses (R109, R216) -/

/-- The offsets of R109 for the rows that a display can have (R284). -/
theorem getD_offsets_eq_rowOffset (cols : Nat) {r : Nat} (hr : r < 4) :
    [0x00, 0x40, cols, 0x40 + cols].getD r 0 = rowOffset cols r := by
  interval_cases r <;> rfl

/-- The row's addresses hold `a` (R109). -/
def RowHolds (cols r a : Nat) : Prop := rowOffset cols r ≤ a ∧ a < rowOffset cols r + cols

theorem addrToPos_eq_some {rows cols a r : Nat} (hr : r < rows) (hin : RowHolds cols r a)
    (hleast : ∀ r' < r, ¬RowHolds cols r' a) : addrToPos rows cols a = some ⟨r, a - rowOffset cols r⟩ := by
  unfold RowHolds at hin hleast
  rw [addrToPos, Option.map_eq_some_iff]
  refine ⟨r, ?_, rfl⟩
  rw [List.find?_range_eq_some]
  exact ⟨by simpa using hin, List.mem_range.mpr hr, fun r' hr' => by
    simpa [imp_iff_not_or] using hleast r' hr'⟩

theorem addrToPos_eq_none {rows cols a : Nat} (hout : ∀ r < rows, ¬RowHolds cols r a) :
    addrToPos rows cols a = none := by
  unfold RowHolds at hout
  rw [addrToPos, Option.map_eq_none_iff, List.find?_eq_none]
  intro r hr
  simpa using hout r (List.mem_range.mp hr)

/-- Settles O41: the least row that holds the address is the row of R109's position. -/
theorem setDdramAddressMovesCursor : Obligations.SetDdramAddressMovesCursor := by
  intro h a s D hD hrows offset
  have hoffset {r : Nat} (hr : r < D.rows) : offset r = rowOffset D.cols r :=
    getD_offsets_eq_rowOffset D.cols (Nat.lt_of_lt_of_le hr hrows)
  refine ⟨fun r hr hlow hhigh hleast => ?_, fun hout => ?_⟩
  · have hpos : addrToPos D.rows D.cols a.toNat = some ⟨r, a.toNat - offset r⟩ := by
      rw [hoffset hr] at hlow hhigh ⊢
      refine addrToPos_eq_some hr ⟨hlow, hhigh⟩ fun r' hr' hin => hleast r' hr' ?_
      rwa [hoffset (hr'.trans hr)]
    rw [exec_lcdSetDdramAddress, setDdramAddress_of_some hD hpos]
    exact ⟨_, rfl, onDisplay_updated hD (moveCursor ⟨r, a.toNat - offset r⟩)⟩
  · have hnone : addrToPos D.rows D.cols a.toNat = none :=
      addrToPos_eq_none fun r hr hin => hout r hr (by rwa [hoffset hr])
    rw [exec_lcdSetDdramAddress, setDdramAddress_of_none hD hnone]
    rfl

/-! ## Data bytes (R206, R207) -/

/-- A write inside the buffer changes the cell at its position and no other (R206). -/
theorem writeCell_cell {buffer : List (List Byte)} {pos : Cursor} {row : List Byte} (hrow : buffer[pos.row]? = some row)
    (hcol : pos.col < row.length) (b : Byte) (r k : Nat) :
    ((writeCell buffer pos b)[r]?.bind fun row => row[k]?) =
      if r = pos.row ∧ k = pos.col then some b else buffer[r]?.bind fun row => row[k]? := by
  rw [writeCell]
  by_cases hr : r = pos.row
  · subst hr
    rw [List.getElem?_modify_eq, hrow]
    by_cases hk : k = pos.col
    · simp [hk, hcol]
    · simp [hk, List.getElem?_set_ne (Ne.symm hk)]
  · rw [List.getElem?_modify_ne _ _ (Ne.symm hr), if_neg fun hcell => hr hcell.1]

/-- The cursor of a display that meets its invariant stands on a cell (R220). -/
theorem DisplayInv.cursor_cell {c : Config} {D : DisplayState} (h : DisplayInv c D) :
    ∃ row, D.buffer[D.cursor.row]? = some row ∧ D.cursor.col < row.length := by
  have hrow : D.cursor.row < D.buffer.length := h.buffer_rows ▸ h.cursor_row
  exact ⟨_, List.getElem?_eq_getElem hrow, h.buffer_cols _ (List.getElem_mem hrow) ▸ h.cursor_col⟩

/-- The row after a row below `rows`: the first after the last (R207). -/
theorem succ_mod_rows {row rows : Nat} (h : row < rows) :
    (row + 1) % rows = if row + 1 = rows then 0 else row + 1 := by
  split
  · next he => rw [he, Nat.mod_self]
  · exact Nat.mod_eq_of_lt (by omega)

/-- Settles O42: the write of the cell, then each case of the advance. -/
theorem writeDataStoresAndAdvances : Obligations.WriteDataStoresAndAdvances := by
  intro h c s D hD hinv
  obtain ⟨row, hrow, hcol⟩ := hinv.cursor_cell
  refine ⟨onDisplay h (writeChar c) s, writeChar c D, exec_lcdWriteData s h c, onDisplay_updated hD (writeChar c),
    writeChar_frame c D, fun r k => ?cell, fun hinside => ?inside, fun hend hwrap => ?wrap, fun hend hclamp => ?clamp⟩
  case cell => rw [writeChar_buffer, writeCell_cell hrow hcol]
  case inside =>
    rw [writeChar_cursor, advanceCursor_of_inside hinside]
    rfl
  case wrap =>
    rw [writeChar_cursor, advanceCursor_of_wrap (Nat.not_lt_of_ge hend.ge) hwrap, ← succ_mod_rows hinv.cursor_row]
    rfl
  case clamp => rw [writeChar_cursor, advanceCursor_of_clamp (Nat.not_lt_of_ge hend.ge) hclamp]

/-! ## One edge at one display (R202 to R205) -/

/-- The latch is the run of the decoded byte, mode by mode and nibble by nibble. -/
theorem latchRuns_eq (h : Nat) (s : State) : latchRuns h s = .next (latch h s) := by
  cases hD : s.display? h with
  | none => simp only [latchRuns, latch, hD]
  | some D =>
    cases hmode : D.bitMode with
    | eight => simp only [latchRuns, latch, hD, hmode, exec_displayOp]
    | four =>
      cases hnibble : D.expectingHighNibble with
      | true => simp only [latchRuns, latch, assemble, hD, hmode, hnibble, if_true]
      | false =>
        simp only [latchRuns, latch, assemble, hD, hmode, hnibble, exec_displayOp, Bool.false_eq_true, if_false]

/-- What a latch makes of a display depends on the configuration, register memory and the display's record alone. -/
theorem latch_display? (h : Nat) (s : State) :
    (latch h s).display? h = (s.display? h).map (latchEffect s.cfg s.mem) := by
  cases hD : s.display? h with
  | none => simp only [latch, hD, Option.map_none]
  | some D =>
    rw [Option.map_some]
    cases hmode : D.bitMode with
    | eight => simp only [latch, latchEffect, hD, hmode, dispatchByte_display?, Option.map_some]
    | four =>
      simp only [latch, assemble, latchEffect, hD, hmode]
      cases hnibble : D.expectingHighNibble with
      | true => simp only [State.display?_setDisplay hD, if_true]
      | false =>
        simp only [dispatchByte_display?, State.display?_setDisplay hD, Bool.false_eq_true, if_true, if_false,
          Option.map_some]

/-! ## One edge at every display on its line (R200) -/

theorem latchRunsAll_eq (l : List Nat) (s : State) :
    latchRunsAll l s = .next (l.foldl (fun s h => latch h s) s) := by
  induction l generalizing s with
  | nil => rfl
  | cons h l ih => rw [latchRunsAll, latchRuns_eq, andThen, ih, List.foldl_cons]

theorem exec_pinchange_rising (pin ts : Nat) (s : State) : exec (.pinchange pin true ts) s = .next s := rfl

theorem exec_pinchange_falling (pin ts : Nat) (s : State) :
    exec (.pinchange pin false ts) s = latchRunsAll (displaysEnabledBy pin s) s :=
  (latchRunsAll_eq _ s).symm

theorem displaysEnabledBy_pairwise {s : State} (hs : HandlesRise s) (pin : Nat) :
    (displaysEnabledBy pin s).Pairwise (· < ·) :=
  hs.sublist (List.filter_sublist.map Prod.fst)

theorem mem_displaysEnabledBy {s : State} (hs : HandlesRise s) {pin h : Nat} :
    h ∈ displaysEnabledBy pin s ↔ ∃ D, s.display? h = some D ∧ D.enPin = pin := by
  refine (mem_handles hs (Device.enabledBy pin) h).trans ⟨?_, ?_⟩
  · rintro ⟨d, hd, henabled⟩
    cases d with
    | display D => exact ⟨D, State.display?_eq_some.mpr hd, eq_of_beq henabled⟩
    | servo V => cases henabled
  · rintro ⟨D, hD, rfl⟩
    exact ⟨.display D, State.display?_eq_some.mp hD, beq_self_eq_true D.enPin⟩

theorem pinChange_unused {s : State} (hs : HandlesRise s) {pin : Nat}
    (hpin : ∀ h D, s.display? h = some D → D.enPin ≠ pin) : pinChange pin false s = s := by
  have hnil : displaysEnabledBy pin s = [] := List.eq_nil_iff_forall_not_mem.mpr fun h hh => by
    obtain ⟨D, hD, he⟩ := (mem_displaysEnabledBy hs).mp hh
    exact hpin h D hD he
  rw [pinChange, if_neg Bool.false_ne_true, hnil, List.foldl_nil]

/-- A display on another line is not visited. -/
theorem pinChange_display?_other {s : State} (hs : HandlesRise s) {pin h : Nat} {D : DisplayState}
    (hD : s.display? h = some D) (hpin : D.enPin ≠ pin) : (pinChange pin false s).display? h = some D := by
  have hnot : h ∉ displaysEnabledBy pin s := fun hh => by
    obtain ⟨E, hE, he⟩ := (mem_displaysEnabledBy hs).mp hh
    obtain rfl : D = E := Option.some.inj (hD.symm.trans hE)
    exact hpin he
  rw [← hD]
  exact State.display?_eq_of_device? (foldl_unvisited (fun s h => latch h s) (fun s h k => latch_other s h k) hnot s)

/-- A display on the line is visited once, with the configuration, memory and record of the start: what the displays
before it did does not matter to it. -/
theorem pinChange_display? {s : State} (hs : HandlesRise s) {pin h : Nat} {D : DisplayState}
    (hD : s.display? h = some D) (hpin : D.enPin = pin) :
    (pinChange pin false s).display? h = some (latchEffect s.cfg s.mem D) := by
  have hmem : h ∈ displaysEnabledBy pin s := (mem_displaysEnabledBy hs).mpr ⟨D, hD, hpin⟩
  obtain ⟨u, hsu, hrecord, -, hlast⟩ :=
    foldl_visit DisplayStep .refl (fun _ _ _ => .trans) (fun s h => latch h s) (fun s h => latch_step h s)
      (fun s h k => latch_other s h k) (handles_nodup hs _) hmem s
  calc (pinChange pin false s).display? h
      = (latch h u).display? h := State.display?_eq_of_device? hlast
    _ = (u.display? h).map (latchEffect u.cfg u.mem) := latch_display? h u
    _ = some (latchEffect s.cfg s.mem D) := by
      rw [State.display?_eq_of_device? hrecord, hD, hsu.only.cfg, hsu.only.mem, Option.map_some]

/-! ### The nibble assembly after an edge (R203, R204) -/

theorem latchEffect_eight {D : DisplayState} (hmode : D.bitMode = .eight) (c : Config) (m : Memory) :
    SameAssembly D (latchEffect c m D) := by
  simp only [latchEffect, hmode]
  exact byteEffect_assembly _ D

theorem latchEffect_four_high {D : DisplayState} (hmode : D.bitMode = .four) (hnibble : D.expectingHighNibble = true)
    (c : Config) (m : Memory) :
    latchEffect c m D =
      { D with pendingNibble := BitVec.ofNat 4 (lineValue c m D.dataPins), expectingHighNibble := false } := by
  simp only [latchEffect, hmode, hnibble]

theorem latchEffect_four_low {D : DisplayState} (hmode : D.bitMode = .four) (hnibble : D.expectingHighNibble = false)
    (c : Config) (m : Memory) : SameAssembly { D with expectingHighNibble := true } (latchEffect c m D) := by
  simp only [latchEffect, hmode, hnibble]
  exact byteEffect_assembly _ _

/-- Settles O36: each display on the line takes the effect of a latch, and no other is visited. -/
theorem fallingEdgeLatchesDisplays : Obligations.FallingEdgeLatchesDisplays := by
  refine ⟨exec_pinchange_rising, fun pin ts s hs => ?_⟩
  have hstep := pinChange_step pin false s
  refine ⟨_, exec_pinchange s pin false ts, pinChange_unused hs, hstep.only, hstep.servos, hstep.grows,
    fun h D hD => ?_⟩
  obtain ⟨D', hD', hconfig⟩ := hstep.displays h D hD
  have heffect (hpin : D.enPin = pin) : D' = latchEffect s.cfg s.mem D :=
    Option.some.inj (hD'.symm.trans (pinChange_display? hs hD hpin))
  refine ⟨D', hD', hconfig, fun hpin => ?other, fun hpin hmode hnibble => ?high, fun hpin hmode hnibble => ?low,
    fun hpin hmode => ?eight⟩
  case other => exact Option.some.inj (hD'.symm.trans (pinChange_display?_other hs hD hpin))
  case high => rw [heffect hpin, latchEffect_four_high hmode hnibble]
  case low => exact (heffect hpin ▸ latchEffect_four_low hmode hnibble s.cfg s.mem).symm
  case eight => exact (heffect hpin ▸ latchEffect_eight hmode s.cfg s.mem).symm

/-- Settles O12: the edge is the run of the decoded bytes, and a display's record after it is the one its own latch
gives. -/
theorem latchRunsDecodedByte : Obligations.LatchRunsDecodedByte := by
  refine ⟨fun s pin ts h D hone hD => ?single, fun s pin ts hs => ?several⟩
  case single =>
    have hedge : exec (.pinchange pin false ts) s = latchRuns h s := by
      rw [exec_pinchange_falling, hone, latchRunsAll_eq, latchRuns_eq]
      rfl
    rw [hedge]
    refine ⟨fun hmode => ?_, fun hmode hnibble => ?_, fun hmode hnibble => ?_⟩
    · simp only [latchRuns, hD, hmode]
    · simp only [latchRuns, hD, hmode, hnibble]
    · simp only [latchRuns, hD, hmode, hnibble]
  case several =>
    refine ⟨displaysEnabledBy_pairwise hs pin, fun h => mem_displaysEnabledBy hs, exec_pinchange_falling pin ts s,
      pinChange pin false s, exec_pinchange s pin false ts, fun h D hD hpin => ⟨latch h s, latchRuns_eq h s, ?_⟩⟩
    rw [pinChange_display? hs hD hpin, latch_display?, hD, Option.map_some]

end Sys2Proof.Machine
end

section
/-! PROOFS. The servo engine (44_servo_engine.md, R240 to R257). Each of its two operations is a loop that visits a
servo once: what it makes of one record and what it emits for it are read from the state at the start, and the loop's
output is the events of the servos in registry order. -/

namespace Sys2Proof.Machine

/-! ## What a loop over servos emits (R240, R250) -/

/-- The events that `f` gives for the servo of a handle; none for a handle that names no servo. -/
def eventsAt (f : Nat → ServoState → List Event) (s : State) (h : Nat) : List Event := (s.servo? h).elim [] (f h)

/-- The events that `f` gives for an entry of the registry; none for a display. -/
def entryEvents (f : Nat → ServoState → List Event) : Nat × Device → List Event
  | (_, .display _) => []
  | (h, .servo V) => f h V

theorem eventsAt_of_servo {s : State} {h : Nat} {V : ServoState} (hV : s.servo? h = some V)
    (f : Nat → ServoState → List Event) : eventsAt f s h = f h V := by rw [eventsAt, hV, Option.elim]

theorem eventsAt_of_none {s : State} {h : Nat} (hn : s.servo? h = none) (f : Nat → ServoState → List Event) :
    eventsAt f s h = [] := by rw [eventsAt, hn, Option.elim]

theorem servoEvents_eq (f : Nat → ServoState → List Event) (s : State) :
    servoEvents f s = s.devs.entries.flatMap (entryEvents f) := by
  refine List.flatMap_congr fun e _ => ?_
  obtain ⟨h, d⟩ := e
  cases d <;> rfl

theorem State.servo?_eq_of_device? {s t : State} {h : Nat} (hd : t.device? h = s.device? h) :
    t.servo? h = s.servo? h := by
  simp only [State.servo?, hd]

/-- In a registry whose handles rise, an entry's events are those of its handle. -/
theorem entryEvents_eq_eventsAt {s : State} (hs : HandlesRise s) {e : Nat × Device} (he : e ∈ s.devs.entries)
    (f : Nat → ServoState → List Event) : entryEvents f e = eventsAt f s e.1 := by
  obtain ⟨h, d⟩ := e
  have hd : s.device? h = some d := lookupDevice_of_mem hs he
  cases d with
  | display D => rw [eventsAt_of_none (by simp only [State.servo?, hd]), entryEvents]
  | servo V => rw [eventsAt_of_servo (State.servo?_eq_some.mpr hd), entryEvents]

/-- A loop over the handles that a test selects has all the events, if the servos left out have none. -/
theorem flatMap_eventsAt {s : State} (hs : HandlesRise s) (p : Device → Bool) {f : Nat → ServoState → List Event}
    (hp : ∀ h V, p (.servo V) = false → f h V = []) :
    ((s.devs.entries.filter fun e => p e.2).map Prod.fst).flatMap (eventsAt f s) = servoEvents f s := by
  have hout (e : Nat × Device) (he : ¬p e.2 = true) : entryEvents f e = [] := by
    obtain ⟨h, d⟩ := e
    cases d with
    | display D => rfl
    | servo V => exact hp h V (Bool.eq_false_of_not_eq_true he)
  calc ((s.devs.entries.filter fun e => p e.2).map Prod.fst).flatMap (eventsAt f s)
      = (s.devs.entries.filter fun e => p e.2).flatMap (entryEvents f) := by
        rw [List.flatMap_map]
        exact List.flatMap_congr fun e he => (entryEvents_eq_eventsAt hs (List.mem_of_mem_filter he) f).symm
    _ = servoEvents f s := by
        rw [servoEvents_eq]
        induction s.devs.entries with
        | nil => rfl
        | cons e es ih => by_cases he : p e.2 <;> simp [he, ih, hout]

theorem mem_servoEvents {s : State} (hs : HandlesRise s) {f : Nat → ServoState → List Event} {e : Event} :
    e ∈ servoEvents f s ↔ ∃ h V, s.servo? h = some V ∧ e ∈ f h V := by
  rw [servoEvents_eq, List.mem_flatMap]
  constructor
  · rintro ⟨⟨h, d⟩, hm, he⟩
    cases d with
    | display D => exact absurd he List.not_mem_nil
    | servo V => exact ⟨h, V, State.servo?_eq_some.mpr (lookupDevice_of_mem hs hm), he⟩
  · rintro ⟨h, V, hV, he⟩
    exact ⟨(h, .servo V), mem_of_lookupDevice (State.servo?_eq_some.mp hV), he⟩

/-- What the rounds of a loop emit, each for a device that it finds as it was at the start, the loop emits. -/
theorem foldl_out (f : State → Nat → State) (ev : Nat → List Event) (honly : ∀ u h, OnlyDevices u (f u h))
    (hother : ∀ u h k, k ≠ h → (f u h).device? k = u.device? k) {s : State} {l : List Nat}
    (hout : ∀ u, ∀ h ∈ l, OnlyDevices s u → u.device? h = s.device? h → (f u h).out = u.out ++ ev h) (hl : l.Nodup) :
    (l.foldl f s).out = s.out ++ l.flatMap ev := by
  induction l using List.reverseRecOn with
  | nil => exact (List.append_nil _).symm
  | append_singleton l h ih =>
    obtain ⟨hnd, -, hnot⟩ := List.nodup_append.mp hl
    have hh : h ∉ l := fun hm => hnot h hm h (List.mem_singleton_self h) rfl
    have hbefore : OnlyDevices s (l.foldl f s) := foldl_relates OnlyDevices .refl (fun _ _ _ => .trans) f honly l s
    rw [List.foldl_append, List.foldl_cons, List.foldl_nil,
      hout _ h (List.mem_append_right l (List.mem_singleton_self h)) hbefore (foldl_unvisited f hother hh s),
      ih (fun u k hk => hout u k (List.mem_append_left [h] hk)) hnd, List.flatMap_append, List.flatMap_singleton,
      List.append_assoc]

/-- What the rounds of a loop make of a servo's record, each from a state with the parts other than devices and output as
they were at the start, the loop makes of the record of a servo that it visits. -/
theorem foldl_servo? (f : State → Nat → State) (honly : ∀ u h, OnlyDevices u (f u h))
    (hother : ∀ u h k, k ≠ h → (f u h).device? k = u.device? k) {s : State} {l : List Nat} (hl : l.Nodup) {h : Nat}
    (hh : h ∈ l) (update : ServoState → ServoState)
    (hupdate : ∀ u, OnlyDevices s u → (f u h).servo? h = (u.servo? h).map update) :
    (l.foldl f s).servo? h = (s.servo? h).map update := by
  obtain ⟨u, hsu, hrecord, -, hlast⟩ :=
    foldl_visit OnlyDevices .refl (fun _ _ _ => .trans) f honly hother hl hh s
  rw [State.servo?_eq_of_device? hlast, hupdate u hsu, State.servo?_eq_of_device? hrecord]

theorem newEvents_of_out {s t : State} {es : List Event} (h : t.out = s.out ++ es) : newEvents s t = es := by
  rw [newEvents, h, List.drop_left]

/-! ## One servo's motion update (R250 to R254) -/

theorem stalled_iff {V : ServoState} : stalled V = true ↔ Stalls V := by
  simp only [stalled, Bool.and_eq_true, decide_eq_true_eq]

theorem stalled_eq_false_iff {V : ServoState} : stalled V = false ↔ ¬Stalls V := by
  rw [← Bool.not_eq_true, stalled_iff]

/-- The servo is at its target or within the deadband of it (R253). -/
theorem atTarget_iff {V : ServoState} :
    atTarget V = true ↔ V.currentAngle = V.targetAngle ∨ |V.targetAngle - V.currentAngle| < V.deadbandDeg := by
  rw [atTarget, Bool.or_eq_true, decide_eq_true_eq, decide_eq_true_eq, angleError, sub_eq_zero, eq_comm]

theorem holdsStill_eq_false_iff {V : ServoState} : holdsStill V = false ↔ Moves V := by
  rw [holdsStill, Bool.or_eq_false_iff, ← Bool.not_eq_true, ← Bool.not_eq_true, stalled_iff, atTarget_iff, not_or,
    not_lt, eq_comm (a := V.currentAngle)]

theorem holdsStill_of_not_moves {V : ServoState} (h : ¬Moves V) : holdsStill V = true :=
  Bool.eq_true_of_not_eq_false fun hf => h (holdsStill_eq_false_iff.mp hf)

theorem clampTo_eq_max_min {lo hi : ℚ} (h : lo ≤ hi) (x : ℚ) : clampTo x lo hi = max lo (min hi x) := by
  rw [clampTo, min_max_distrib_right, min_eq_left h, max_comm, min_comm]

theorem signOf_of_pos {x : ℚ} (h : 0 < x) : signOf x = 1 := if_pos h

theorem signOf_of_neg {x : ℚ} (h : x < 0) : signOf x = -1 := by rw [signOf, if_neg h.le.not_gt, if_pos h]

theorem motionAngle_eq_nextAngle {V : ServoState} (h : Moves V) (now : Nat) : motionAngle now V = nextAngle now V := by
  obtain ⟨-, hne, -⟩ := h
  rw [motionAngle, movedAngle, nextAngle, clampTo_eq_max_min (by norm_num), angleError]
  rcases lt_or_gt_of_ne (sub_ne_zero.mpr hne) with hneg | hpos
  · rw [signOf_of_neg hneg, if_neg hneg.le.not_gt, neg_one_mul]
  · rw [signOf_of_pos hpos, if_pos hpos, one_mul]

theorem notifiesMove_iff {c : Config} {V : ServoState} {angle : ℚ} :
    notifiesMove c V angle = true ↔
      angle ≠ V.currentAngle ∧ (c.notifyThresholdDeg ≤ |angle - V.lastNotifiedAngle| ∨ angle = V.targetAngle) := by
  simp only [notifiesMove, Bool.and_eq_true, Bool.or_eq_true, decide_eq_true_eq]

theorem motionNotifies_iff {c : Config} {now : Nat} {V : ServoState} :
    motionNotifies c now V = true ↔ Moves V ∧ Notifies c now V := by
  rw [motionNotifies, Bool.and_eq_true, Bool.not_eq_true', holdsStill_eq_false_iff, notifiesMove_iff]
  refine and_congr_right fun hm => ?_
  rw [motionAngle_eq_nextAngle hm]

/-- A servo that does not move: its time and its stall state are updated (R251, R252). -/
theorem motionUpdate_of_still {V : ServoState} (h : ¬Moves V) (c : Config) (now : Nat) :
    motionUpdate c now V = { V with lastUpdateTimestamp := now, isStalled := stalled V } := by
  simp [motionUpdate, motionNotifies, holdsStill_of_not_moves h]

theorem motionUpdate_of_notifies {V : ServoState} {c : Config} {now : Nat} (h : Moves V) (hn : Notifies c now V) :
    motionUpdate c now V =
      { V with
        lastUpdateTimestamp := now, isStalled := false, currentAngle := nextAngle now V,
        lastNotifiedAngle := nextAngle now V } := by
  simp [motionUpdate, motionNotifies_iff.mpr ⟨h, hn⟩, holdsStill_eq_false_iff.mpr h, stalled_eq_false_iff.mpr h.1,
    motionAngle_eq_nextAngle h]

theorem motionUpdate_of_silent {V : ServoState} {c : Config} {now : Nat} (h : Moves V) (hn : ¬Notifies c now V) :
    motionUpdate c now V =
      { V with lastUpdateTimestamp := now, isStalled := false, currentAngle := nextAngle now V } := by
  have hsilent : motionNotifies c now V = false :=
    Bool.eq_false_of_not_eq_true fun ht => hn (motionNotifies_iff.mp ht).2
  simp [motionUpdate, hsilent, holdsStill_eq_false_iff.mpr h,
    stalled_eq_false_iff.mpr h.1, motionAngle_eq_nextAngle h]

/-! ## MOTION on every servo (R250) -/

theorem motionServo_servo? (now h : Nat) (s : State) :
    (motionServo now h s).servo? h = (s.servo? h).map (motionUpdate s.cfg now) := by
  cases hV : s.servo? h with
  | none => simp only [motionServo, hV, Option.map_none]
  | some V =>
    have hset : (s.setDevice h (.servo (motionUpdate s.cfg now V))).servo? h = some (motionUpdate s.cfg now V) := by
      rw [State.servo?_setServo hV, if_pos rfl]
    simp only [motionServo, hV, Option.map_some]
    split
    · exact hset
    · exact hset

/-- What the update of a servo emits, as the model computes it (R254). -/
def moveNotification (c : Config) (now h : Nat) (V : ServoState) : List Event :=
  if motionNotifies c now V then [.notifyServo h (motionAngle now V)] else []

theorem motionServo_out (now h : Nat) (s : State) :
    (motionServo now h s).out = s.out ++ eventsAt (moveNotification s.cfg now) s h := by
  cases hV : s.servo? h with
  | none => simp only [motionServo, hV, eventsAt_of_none hV, List.append_nil]
  | some V =>
    simp only [motionServo, hV, eventsAt_of_servo hV, moveNotification]
    split
    · rfl
    · exact (List.append_nil _).symm

theorem moveNotification_eq_motionEvents (s : State) : moveNotification s.cfg s.nowMicros = motionEvents s := by
  funext h V
  by_cases hn : Moves V ∧ Notifies s.cfg s.nowMicros V
  · rw [moveNotification, motionEvents, if_pos (motionNotifies_iff.mpr hn), if_pos hn,
      motionAngle_eq_nextAngle hn.1]
  · rw [moveNotification, motionEvents, if_neg fun ht => hn (motionNotifies_iff.mp ht), if_neg hn]

theorem mem_servoHandles {s : State} (hs : HandlesRise s) {h : Nat} {V : ServoState} (hV : s.servo? h = some V) :
    h ∈ servoHandles s :=
  (mem_handles hs Device.isServo h).mpr ⟨.servo V, State.servo?_eq_some.mp hV, rfl⟩

/-- MOTION updates each servo once, from the record, the configuration and the time of the start. -/
theorem motion_servo? {s : State} (hs : HandlesRise s) {h : Nat} {V : ServoState} (hV : s.servo? h = some V) :
    (motion s).servo? h = some (motionUpdate s.cfg s.nowMicros V) := by
  have hloop := foldl_servo? (fun u k => motionServo s.nowMicros k u)
    (fun u k => (motionServo_step s.nowMicros k u).only) (fun u k => motionServo_other s.nowMicros u k)
    (handles_nodup hs _) (mem_servoHandles hs hV) (motionUpdate s.cfg s.nowMicros)
    fun u hu => by rw [motionServo_servo?, hu.cfg]
  rwa [hV] at hloop

theorem newEvents_motion {s : State} (hs : HandlesRise s) :
    newEvents s (motion s) = servoEvents (motionEvents s) s := by
  have hout : (motion s).out = s.out ++ (servoHandles s).flatMap (eventsAt (motionEvents s) s) := by
    refine foldl_out (fun u k => motionServo s.nowMicros k u) _ (fun u k => (motionServo_step s.nowMicros k u).only)
      (fun u k => motionServo_other s.nowMicros u k) (fun u k _ hu hk => ?_) (handles_nodup hs _)
    rw [motionServo_out, hu.cfg, moveNotification_eq_motionEvents, eventsAt, eventsAt, State.servo?_eq_of_device? hk]
  rw [newEvents_of_out hout]
  exact flatMap_eventsAt hs Device.isServo fun h V hout => absurd hout Bool.noConfusion

/-- The only notification of a handle is that of its servo's move, if that is notified. -/
theorem notifyServo_mem_motion {s : State} (hs : HandlesRise s) {h : Nat} {V : ServoState} (hV : s.servo? h = some V)
    {x : ℚ} : Event.notifyServo h x ∈ newEvents s (motion s) ↔
      (Moves V ∧ Notifies s.cfg s.nowMicros V) ∧ x = nextAngle s.nowMicros V := by
  rw [newEvents_motion hs, mem_servoEvents hs]
  simp only [motionEvents, List.mem_ite_nil_right, List.mem_singleton, Event.notifyServo.injEq]
  constructor
  · rintro ⟨k, W, hW, hn, rfl, rfl⟩
    obtain rfl : V = W := Option.some.inj (hV.symm.trans hW)
    exact ⟨hn, rfl⟩
  · rintro ⟨hn, rfl⟩
    exact ⟨h, V, hV, hn, rfl, rfl⟩

/-- Settles O46: the record after MOTION is the update of the record before it, whose four forms are the four cases. -/
theorem motionUpdatesEveryServo : Obligations.MotionUpdatesEveryServo := by
  intro s hs
  refine ⟨motion s, exec_motion s, newEvents_motion hs, fun h V hV => ?_⟩
  have silent (hn : ¬(Moves V ∧ Notifies s.cfg s.nowMicros V)) (x : ℚ) :
      Event.notifyServo h x ∉ newEvents s (motion s) := fun hx => hn ((notifyServo_mem_motion hs hV).mp hx).1
  have record := motion_servo? hs hV
  refine ⟨fun hstall => ?stalled, fun hstall hstill => ?still, fun hmoves hnotifies => ?notified,
    fun hmoves hnotifies => ?quiet⟩
  case stalled =>
    have hstill : ¬Moves V := fun hm => hm.1 hstall
    rw [motionUpdate_of_still hstill, stalled_iff.mpr hstall] at record
    exact ⟨record, silent fun hn => hstill hn.1⟩
  case still =>
    rw [motionUpdate_of_still hstill, stalled_eq_false_iff.mpr hstall] at record
    exact ⟨record, silent fun hn => hstill hn.1⟩
  case notified =>
    have hnotifies : Notifies s.cfg s.nowMicros V := hnotifies
    rw [motionUpdate_of_notifies hmoves hnotifies] at record
    exact ⟨record, (notifyServo_mem_motion hs hV).mpr ⟨⟨hmoves, hnotifies⟩, rfl⟩⟩
  case quiet =>
    have hnotifies : ¬Notifies s.cfg s.nowMicros V := hnotifies
    rw [motionUpdate_of_silent hmoves hnotifies] at record
    exact ⟨record, silent fun hn => hnotifies hn.2⟩

end Sys2Proof.Machine
end

section
/-! PROOFS. The motion of a servo toward its target (R255, R257): one update goes toward it and never past it, and
updates at times that grow without bound reach it, or the deadband of it. -/

namespace Sys2Proof.Machine

/-! ## One move (R253, R255) -/

/-- The angle that a servo can travel in the given microseconds (R253). -/
def maxTravel (V : ServoState) (elapsed : Nat) : ℚ := V.speedDegPerSec * (elapsed : ℚ) / 1000000

theorem movedAngle_eq (V : ServoState) (elapsed : Nat) :
    movedAngle V elapsed =
      clampTo (V.currentAngle + signOf (angleError V) * min |angleError V| (maxTravel V elapsed)) 0 180 := rfl

theorem maxTravel_zero (V : ServoState) : maxTravel V 0 = 0 := by simp [maxTravel]

theorem maxTravel_add (V : ServoState) (m n : Nat) : maxTravel V (m + n) = maxTravel V m + maxTravel V n := by
  rw [maxTravel, maxTravel, maxTravel, Nat.cast_add]
  ring

theorem maxTravel_nonneg {V : ServoState} (h : 0 ≤ V.speedDegPerSec) (n : Nat) : 0 ≤ maxTravel V n := by
  unfold maxTravel
  positivity

theorem maxTravel_mono {V : ServoState} (h : 0 ≤ V.speedDegPerSec) {m n : Nat} (hmn : m ≤ n) :
    maxTravel V m ≤ maxTravel V n := by
  obtain ⟨k, rfl⟩ := Nat.exists_eq_add_of_le hmn
  rw [maxTravel_add]
  exact le_add_of_nonneg_right (maxTravel_nonneg h k)

/-- With a speed, enough time covers any angle. -/
theorem exists_lt_maxTravel {V : ServoState} (h : 0 < V.speedDegPerSec) (angle : ℚ) : ∃ n, angle < maxTravel V n := by
  obtain ⟨n, hn⟩ := exists_nat_gt (angle * 1000000 / V.speedDegPerSec)
  rw [div_lt_iff₀ h] at hn
  exact ⟨n, by rw [maxTravel, lt_div_iff₀ (by norm_num), mul_comm V.speedDegPerSec]; exact hn⟩

theorem signOf_mul_min_of_nonneg {error travel : ℚ} (he : 0 ≤ error) (ht : 0 ≤ travel) :
    signOf error * min |error| travel = min error travel := by
  rw [abs_of_nonneg he]
  rcases he.eq_or_lt with rfl | hpos
  · rw [min_eq_left ht, mul_zero]
  · rw [signOf_of_pos hpos, one_mul]

theorem signOf_mul_min_of_nonpos {error travel : ℚ} (he : error ≤ 0) (ht : 0 ≤ travel) :
    signOf error * min |error| travel = -min (-error) travel := by
  rw [abs_of_nonpos he]
  rcases he.eq_or_lt with rfl | hneg
  · rw [neg_zero, min_eq_left ht, mul_zero, neg_zero]
  · rw [signOf_of_neg hneg, neg_one_mul]

section
variable {c : Config} {V : ServoState} (h : ServoInv c V)
include h

theorem movedAngle_of_le (hle : V.currentAngle ≤ V.targetAngle) (elapsed : Nat) :
    movedAngle V elapsed = V.currentAngle + min (V.targetAngle - V.currentAngle) (maxTravel V elapsed) := by
  have htravel := maxTravel_nonneg h.speed_nonneg elapsed
  have herror := sub_nonneg.mpr hle
  have hpart := min_le_left (V.targetAngle - V.currentAngle) (maxTravel V elapsed)
  have hnonneg := le_min herror htravel
  obtain ⟨hcurrent, -⟩ := h.current_range
  obtain ⟨-, htarget⟩ := h.target_range
  rw [movedAngle_eq, angleError, signOf_mul_min_of_nonneg herror htravel, clampTo_of_mem (by linarith) (by linarith)]

theorem movedAngle_of_ge (hge : V.targetAngle ≤ V.currentAngle) (elapsed : Nat) :
    movedAngle V elapsed = V.currentAngle - min (V.currentAngle - V.targetAngle) (maxTravel V elapsed) := by
  have htravel := maxTravel_nonneg h.speed_nonneg elapsed
  have hpart := min_le_left (V.currentAngle - V.targetAngle) (maxTravel V elapsed)
  have hnonneg := le_min (sub_nonneg.mpr hge) htravel
  obtain ⟨-, hcurrent⟩ := h.current_range
  obtain ⟨htarget, -⟩ := h.target_range
  rw [movedAngle_eq, angleError, signOf_mul_min_of_nonpos (sub_nonpos.mpr hge) htravel, neg_sub, ← sub_eq_add_neg,
    clampTo_of_mem (by linarith) (by linarith)]

/-- A move takes its travel off the error (R253). -/
theorem abs_error_movedAngle (elapsed : Nat) :
    |V.targetAngle - movedAngle V elapsed| =
      |V.targetAngle - V.currentAngle| - min |V.targetAngle - V.currentAngle| (maxTravel V elapsed) := by
  rcases le_total V.currentAngle V.targetAngle with hle | hge
  · rw [movedAngle_of_le h hle, abs_of_nonneg (sub_nonneg.mpr hle), ← sub_sub, abs_of_nonneg]
    exact sub_nonneg.mpr (min_le_left _ _)
  · rw [movedAngle_of_ge h hge, abs_sub_comm, abs_sub_comm V.targetAngle, abs_of_nonneg (sub_nonneg.mpr hge),
      sub_right_comm, abs_of_nonneg]
    exact sub_nonneg.mpr (min_le_left _ _)

theorem motionUpdate_between (now : Nat) :
    (V.currentAngle ≤ V.targetAngle →
      V.currentAngle ≤ (motionUpdate c now V).currentAngle ∧ (motionUpdate c now V).currentAngle ≤ V.targetAngle) ∧
    (V.targetAngle ≤ V.currentAngle →
      V.targetAngle ≤ (motionUpdate c now V).currentAngle ∧ (motionUpdate c now V).currentAngle ≤ V.currentAngle) := by
  simp only [motionUpdate]
  split
  · exact ⟨fun hle => ⟨le_refl _, hle⟩, fun hge => ⟨hge, le_refl _⟩⟩
  · have htravel := maxTravel_nonneg h.speed_nonneg (now - V.lastUpdateTimestamp)
    rw [motionAngle]
    refine ⟨fun hle => ?_, fun hge => ?_⟩
    · rw [movedAngle_of_le h hle]
      have hpart := min_le_left (V.targetAngle - V.currentAngle) (maxTravel V (now - V.lastUpdateTimestamp))
      have hnonneg := le_min (sub_nonneg.mpr hle) htravel
      constructor <;> linarith
    · rw [movedAngle_of_ge h hge]
      have hpart := min_le_left (V.currentAngle - V.targetAngle) (maxTravel V (now - V.lastUpdateTimestamp))
      have hnonneg := le_min (sub_nonneg.mpr hge) htravel
      constructor <;> linarith

end

/-- Settles O47: the update of a record in range stays between the angle and the target. -/
theorem motionNeverOvershoots : Obligations.MotionNeverOvershoots := by
  intro s t h V hinv hV he
  rw [exec_motion, Host.Outcome.next.injEq] at he
  subst he
  have hservo := hinv.devicesInv.servo hV
  obtain ⟨hup, hdown⟩ := motionUpdate_between hservo s.nowMicros
  obtain ⟨hlow, hhigh⟩ := (motionUpdate_inv hservo s.nowMicros).current_range
  exact ⟨_, motion_servo? hinv.devs.sorted hV, rfl, hlow, hhigh, hup, hdown⟩

/-! ## Progress over several updates (R257) -/

/-- The record `W` after updates of `V`: it is at the target or within the deadband, or the angle left is less by what
the speed covers in the time between the two updates. -/
structure Approaches (V W : ServoState) : Prop where
  change : MotionChange V W
  closer : atTarget W = true ∨
    |W.targetAngle - W.currentAngle| + maxTravel V (W.lastUpdateTimestamp - V.lastUpdateTimestamp) ≤
      |V.targetAngle - V.currentAngle|

theorem Approaches.refl (V : ServoState) : Approaches V V :=
  ⟨.refl V, .inr (by rw [Nat.sub_self, maxTravel_zero, add_zero])⟩

section
variable {V W : ServoState} (h : MotionChange V W)
include h

theorem MotionChange.targetAngle : W.targetAngle = V.targetAngle := by rw [show W = _ from h]
theorem MotionChange.deadbandDeg : W.deadbandDeg = V.deadbandDeg := by rw [show W = _ from h]
theorem MotionChange.speedDegPerSec : W.speedDegPerSec = V.speedDegPerSec := by rw [show W = _ from h]
theorem MotionChange.stalls_iff : Stalls W ↔ Stalls V := by rw [show W = _ from h]

theorem MotionChange.maxTravel (n : Nat) : maxTravel W n = Machine.maxTravel V n := by
  rw [Machine.maxTravel, Machine.maxTravel, h.speedDegPerSec]

end

theorem motionUpdate_change (c : Config) (now : Nat) (V : ServoState) : MotionChange V (motionUpdate c now V) := rfl

/-- A servo that neither stalls nor moves is at its target, and an update leaves it there (R253). -/
theorem atTarget_motionUpdate_of_still {W : ServoState} (hstall : ¬Stalls W) (hstill : ¬Moves W) (c : Config)
    (now : Nat) : atTarget (motionUpdate c now W) = true := by
  have hat : atTarget W = true := by
    have hholds := holdsStill_of_not_moves hstill
    rw [holdsStill, Bool.or_eq_true] at hholds
    exact hholds.resolve_left fun hs => hstall (stalled_iff.mp hs)
  rw [motionUpdate_of_still hstill]
  exact hat

/-- An update that moves lands on the target, or takes what the speed covers off the error. -/
theorem abs_error_motionUpdate {c : Config} {W : ServoState} (h : ServoInv c W) (hm : Moves W) (now : Nat) :
    (motionUpdate c now W).currentAngle = W.targetAngle ∨
      |W.targetAngle - (motionUpdate c now W).currentAngle| + maxTravel W (now - W.lastUpdateTimestamp) =
        |W.targetAngle - W.currentAngle| := by
  have hangle : (motionUpdate c now W).currentAngle = movedAngle W (now - W.lastUpdateTimestamp) := by
    rw [motionUpdate, holdsStill_eq_false_iff.mpr hm, if_neg Bool.false_ne_true, motionAngle]
  have herror := abs_error_movedAngle h (now - W.lastUpdateTimestamp)
  rw [hangle]
  rcases le_total |W.targetAngle - W.currentAngle| (maxTravel W (now - W.lastUpdateTimestamp)) with hle | hge
  · rw [min_eq_left hle, sub_self, abs_eq_zero, sub_eq_zero] at herror
    exact .inl herror.symm
  · rw [min_eq_right hge] at herror
    exact .inr (by rw [herror, sub_add_cancel])

theorem Approaches.motionUpdate {c : Config} {V W : ServoState} (h : Approaches V W) (hinv : ServoInv c W)
    (hstall : ¬Stalls V) (now : Nat) : Approaches V (motionUpdate c now W) := by
  obtain ⟨hchange, hcloser⟩ := h
  refine ⟨hchange.trans (motionUpdate_change c now W), ?_⟩
  by_cases hm : Moves W
  case neg => exact .inl (atTarget_motionUpdate_of_still (fun hs => hstall (hchange.stalls_iff.mp hs)) hm c now)
  rcases abs_error_motionUpdate hinv hm now with harrives | hmoves
  · exact .inl (atTarget_iff.mpr (.inl harrives))
  · have hnot : ¬atTarget W = true := fun hat => by
      have hholds := holdsStill_eq_false_iff.mpr hm
      rw [holdsStill, hat, Bool.or_true] at hholds
      exact Bool.noConfusion hholds
    have hbefore := hcloser.resolve_left hnot
    have hspeed : 0 ≤ V.speedDegPerSec := hchange.speedDegPerSec ▸ hinv.speed_nonneg
    have htime : maxTravel V (now - V.lastUpdateTimestamp) ≤
        maxTravel V (W.lastUpdateTimestamp - V.lastUpdateTimestamp) + maxTravel V (now - W.lastUpdateTimestamp) := by
      rw [← maxTravel_add]
      exact maxTravel_mono hspeed (by omega)
    rw [hchange.maxTravel] at hmoves
    refine .inr ?_
    calc |W.targetAngle - (Machine.motionUpdate c now W).currentAngle| + maxTravel V (now - V.lastUpdateTimestamp)
        ≤ |W.targetAngle - W.currentAngle| + maxTravel V (W.lastUpdateTimestamp - V.lastUpdateTimestamp) := by linarith
      _ ≤ |V.targetAngle - V.currentAngle| := hbefore

/-- Once the speed covers the whole angle in the time passed, the servo has arrived. -/
theorem Approaches.arrived {V W : ServoState} (h : Approaches V W)
    (hfar : |V.targetAngle - V.currentAngle| < maxTravel V (W.lastUpdateTimestamp - V.lastUpdateTimestamp)) :
    W.currentAngle = V.targetAngle ∨ |V.targetAngle - W.currentAngle| < V.deadbandDeg := by
  have hat : atTarget W = true := h.closer.resolve_right fun hle => by
    linarith [abs_nonneg (W.targetAngle - W.currentAngle)]
  rw [atTarget_iff, h.change.targetAngle, h.change.deadbandDeg] at hat
  exact hat

/-! ## Runs of TIMETICK and MOTION (R257, R275) -/

/-- The states of a run of motion updates, each after the given number of cycles. -/
def motionStates (cycles : Nat → Nat) (s : State) : Nat → State
  | 0 => s
  | n + 1 => motion (timeTick (cycles n) (motionStates cycles s n))

theorem runInstrs_motionRun (cycles : Nat → Nat) (s : State) (n : Nat) :
    runInstrs (motionRun ((List.range n).map cycles)) s = .next (motionStates cycles s n) := by
  induction n with
  | zero => rfl
  | succ n ih =>
    have hsplit : motionRun ((List.range (n + 1)).map cycles) =
        motionRun ((List.range n).map cycles) ++ [.timetick (cycles n), .motion] := by
      rw [motionRun, motionRun, List.range_succ, List.map_append, List.flatMap_append]
      rfl
    rw [hsplit, runInstrs_append_next ih]
    rfl

section
variable (cycles : Nat → Nat) {s : State}

theorem motionStates_cfg (n : Nat) : (motionStates cycles s n).cfg = s.cfg := by
  induction n with
  | zero => rfl
  | succ n ih => exact (motion_step _).only.cfg.trans ih

theorem motionStates_totalCycles (n : Nat) :
    (motionStates cycles s n).time.totalCycles = s.time.totalCycles + ((List.range n).map cycles).sum := by
  induction n with
  | zero => rfl
  | succ n ih =>
    rw [motionStates, (motion_step _).only.time, timeTick, ih, List.range_succ, List.map_append, List.sum_append,
      List.map_singleton, List.sum_singleton, Nat.add_assoc]

theorem motionStates_inv (h : s.Inv) (n : Nat) : (motionStates cycles s n).Inv := by
  induction n with
  | zero => exact h
  | succ n ih =>
    have hticked := timeTick_inv ih (cycles n)
    exact hticked.of_onlyDevices (motion_step _).only (motion_devicesInv hticked.devicesInv)

/-- The record after a number of updates, and the time that the last of them left in it (R251). -/
theorem motionStates_approaches (hinv : s.Inv) {h : Nat} {V : ServoState} (hV : s.servo? h = some V)
    (hstall : ¬Stalls V) (n : Nat) :
    ∃ W, (motionStates cycles s n).servo? h = some W ∧ Approaches V W ∧
      (n ≠ 0 → W.lastUpdateTimestamp = (motionStates cycles s n).nowMicros) := by
  induction n with
  | zero => exact ⟨V, hV, .refl V, fun hne => absurd rfl hne⟩
  | succ n ih =>
    obtain ⟨W, hW, happroach, -⟩ := ih
    have hticked := timeTick_inv (motionStates_inv cycles hinv n) (cycles n)
    have hW : (timeTick (cycles n) (motionStates cycles s n)).servo? h = some W := hW
    refine ⟨_, motion_servo? hticked.devs.sorted hW, happroach.motionUpdate (hticked.devicesInv.servo hW) hstall _,
      fun _ => ?_⟩
    rw [motionStates, State.nowMicros, State.nowMicros, (motion_step _).only.time, (motion_step _).only.cfg]
    rfl

/-- Enough cycles take the time past any microsecond (R276). -/
theorem le_nowMicros_motionStates (hc : s.cfg.Facts) {n bound : Nat}
    (hn : bound * s.cfg.fCpu ≤ ((List.range n).map cycles).sum) : bound ≤ (motionStates cycles s n).nowMicros := by
  rw [State.nowMicros, motionStates_cfg, motionStates_totalCycles, Nat.le_div_iff_mul_le hc.fCpu]
  omega

theorem sum_cycles_mono : Monotone fun n => ((List.range n).map cycles).sum :=
  monotone_nat_of_le_succ fun n => by
    rw [List.range_succ, List.map_append, List.sum_append]
    exact Nat.le_add_right _ _

end

/-- Settles O49: after a time in which the speed covers the whole error, every further update finds the servo
arrived. -/
theorem servoConverges : Obligations.ServoConverges := by
  intro s h V hinv hV hstall hspeed cycles hunbounded
  obtain ⟨travelTime, htravel⟩ := exists_lt_maxTravel hspeed |V.targetAngle - V.currentAngle|
  obtain ⟨N, hN⟩ := hunbounded ((V.lastUpdateTimestamp + travelTime) * s.cfg.fCpu)
  refine ⟨N + 1, fun n hn => ?_⟩
  obtain ⟨W, hW, happroach, htimestamp⟩ := motionStates_approaches cycles hinv hV hstall n
  have hcycles := hN.trans (sum_cycles_mono cycles (show N ≤ n by omega))
  have htime := le_nowMicros_motionStates cycles hinv.cfg.facts hcycles
  rw [← htimestamp (by omega)] at htime
  exact ⟨_, W, runInstrs_motionRun cycles s n, hW, happroach.change.targetAngle,
    happroach.arrived (htravel.trans_le (maxTravel_mono hspeed.le (by omega)))⟩

end Sys2Proof.Machine
end

section
/-! PROOFS. The pulse decode (R240 to R245): what it makes of a record and what it warns, read from the live registers,
and the servos that a change triggers. -/

namespace Sys2Proof.Machine

/-! ## One decode (R242) -/

/-- The timer of a channel gives no top (R242). -/
abbrev NoTop (s : State) (ch : ServoChannel) : Prop := s.countKind ch.timer = .frozen ∨ s.top ch.timer = 0

/-- The pulse width that a decode measures (R241, R242). -/
def measuredPulse (s : State) (ch : ServoChannel) (V : ServoState) : Nat :=
  pulseWidth (s.compare ch.timer ch.chan) (s.top ch.timer) V.periodMicros

/-- The record of a servo on a channel after its decode (R242 to R245). -/
def decodedOn (s : State) (ch : ServoChannel) (V : ServoState) : ServoState :=
  let measured := { V with lastPulseWidth := measuredPulse s ch V, lastPeriod := V.periodMicros }
  if NoTop s ch then { V with lastPulseValid := false }
  else if plausiblePulse s.cfg (measuredPulse s ch V) then
    { measured with lastPulseValid := true, targetAngle := angleOf s.cfg (measuredPulse s ch V) }
  else { measured with lastPulseValid := false }

/-- What the decode of servo `h` on a channel warns (R242, R244). -/
def warningsOn (s : State) (ch : ServoChannel) (h : Nat) (V : ServoState) : List Event :=
  if NoTop s ch then [.warning (.servoNoTop h (s.mode ch.timer))]
  else if plausiblePulse s.cfg (measuredPulse s ch V) then []
  else [.warning (.servoPulseRange h (measuredPulse s ch V))]

theorem decodePulse_of_noTop {s : State} {ch : ServoChannel} (hn : NoTop s ch) (h : Nat) (V : ServoState) :
    decodePulse h V ch s = rejectNoTop h V (s.mode ch.timer) s := by
  rw [decodePulse]
  split
  · rfl
  · next hfrozen => rw [if_pos (hn.resolve_left hfrozen)]

theorem decodePulse_of_top {s : State} {ch : ServoChannel} (hn : ¬NoTop s ch) (h : Nat) (V : ServoState) :
    decodePulse h V ch s = acceptPulse h V (measuredPulse s ch V) s := by
  obtain ⟨hfrozen, htop⟩ := not_or.mp hn
  rw [decodePulse, if_neg hfrozen, if_neg htop, measuredPulse]

theorem State.servo?_setServo_same {s : State} {h : Nat} {V : ServoState} (hV : s.servo? h = some V)
    (V' : ServoState) : (s.setDevice h (.servo V')).servo? h = some V' := by
  rw [State.servo?_setServo hV, if_pos rfl]

/-- A decode writes the decoded record and adds its warnings. -/
theorem decodePulse_effect {s : State} {h : Nat} {V : ServoState} (hV : s.servo? h = some V) (ch : ServoChannel) :
    (decodePulse h V ch s).servo? h = some (decodedOn s ch V) ∧
      (decodePulse h V ch s).out = s.out ++ warningsOn s ch h V := by
  have hwarned (w : Warning) : (s.warn w).servo? h = some V := hV
  rw [decodedOn, warningsOn]
  by_cases hn : NoTop s ch
  · rw [decodePulse_of_noTop hn, if_pos hn, if_pos hn]
    exact ⟨State.servo?_setServo_same (hwarned _) _, rfl⟩
  · rw [decodePulse_of_top hn, if_neg hn, if_neg hn, acceptPulse]
    split
    · exact ⟨State.servo?_setServo_same hV _, (List.append_nil _).symm⟩
    · exact ⟨State.servo?_setServo_same (hwarned _) _, rfl⟩

/-- The record of a servo after `decodeServo`: without a channel there is nothing to decode (R240). -/
def decodedServo (s : State) (V : ServoState) : ServoState := V.channel.elim V fun ch => decodedOn s ch V

/-- What `decodeServo` warns (R242). -/
def decodeWarnings (s : State) (h : Nat) (V : ServoState) : List Event :=
  V.channel.elim [] fun ch => warningsOn s ch h V

theorem decodeServo_servo? (h : Nat) (s : State) : (decodeServo h s).servo? h = (s.servo? h).map (decodedServo s) := by
  cases hV : s.servo? h with
  | none => simp only [decodeServo, hV, Option.map_none]
  | some V =>
    cases hch : V.channel with
    | none => simp only [decodeServo, hV, hch, Option.map_some, decodedServo, Option.elim]
    | some ch =>
      simp only [decodeServo, hV, hch, Option.map_some, decodedServo, Option.elim]
      exact (decodePulse_effect hV ch).1

theorem decodeServo_out (h : Nat) (s : State) :
    (decodeServo h s).out = s.out ++ eventsAt (decodeWarnings s) s h := by
  cases hV : s.servo? h with
  | none => simp only [decodeServo, hV, eventsAt_of_none hV, List.append_nil]
  | some V =>
    cases hch : V.channel with
    | none => simp only [decodeServo, hV, hch, eventsAt_of_servo hV, decodeWarnings, Option.elim, List.append_nil]
    | some ch =>
      simp only [decodeServo, hV, hch, eventsAt_of_servo hV, decodeWarnings, Option.elim]
      exact (decodePulse_effect hV ch).2

/-! ## What a decode reads (R242) -/

section
variable {s u : State} (h : OnlyDevices s u)
include h

theorem OnlyDevices.noTop_iff (ch : ServoChannel) : NoTop u ch ↔ NoTop s ch := by
  rw [NoTop, NoTop, State.countKind, State.countKind, State.top, State.top, State.mode, State.mode, h.cfg, h.mem]

theorem OnlyDevices.measuredPulse (ch : ServoChannel) : measuredPulse u ch = Machine.measuredPulse s ch := by
  funext V
  simp only [Machine.measuredPulse, State.compare, State.top, State.mode, h.cfg, h.mem]

theorem OnlyDevices.decodedServo : decodedServo u = Machine.decodedServo s := by
  funext V
  simp only [Machine.decodedServo, decodedOn, h.noTop_iff, h.measuredPulse, h.cfg]

theorem OnlyDevices.decodeWarnings : decodeWarnings u = Machine.decodeWarnings s := by
  funext k V
  simp only [Machine.decodeWarnings, warningsOn, h.noTop_iff, h.measuredPulse, State.mode, h.cfg, h.mem]

end

/-! ## The servos that a change triggers (R240) -/

/-- A change of register `a` triggers the decode of a servo on the channel. -/
abbrev Triggers (s : State) (a : Nat) (ch : ServoChannel) : Prop :=
  a = compareReg s.cfg ch.timer ch.chan ∨ topSourceAddr s.cfg ch.timer (s.mode ch.timer) = some a

theorem channelTriggeredBy_iff {s : State} {a : Nat} {ch : ServoChannel} :
    channelTriggeredBy s.cfg a s.mem ch = true ↔ Triggers s a ch := by
  rw [channelTriggeredBy, Bool.or_eq_true, beq_iff_eq, beq_iff_eq]

theorem triggeredBy_servo_iff {s : State} {a : Nat} {V : ServoState} :
    (Device.servo V).triggeredBy s.cfg a s.mem = true ↔ ∃ ch, V.channel = some ch ∧ Triggers s a ch := by
  rw [Device.triggeredBy, Option.any_eq_true]
  simp only [channelTriggeredBy_iff]

theorem mem_servosTriggeredBy {s : State} (hs : HandlesRise s) {a h : Nat} :
    h ∈ servosTriggeredBy a s ↔ ∃ V ch, s.servo? h = some V ∧ V.channel = some ch ∧ Triggers s a ch := by
  refine (mem_handles hs (Device.triggeredBy s.cfg a s.mem) h).trans ⟨?_, ?_⟩
  · rintro ⟨d, hd, htrigger⟩
    cases d with
    | display D => cases htrigger
    | servo V =>
      obtain ⟨ch, hch⟩ := triggeredBy_servo_iff.mp htrigger
      exact ⟨V, ch, State.servo?_eq_some.mpr hd, hch⟩
  · rintro ⟨V, ch, hV, hch⟩
    exact ⟨.servo V, State.servo?_eq_some.mp hV, triggeredBy_servo_iff.mpr ⟨ch, hch⟩⟩

/-! ## REGCHANGE on every servo (R240) -/

theorem regChange_untriggered {s : State} (hs : HandlesRise s) {a : Nat}
    (hnone : ∀ h V ch, s.servo? h = some V → V.channel = some ch → ¬Triggers s a ch) : regChange a s = s := by
  have hnil : servosTriggeredBy a s = [] := List.eq_nil_iff_forall_not_mem.mpr fun h hh => by
    obtain ⟨V, ch, hV, hch, htrigger⟩ := (mem_servosTriggeredBy hs).mp hh
    exact hnone h V ch hV hch htrigger
  rw [regChange, hnil, List.foldl_nil]

theorem regChange_servo?_other {s : State} (hs : HandlesRise s) {a h : Nat} {V : ServoState} (hV : s.servo? h = some V)
    (hnot : ∀ ch, V.channel = some ch → ¬Triggers s a ch) : (regChange a s).servo? h = some V := by
  have hh : h ∉ servosTriggeredBy a s := fun hm => by
    obtain ⟨W, ch, hW, hch, htrigger⟩ := (mem_servosTriggeredBy hs).mp hm
    obtain rfl : V = W := Option.some.inj (hV.symm.trans hW)
    exact hnot ch hch htrigger
  rw [← hV]
  exact State.servo?_eq_of_device? (foldl_unvisited (fun s h => decodeServo h s) decodeServo_other hh s)

/-- A triggered servo is decoded once, from its record and the registers of the start. -/
theorem regChange_servo? {s : State} (hs : HandlesRise s) {a h : Nat} {V : ServoState} {ch : ServoChannel}
    (hV : s.servo? h = some V) (hch : V.channel = some ch) (htrigger : Triggers s a ch) :
    (regChange a s).servo? h = some (decodedOn s ch V) := by
  have hloop := foldl_servo? (fun s h => decodeServo h s) (fun u k => (decodeServo_step k u).only) decodeServo_other
    (handles_nodup hs _) ((mem_servosTriggeredBy hs).mpr ⟨V, ch, hV, hch, htrigger⟩) (decodedServo s)
    fun u hu => by rw [decodeServo_servo?, hu.decodedServo]
  rwa [hV, Option.map_some, decodedServo, hch, Option.elim] at hloop

theorem plausiblePulse_iff {c : Config} {pw : Nat} :
    plausiblePulse c pw = true ↔ c.pulseMinUs ≤ pw ∧ pw ≤ c.pulseMaxUs := by
  rw [plausiblePulse, Bool.and_eq_true, decide_eq_true_eq, decide_eq_true_eq]

/-- The events of the statement are the decode's warnings, for a triggered servo. -/
theorem pulseEvents_of_triggers {s : State} {a : Nat} {V : ServoState} {ch : ServoChannel} (hch : V.channel = some ch)
    (htrigger : Triggers s a ch) (h : Nat) : pulseEvents a s h V = decodeWarnings s h V := by
  have hrange : (measuredPulse s ch V < s.cfg.pulseMinUs ∨ s.cfg.pulseMaxUs < measuredPulse s ch V) ↔
      ¬plausiblePulse s.cfg (measuredPulse s ch V) = true := by
    rw [plausiblePulse_iff]
    omega
  simp only [pulseEvents, decodeWarnings, hch, Option.elim]
  rw [if_neg fun hnot => htrigger.elim hnot.1 hnot.2, warningsOn]
  refine if_congr Iff.rfl rfl ?_
  rw [← ite_not]
  exact if_congr (hrange.not.trans not_not) rfl rfl

theorem pulseEvents_of_not_triggers {s : State} {a : Nat} {V : ServoState}
    (hnot : ∀ ch, V.channel = some ch → ¬Triggers s a ch) (h : Nat) : pulseEvents a s h V = [] := by
  cases hch : V.channel with
  | none => simp only [pulseEvents, hch]
  | some ch =>
    simp only [pulseEvents, hch]
    exact if_pos (not_or.mp (hnot ch hch))

theorem newEvents_regChange {s : State} (hs : HandlesRise s) (a : Nat) :
    newEvents s (regChange a s) = servoEvents (pulseEvents a s) s := by
  have hout : (regChange a s).out = s.out ++ (servosTriggeredBy a s).flatMap (eventsAt (pulseEvents a s) s) := by
    refine foldl_out (fun s h => decodeServo h s) _ (fun u k => (decodeServo_step k u).only) decodeServo_other
      (fun u k hk hu hrecord => ?_) (handles_nodup hs _)
    obtain ⟨V, ch, hV, hch, htrigger⟩ := (mem_servosTriggeredBy hs).mp hk
    have hVu : u.servo? k = some V := (State.servo?_eq_of_device? hrecord).trans hV
    rw [decodeServo_out, hu.decodeWarnings, eventsAt_of_servo hVu, eventsAt_of_servo hV,
      pulseEvents_of_triggers hch htrigger]
  rw [newEvents_of_out hout]
  refine flatMap_eventsAt hs (Device.triggeredBy s.cfg a s.mem) fun h V hp => ?_
  refine pulseEvents_of_not_triggers (fun ch hch htrigger => ?_) h
  rw [triggeredBy_servo_iff.mpr ⟨ch, hch, htrigger⟩] at hp
  exact Bool.noConfusion hp

/-! ## Whose warnings they are (R240, R245) -/

/-- A warning about the servo of the handle (R300). -/
def Event.warnsAbout (h : Nat) : Event → Prop
  | .warning (.servoNoTop k _) | .warning (.servoPulseRange k _) => k = h
  | _ => False

theorem servoNoTop_warnsAbout (h x : Nat) : (Event.warning (.servoNoTop h x)).warnsAbout h := rfl

theorem servoPulseRange_warnsAbout (h x : Nat) : (Event.warning (.servoPulseRange h x)).warnsAbout h := rfl

theorem Event.warnsAbout_unique {h k : Nat} {e : Event} (hh : e.warnsAbout h) (hk : e.warnsAbout k) : h = k := by
  unfold Event.warnsAbout at hh hk
  split at hh
  · exact hh.symm.trans hk
  · exact hh.symm.trans hk
  · exact hh.elim

theorem Event.isNotify_of_warnsAbout {h : Nat} {e : Event} (he : e.warnsAbout h) : e.isNotify = false := by
  cases e with
  | warning w => rfl
  | _ => exact absurd he id

theorem warnsAbout_of_mem_decodeWarnings {s : State} {h : Nat} {V : ServoState} {e : Event}
    (he : e ∈ decodeWarnings s h V) : e.warnsAbout h := by
  cases hch : V.channel with
  | none => simp [decodeWarnings, hch] at he
  | some ch =>
    simp only [decodeWarnings, hch, Option.elim, warningsOn] at he
    split_ifs at he
    · obtain rfl := List.mem_singleton.mp he
      rfl
    · exact absurd he List.not_mem_nil
    · obtain rfl := List.mem_singleton.mp he
      rfl

theorem warnsAbout_of_mem_pulseEvents {s : State} {a h : Nat} {V : ServoState} {e : Event}
    (he : e ∈ pulseEvents a s h V) : e.warnsAbout h := by
  by_cases htrigger : ∃ ch, V.channel = some ch ∧ Triggers s a ch
  · obtain ⟨ch, hch, htrigger⟩ := htrigger
    rw [pulseEvents_of_triggers hch htrigger] at he
    exact warnsAbout_of_mem_decodeWarnings he
  · rw [pulseEvents_of_not_triggers fun ch hch ht => htrigger ⟨ch, hch, ht⟩] at he
    exact absurd he List.not_mem_nil

/-- The warnings about a triggered servo are those of its own decode. -/
theorem mem_newEvents_regChange {s : State} (hs : HandlesRise s) {a h : Nat} {V : ServoState} {ch : ServoChannel}
    (hV : s.servo? h = some V) (hch : V.channel = some ch) (htrigger : Triggers s a ch) {e : Event}
    (he : e.warnsAbout h) : e ∈ newEvents s (regChange a s) ↔ e ∈ warningsOn s ch h V := by
  have hown : pulseEvents a s h V = warningsOn s ch h V := by
    rw [pulseEvents_of_triggers hch htrigger, decodeWarnings, hch, Option.elim]
  rw [newEvents_regChange hs, mem_servoEvents hs, ← hown]
  constructor
  · rintro ⟨k, W, hW, hm⟩
    obtain rfl := Event.warnsAbout_unique he (warnsAbout_of_mem_pulseEvents hm)
    obtain rfl : V = W := Option.some.inj (hV.symm.trans hW)
    exact hm
  · exact fun hm => ⟨h, V, hV, hm⟩

/-- Settles O44: a triggered servo is decoded once from the registers of the start, with one of the three outcomes of
R242; the others are not visited. -/
theorem regChangeDecodesPulse : Obligations.RegChangeDecodesPulse := by
  intro a old new s hs
  refine ⟨regChange a s, exec_regchange s a old new, newEvents_regChange hs a, fun hnone => ?_, fun h V hV hch => ?_,
    fun h V ch hV hch => ?_⟩
  · exact regChange_untriggered hs fun h V ch hV hch => not_or.mpr (hnone h V ch hV hch)
  · exact regChange_servo?_other hs hV fun ch hsome => by simp [hch] at hsome
  have record (htrigger : Triggers s a ch) := regChange_servo? hs hV hch htrigger
  have warned {e : Event} (htrigger : Triggers s a ch) (he : e.warnsAbout h) :=
    mem_newEvents_regChange hs hV hch htrigger he
  refine ⟨fun hnot => ?other, fun htrigger hnoTop => ?noTop, fun htrigger hkind htop hrange => ?rejected,
    fun htrigger hkind htop hmin hmax => ?accepted⟩
  case other =>
    refine regChange_servo?_other hs hV fun c hc => ?_
    obtain rfl : ch = c := Option.some.inj (hch.symm.trans hc)
    exact hnot
  case noTop =>
    have hnoTop : NoTop s ch := hnoTop
    rw [record htrigger, warned htrigger (servoNoTop_warnsAbout h _), decodedOn, warningsOn, if_pos hnoTop,
      if_pos hnoTop]
    exact ⟨rfl, List.mem_singleton_self _⟩
  case rejected =>
    have htopped : ¬NoTop s ch := not_or.mpr ⟨hkind, htop.ne'⟩
    have hout : ¬plausiblePulse s.cfg (measuredPulse s ch V) = true := fun hp => by
      obtain ⟨hmin, hmax⟩ := plausiblePulse_iff.mp hp
      exact hrange.elim hmin.not_gt hmax.not_gt
    rw [record htrigger, warned htrigger (servoPulseRange_warnsAbout h _), decodedOn, warningsOn, if_neg htopped,
      if_neg htopped, if_neg hout, if_neg hout]
    exact ⟨rfl, List.mem_singleton_self _⟩
  case accepted =>
    have htopped : ¬NoTop s ch := not_or.mpr ⟨hkind, htop.ne'⟩
    have hin : plausiblePulse s.cfg (measuredPulse s ch V) = true := plausiblePulse_iff.mpr ⟨hmin, hmax⟩
    have hsilent : warningsOn s ch h V = [] := by rw [warningsOn, if_neg htopped, if_pos hin]
    refine ⟨?_, fun x => ⟨?_, ?_⟩⟩
    · rw [record htrigger, decodedOn, if_neg htopped, if_pos hin, angleOf, clampTo_eq_max_min (by norm_num)]
      rfl
    · rw [warned htrigger (servoNoTop_warnsAbout h x), hsilent]
      exact List.not_mem_nil
    · rw [warned htrigger (servoPulseRange_warnsAbout h x), hsilent]
      exact List.not_mem_nil

/-! ## The frame of the engine (R245, R247) -/

/-- The operation from `s` to `t` notifies nobody. -/
def EmitsNoNotify (s t : State) : Prop := ∃ es, t.out = s.out ++ es ∧ ∀ e ∈ es, e.isNotify = false

theorem EmitsNoNotify.refl (s : State) : EmitsNoNotify s s :=
  ⟨[], (List.append_nil _).symm, fun _ he => absurd he List.not_mem_nil⟩

theorem EmitsNoNotify.trans {s t u : State} (h : EmitsNoNotify s t) (k : EmitsNoNotify t u) : EmitsNoNotify s u := by
  obtain ⟨es, hes, hquiet⟩ := h
  obtain ⟨fs, hfs, kquiet⟩ := k
  exact ⟨es ++ fs, by rw [hfs, hes, List.append_assoc], fun e he =>
    (List.mem_append.mp he).elim (hquiet e) (kquiet e)⟩

theorem EmitsNoNotify.countP_newEvents {s t : State} (h : EmitsNoNotify s t) :
    (newEvents s t).countP Event.isNotify = 0 := by
  obtain ⟨es, hout, hquiet⟩ := h
  rw [newEvents_of_out hout, List.countP_eq_zero]
  exact fun e he => by simp [hquiet e he]

theorem decodeServo_emitsNoNotify (s : State) (h : Nat) : EmitsNoNotify s (decodeServo h s) := by
  refine ⟨_, decodeServo_out h s, fun e he => ?_⟩
  cases hV : s.servo? h with
  | none => simp [eventsAt_of_none hV] at he
  | some V =>
    rw [eventsAt_of_servo hV] at he
    exact Event.isNotify_of_warnsAbout (warnsAbout_of_mem_decodeWarnings he)

theorem regChange_emitsNoNotify (a : Nat) (s : State) : EmitsNoNotify s (regChange a s) :=
  foldl_relates EmitsNoNotify .refl (fun _ _ _ => .trans) _ decodeServo_emitsNoNotify _ s

/-- Settles O45: the loops of the two operations do what one round may do, and the decode only warns. -/
theorem servoEngineFrame : Obligations.ServoEngineFrame := by
  refine ⟨fun a old new s => ?_, fun s => ?_⟩
  · have hstep := regChange_step a s
    exact ⟨_, exec_regchange s a old new, hstep.only, hstep.grows, (regChange_emitsNoNotify a s).countP_newEvents,
      hstep.displays, hstep.servos⟩
  · have hstep := motion_step s
    exact ⟨_, exec_motion s, hstep.only, hstep.grows, hstep.displays, hstep.servos⟩

end Sys2Proof.Machine
end

section
/-! PROOFS. The single writer of a servo's angle (R256). -/

namespace Sys2Proof.Machine

/-- Every servo that is registered before and after has the same angle. -/
def KeepsAngles (s t : State) : Prop :=
  ∀ h V V', s.servo? h = some V → t.servo? h = some V' → V'.currentAngle = V.currentAngle

theorem DecodeChange.currentAngle {V W : ServoState} (h : DecodeChange V W) : W.currentAngle = V.currentAngle := by
  rw [show W = _ from h]

/-- A decode of pulses sets targets only (R245). -/
theorem KeepsAngles.of_decodes {s t : State}
    (h : ∀ k V, s.servo? k = some V → ∃ V', t.servo? k = some V' ∧ DecodeChange V V') : KeepsAngles s t := by
  intro k V V' hV hV'
  obtain ⟨W, hW, hchange⟩ := h k V hV
  obtain rfl : V' = W := Option.some.inj (hV'.symm.trans hW)
  exact hchange.currentAngle

theorem KeepsAngles.of_servos {s t : State} (h : ∀ k, t.servo? k = s.servo? k) : KeepsAngles s t :=
  .of_decodes fun k V hV => ⟨V, (h k).trans hV, .refl V⟩

theorem KeepsAngles.of_devs {s t : State} (h : t.devs = s.devs) : KeepsAngles s t :=
  .of_servos fun k => State.servo?_eq_of_device? (State.device?_congr h k)

/-- A registration leaves the servos registered before it alone (R48). -/
theorem addDevice_keepsAngles (s : State) (d : Device) : KeepsAngles s (s.addDevice d) := by
  refine .of_decodes fun k V hV => ⟨V, ?_, .refl V⟩
  have hd := State.servo?_eq_some.mp hV
  rw [State.servo?_eq_some, State.device?_addDevice, hd, Option.some_or]

theorem removeDevice_keepsAngles (s : State) (k : Nat) : KeepsAngles s (s.removeDevice k) := by
  intro h V V' hV hV'
  have hd := State.servo?_eq_some.mp hV'
  rw [State.device?_removeDevice] at hd
  split at hd
  · cases hd
  · obtain rfl : V = V' := Option.some.inj (hV.symm.trans (State.servo?_eq_some.mpr hd))
    rfl

theorem setLoad_keepsAngles (k load arm : Nat) (s : State) : KeepsAngles s (setLoad k load arm s) := by
  rcases setLoad_cases k load arm s with ⟨-, he⟩ | ⟨W, hW, he⟩ <;> rw [he]
  · exact .of_devs rfl
  · intro h V V' hV hV'
    rw [State.servo?_setServo hW] at hV'
    split at hV'
    · next hk =>
      obtain rfl : V = W := Option.some.inj (hV.symm.trans (hk ▸ hW))
      obtain rfl := Option.some.inj hV'
      rfl
    · obtain rfl : V = V' := Option.some.inj (hV.symm.trans hV')
      rfl

theorem registerDisplay_keepsAngles (rs en : Nat) (d : List Nat) (rows cols : Nat) (mode : Addressing) (s : State) :
    KeepsAngles s (registerDisplay rs en d rows cols mode s) := by
  rcases registerDisplay_cases rs en d rows cols mode s with ⟨-, he⟩ | ⟨-, he⟩ <;> rw [he]
  · exact addDevice_keepsAngles s _
  · exact .of_devs rfl

theorem registerServo_keepsAngles (pin speed deadband maxTorque load arm period initAngle : Nat) (s : State) :
    KeepsAngles s (registerServo pin speed deadband maxTorque load arm period initAngle s) := by
  simp only [registerServo]
  split
  · split
    · exact addDevice_keepsAngles (s.warn _) _
    · exact addDevice_keepsAngles s _
  · exact .of_devs rfl

theorem raise_devs (id : Nat) (s : State) : (raise id s).devs = s.devs := by
  unfold raise
  split
  · rfl
  · rw [raiseVector_eq]

theorem dispatchPending_devs (s : State) : (dispatchPending s).devs = s.devs := by
  rcases dispatchPending_cases s with ⟨he, -⟩ | ⟨-, -, w, -, -, he⟩ <;> rw [he]
  exact takeInterrupt_devs w s

theorem returnFromInterrupt_devs (s : State) : (returnFromInterrupt s).devs = s.devs := by
  rcases returnFromInterrupt_cases s with ⟨he, -⟩ | ⟨u, -, he⟩ <;> rw [he]

/-- Of the operations of a step (R271), only the observation changes device records. -/
theorem stepCycles_keepsAngles (n : Nat) (s : State) : KeepsAngles s (stepCycles n s) := by
  have hdevs : (dispatchPending (stepBeforeDispatch n s)).devs = s.devs :=
    calc (dispatchPending (stepBeforeDispatch n s)).devs
        = (stepBeforeDispatch n s).devs := dispatchPending_devs _
      _ = (tick .t0 n (timeTick n s)).devs := (tick_step .t1 n _).devs
      _ = s.devs := (tick_step .t0 n _).devs
  rw [stepCycles_eq_observe_dispatch]
  refine .of_decodes fun k V hV => (observe_observation _).servos k V ?_
  rw [← hV]
  exact State.servo?_eq_of_device? (State.device?_congr hdevs k)

/-- Settles O48: the display bytes leave servos alone, the two operations that decode pulses set targets only, and no
other instruction writes the angle of a servo that is registered. -/
theorem currentAngleSingleWriter : Obligations.CurrentAngleSingleWriter := by
  intro i s t h V V' he hreset hmotion hV hV'
  have keep {u : State} (hu : KeepsAngles s u) (hx : exec i s = .next u) : V'.currentAngle = V.currentAngle := by
    obtain rfl := Host.Outcome.next.inj (hx.symm.trans he)
    exact hu h V V' hV hV'
  have keepLines {k : Nat} {rs : Bool} (hi : i.source = .lines k rs) : V'.currentAngle = V.currentAngle := by
    obtain ⟨u, hx, -, hservos, -⟩ := displayBytesFrame i k rs s hi
    exact keep (.of_servos hservos) hx
  cases i with
  | reset => exact absurd rfl hreset
  | motion => exact absurd rfl hmotion
  | step n => exact keep (stepCycles_keepsAngles n s) (exec_step s n)
  | memwrite a v =>
    obtain ⟨ha, -⟩ := exec_memwrite_next he
    exact keep (u := { s with mem := s.mem.write a v }) (.of_devs rfl) (exec_memwrite s a v ha)
  | tick x n => exact keep (.of_devs (tick_step x n s).devs) (exec_tick s x n)
  | raise id => exact keep (.of_devs (raise_devs id s)) (exec_raise s id)
  | setgie b => exact keep (u := setGie b s) (.of_devs rfl) (exec_setgie s b)
  | dispatch => exact keep (.of_devs (dispatchPending_devs s)) (exec_dispatch s)
  | reti => exact keep (.of_devs (returnFromInterrupt_devs s)) (exec_reti s)
  | observe => exact keep (.of_decodes (observe_observation s).servos) (exec_observe s)
  | pinchange pin level ts =>
    exact keep (.of_servos (pinChange_step pin level s).servos) (exec_pinchange s pin level ts)
  | regchange a old new => exact keep (.of_decodes (regChange_step a s).servos) (exec_regchange s a old new)
  | regdisplay rs en d rows cols mode =>
    exact keep (registerDisplay_keepsAngles rs en d rows cols mode s) (exec_regdisplay s rs en d rows cols mode)
  | regservo pin speed deadband maxTorque load arm period initAngle =>
    exact keep (registerServo_keepsAngles pin speed deadband maxTorque load arm period initAngle s)
      (exec_regservo s pin speed deadband maxTorque load arm period initAngle)
  | unreg k => exact keep (removeDevice_keepsAngles s k) (exec_unreg s k)
  | setload k load arm => exact keep (setLoad_keepsAngles k load arm s) (exec_setload s k load arm)
  | timetick n => exact keep (u := timeTick n s) (.of_devs rfl) (exec_timetick s n)
  | nowus => exact keep (.of_devs (State.emit_devs s _)) (exec_nowus s)
  | nowms => exact keep (.of_devs (State.emit_devs s _)) (exec_nowms s)
  | lcdUnknown | lcdClear | lcdHome | lcdEntryModeSet | lcdDisplayControl | lcdCursorDisplayShift | lcdFunctionSet
  | lcdSetCgramAddress | lcdSetDdramAddress | lcdWriteData => exact keepLines rfl

end Sys2Proof.Machine
end

section
/-! PROOFS. Dispatch events (R165, R273). One relation bounds how many an operation adds to the output, and it adds up
along a sequence of operations: of those of a STEP, only the dispatch adds one. -/

namespace Sys2Proof.Machine

/-! ## How many dispatch events an operation adds -/

/-- The operation from `s` to `t` adds to the output, and at most `k` of the events that it adds are dispatches. -/
def DispatchesAtMost (k : Nat) (s t : State) : Prop :=
  ∃ es, t.out = s.out ++ es ∧ es.countP Event.isDispatch ≤ k

theorem DispatchesAtMost.of_out {s t : State} {es : List Event} (ho : t.out = s.out ++ es)
    (hes : ∀ e ∈ es, e.isDispatch = false) : DispatchesAtMost 0 s t :=
  ⟨es, ho, (List.countP_eq_zero.mpr fun e he => by simp [hes e he]).le⟩

theorem DispatchesAtMost.of_out_eq {s t : State} (ho : t.out = s.out) : DispatchesAtMost 0 s t :=
  .of_out (ho.trans (List.append_nil _).symm) fun _ he => absurd he List.not_mem_nil

theorem DispatchesAtMost.refl (s : State) : DispatchesAtMost 0 s s := .of_out_eq rfl

theorem DispatchesAtMost.trans {j k : Nat} {s t u : State} (h : DispatchesAtMost j s t) (g : DispatchesAtMost k t u) :
    DispatchesAtMost (j + k) s u := by
  obtain ⟨es, hes, hj⟩ := h
  obtain ⟨fs, hfs, hk⟩ := g
  exact ⟨es ++ fs, by rw [hfs, hes, List.append_assoc], by rw [List.countP_append]; exact Nat.add_le_add hj hk⟩

theorem DispatchesAtMost.mono {j k : Nat} {s t : State} (h : DispatchesAtMost j s t) (hjk : j ≤ k) :
    DispatchesAtMost k s t := by
  obtain ⟨es, hes, hj⟩ := h
  exact ⟨es, hes, hj.trans hjk⟩

theorem DispatchesAtMost.countP_newEvents_le {k : Nat} {s t : State} (h : DispatchesAtMost k s t) :
    (newEvents s t).countP Event.isDispatch ≤ k := by
  obtain ⟨es, hes, hk⟩ := h
  rwa [newEvents_of_out hes]

theorem emit_dispatchesNone (s : State) {e : Event} (he : e.isDispatch = false) : DispatchesAtMost 0 s (s.emit e) :=
  .of_out (State.emit_out s e) fun _ hm => List.mem_singleton.mp hm ▸ he

theorem warn_dispatchesNone (s : State) (w : Warning) : DispatchesAtMost 0 s (s.warn w) := emit_dispatchesNone s rfl

/-- A loop whose rounds dispatch nothing dispatches nothing. -/
theorem foldl_dispatchesNone {α : Type} {f : State → α → State} (l : List α)
    (hf : ∀ s, ∀ a ∈ l, DispatchesAtMost 0 s (f s a)) (s : State) : DispatchesAtMost 0 s (l.foldl f s) :=
  List.foldlRecOn l f (.refl s) fun t ht a ha => ht.trans (hf t a ha)

/-! ## The display decoder notifies and warns (R205, R216, R217) -/

theorem onDisplay_dispatchesNone (h : Nat) (f : DisplayState → DisplayState) (s : State) :
    DispatchesAtMost 0 s (onDisplay h f s) := by
  cases hD : s.display? h with
  | none => exact .of_out_eq (by rw [onDisplay_none hD])
  | some D =>
    rw [onDisplay_some hD]
    split
    · exact .of_out_eq rfl
    · exact .of_out rfl fun _ hm => List.mem_singleton.mp hm ▸ rfl

theorem warnOnDisplay_dispatchesNone (h : Nat) (w : Warning) (s : State) :
    DispatchesAtMost 0 s (warnOnDisplay h w s) := by
  cases hD : s.display? h with
  | none => exact .of_out_eq (by rw [warnOnDisplay_none hD])
  | some D => exact warnOnDisplay_some hD w ▸ warn_dispatchesNone s w

theorem setDdramAddress_dispatchesNone (h a : Nat) (s : State) : DispatchesAtMost 0 s (setDdramAddress h a s) := by
  cases hD : s.display? h with
  | none => exact .of_out_eq (by rw [setDdramAddress_absent hD])
  | some D =>
    cases ha : addrToPos D.rows D.cols a with
    | none => exact setDdramAddress_of_none hD ha ▸ warn_dispatchesNone s _
    | some pos => exact setDdramAddress_of_some hD ha ▸ onDisplay_dispatchesNone h _ s

theorem dispatchByte_dispatchesNone (h : Nat) (rs : Bool) (b : Byte) (s : State) :
    DispatchesAtMost 0 s (dispatchByte h rs b s) := by
  unfold dispatchByte
  cases decodeDisplayByte rs b with
  | unknown => exact warnOnDisplay_dispatchesNone h _ s
  | setDdramAddress a => exact setDdramAddress_dispatchesNone h a.toNat s
  | clear | home | displayControl | writeData => exact onDisplay_dispatchesNone h _ s
  | entryModeSet | cursorDisplayShift | functionSet | setCgramAddress => exact .refl s

theorem assemble_dispatchesNone (h : Nat) (D : DisplayState) (rs : Bool) (v : BitVec 4) (s : State) :
    DispatchesAtMost 0 s (assemble h D rs v s) := by
  unfold assemble
  split
  · exact .of_out_eq rfl
  · exact DispatchesAtMost.trans (.of_out_eq rfl) (dispatchByte_dispatchesNone h rs _ _)

theorem latch_dispatchesNone (h : Nat) (s : State) : DispatchesAtMost 0 s (latch h s) := by
  unfold latch
  split
  · exact .refl s
  · dsimp only
    split
    · exact dispatchByte_dispatchesNone h _ _ s
    · exact assemble_dispatchesNone h _ _ _ s

theorem pinChange_dispatchesNone (pin : Nat) (level : Bool) (s : State) :
    DispatchesAtMost 0 s (pinChange pin level s) := by
  unfold pinChange
  split
  · exact .refl s
  · exact foldl_dispatchesNone _ (fun u h _ => latch_dispatchesNone h u) s

/-! ## The servo engine warns and notifies (R242, R244, R254) -/

theorem Event.isDispatch_of_warnsAbout {h : Nat} {e : Event} (he : e.warnsAbout h) : e.isDispatch = false := by
  cases e with
  | warning w => rfl
  | _ => exact absurd he id

theorem decodeServo_dispatchesNone (h : Nat) (s : State) : DispatchesAtMost 0 s (decodeServo h s) := by
  refine .of_out (decodeServo_out h s) fun e he => ?_
  cases hV : s.servo? h with
  | none => simp [eventsAt_of_none hV] at he
  | some V => exact Event.isDispatch_of_warnsAbout (warnsAbout_of_mem_decodeWarnings (eventsAt_of_servo hV _ ▸ he))

theorem regChange_dispatchesNone (a : Nat) (s : State) : DispatchesAtMost 0 s (regChange a s) :=
  foldl_dispatchesNone _ (fun u h _ => decodeServo_dispatchesNone h u) s

theorem isDispatch_of_mem_moveNotification {c : Config} {now h : Nat} {V : ServoState} {e : Event}
    (he : e ∈ moveNotification c now h V) : e.isDispatch = false := by
  unfold moveNotification at he
  split at he
  · exact List.mem_singleton.mp he ▸ rfl
  · exact absurd he List.not_mem_nil

theorem motionServo_dispatchesNone (now h : Nat) (s : State) : DispatchesAtMost 0 s (motionServo now h s) := by
  refine .of_out (motionServo_out now h s) fun e he => ?_
  cases hV : s.servo? h with
  | none => simp [eventsAt_of_none hV] at he
  | some V => exact isDispatch_of_mem_moveNotification (eventsAt_of_servo hV _ ▸ he)

theorem motion_dispatchesNone (s : State) : DispatchesAtMost 0 s (motion s) :=
  foldl_dispatchesNone _ (fun u h _ => motionServo_dispatchesNone s.nowMicros h u) s

/-! ## The bridge emits its own events and delivers them to the two engines (R183, R184, R187) -/

theorem deliverEvent_dispatchesNone {e : Event} (he : e.isBridge = true) (s : State) :
    DispatchesAtMost 0 s (deliverEvent s e) := by
  cases e with
  | pinChange pin level ts => exact (emit_dispatchesNone s rfl).trans (pinChange_dispatchesNone pin level _)
  | regChange a old new => exact (emit_dispatchesNone s rfl).trans (regChange_dispatchesNone a _)
  | warning | dispatch | notifyDisplay | notifyServo | handle | value => exact absurd he Bool.false_ne_true

theorem observeReg_dispatchesNone (ts : Nat) (s : State) (r : ObservedReg) :
    DispatchesAtMost 0 s (observeReg ts s r) := by
  have hdeliver := foldl_dispatchesNone (registerEvents s.cfg ts s.snap s.mem r)
    (fun u _ he => deliverEvent_dispatchesNone (registerEvents_isBridge _ _ _ _ r he) u) s
  rw [observeReg_eq_withSnap]
  exact hdeliver.trans (.of_out_eq rfl)

theorem observe_dispatchesNone (s : State) : DispatchesAtMost 0 s (observe s) :=
  foldl_dispatchesNone _ (fun u r _ => observeReg_dispatchesNone s.nowMicros u r) s

/-! ## Timers, the interrupt controller and registration -/

/-- A tick only warns (R126). -/
theorem TimerStep.dispatchesNone {t : TimerId} {s u : State} (h : TimerStep t s u) : DispatchesAtMost 0 s u := by
  obtain ⟨es, hes⟩ := h.grows
  refine .of_out hes fun e he => ?_
  obtain ⟨m, cs, rfl⟩ := h.quiet e (by rwa [hes, List.drop_left])
  rfl

theorem raise_dispatchesNone (id : Nat) (s : State) : DispatchesAtMost 0 s (raise id s) := by
  unfold raise
  split
  · exact warn_dispatchesNone s _
  · exact .of_out_eq (by rw [raiseVector_eq])

theorem returnFromInterrupt_dispatchesNone (s : State) : DispatchesAtMost 0 s (returnFromInterrupt s) := by
  rcases returnFromInterrupt_cases s with ⟨he, -⟩ | ⟨u, -, he⟩ <;> rw [he]
  · exact .refl s
  · exact .of_out_eq rfl

/-- A DISPATCH enters at most one vector (R164, R165). -/
theorem dispatchPending_dispatchesAtMostOne (s : State) : DispatchesAtMost 1 s (dispatchPending s) := by
  rcases dispatchPending_cases s with ⟨he, -⟩ | ⟨-, -, w, -, -, he⟩ <;> rw [he]
  · exact (DispatchesAtMost.refl s).mono (Nat.zero_le 1)
  · exact ⟨_, takeInterrupt_out w s, List.countP_le_length⟩

theorem addDevice_dispatchesNone (s : State) (d : Device) : DispatchesAtMost 0 s (s.addDevice d) :=
  .of_out (State.addDevice_out s d) fun _ hm => List.mem_singleton.mp hm ▸ rfl

theorem registerDisplay_dispatchesNone (rs en : Nat) (d : List Nat) (rows cols : Nat) (mode : Addressing) (s : State) :
    DispatchesAtMost 0 s (registerDisplay rs en d rows cols mode s) := by
  rcases registerDisplay_cases rs en d rows cols mode s with ⟨-, he⟩ | ⟨-, he⟩ <;> rw [he]
  · exact addDevice_dispatchesNone s _
  · exact warn_dispatchesNone s _

theorem registerServo_dispatchesNone (pin speed deadband maxTorque load arm period initAngle : Nat) (s : State) :
    DispatchesAtMost 0 s (registerServo pin speed deadband maxTorque load arm period initAngle s) := by
  simp only [registerServo]
  split
  · split
    · exact (warn_dispatchesNone s _).trans (addDevice_dispatchesNone _ _)
    · exact addDevice_dispatchesNone s _
  · exact warn_dispatchesNone s _

theorem setLoad_dispatchesNone (h load arm : Nat) (s : State) : DispatchesAtMost 0 s (setLoad h load arm s) := by
  rcases setLoad_cases h load arm s with ⟨-, he⟩ | ⟨V, -, he⟩ <;> rw [he]
  · exact .refl s
  · exact .of_out_eq rfl

/-! ## Every instruction -/

/-- The operations of a STEP one after another (R272): its DISPATCH alone may dispatch. -/
theorem stepCycles_dispatchesAtMostOne (n : Nat) (s : State) : DispatchesAtMost 1 s (stepCycles n s) := by
  have htime : DispatchesAtMost 0 s (timeTick n s) := .of_out_eq rfl
  have hticks := (htime.trans (tick_step .t0 n _).dispatchesNone).trans (tick_step .t1 n _).dispatchesNone
  have hbefore : DispatchesAtMost 0 s (stepBeforeDispatch n s) := hticks.trans (.of_out_eq rfl)
  rw [stepCycles_eq_observe_dispatch]
  exact (hbefore.trans (dispatchPending_dispatchesAtMostOne _)).trans (observe_dispatchesNone _)

theorem exec_dispatchesNone {i : Instr} {s t : State} (he : exec i s = .next t) (hdispatch : i ≠ .dispatch)
    (hstep : ∀ n, i ≠ .step n) : DispatchesAtMost 0 s t := by
  have keep {u : State} (hu : DispatchesAtMost 0 s u) (hx : exec i s = .next u) : DispatchesAtMost 0 s t :=
    Host.Outcome.next.inj (hx.symm.trans he) ▸ hu
  have keepLines {k : Nat} {rs : Bool} (hi : i.source = .lines k rs) : DispatchesAtMost 0 s t := by
    obtain ⟨b, hx⟩ := exec_of_lines hi
    exact keep (dispatchByte_dispatchesNone k rs b s) (hx s)
  cases i with
  | dispatch => exact absurd rfl hdispatch
  | step n => exact absurd rfl (hstep n)
  | reset => exact keep (.of_out_eq (resetBlock_out s)) (exec_reset s)
  | memwrite a v =>
    obtain ⟨-, rfl⟩ := exec_memwrite_next he
    exact .of_out_eq rfl
  | motion => exact keep (motion_dispatchesNone s) (exec_motion s)
  | tick x n => exact keep (tick_step x n s).dispatchesNone (exec_tick s x n)
  | raise id => exact keep (raise_dispatchesNone id s) (exec_raise s id)
  | setgie b => exact keep (u := setGie b s) (.of_out_eq rfl) (exec_setgie s b)
  | reti => exact keep (returnFromInterrupt_dispatchesNone s) (exec_reti s)
  | observe => exact keep (observe_dispatchesNone s) (exec_observe s)
  | pinchange pin level ts => exact keep (pinChange_dispatchesNone pin level s) (exec_pinchange s pin level ts)
  | regchange a old new => exact keep (regChange_dispatchesNone a s) (exec_regchange s a old new)
  | regdisplay rs en d rows cols mode =>
    exact keep (registerDisplay_dispatchesNone rs en d rows cols mode s) (exec_regdisplay s rs en d rows cols mode)
  | regservo pin speed deadband maxTorque load arm period initAngle =>
    exact keep (registerServo_dispatchesNone pin speed deadband maxTorque load arm period initAngle s)
      (exec_regservo s pin speed deadband maxTorque load arm period initAngle)
  | unreg k => exact keep (.of_out_eq (State.removeDevice_out s k)) (exec_unreg s k)
  | setload k load arm => exact keep (setLoad_dispatchesNone k load arm s) (exec_setload s k load arm)
  | timetick n => exact keep (u := timeTick n s) (.of_out_eq rfl) (exec_timetick s n)
  | nowus => exact keep (emit_dispatchesNone s rfl) (exec_nowus s)
  | nowms => exact keep (emit_dispatchesNone s rfl) (exec_nowms s)
  | lcdUnknown | lcdClear | lcdHome | lcdEntryModeSet | lcdDisplayControl | lcdCursorDisplayShift | lcdFunctionSet
  | lcdSetCgramAddress | lcdSetDdramAddress | lcdWriteData => exact keepLines rfl

/-- Settles O30: of the operations of a STEP only its DISPATCH may dispatch, and of the other instructions none does. -/
theorem stepDispatchesAtMostOnce : Obligations.StepDispatchesAtMostOnce :=
  ⟨fun n s => ⟨stepCycles n s, exec_step s n, (stepCycles_dispatchesAtMostOne n s).countP_newEvents_le⟩,
    fun _ _ _ he hdispatch hstep => Nat.le_zero.mp (exec_dispatchesNone he hdispatch hstep).countP_newEvents_le⟩

end Sys2Proof.Machine
end

section
/-! PROOFS. RESET (R286, R340): the fields of R65, read from the block that `resetBlock` makes. -/

namespace Sys2Proof.Machine

/-- The snapshot of a block after RESET holds the observed bytes and nothing else (R65, R182). -/
theorem resetBlock_snap_read (s : State) (a : Nat) :
    (resetBlock s).snap.read a = if a ∈ observedAddrs s.cfg then s.mem.read a else 0 := by
  rw [resetBlock_snap, Memory.read_copyAt s.mem _ rfl]
  rfl

/-- Settles O3: the byte is the row of RESET, and the state after it is `resetBlock`, field by field. -/
theorem resetCommandRestoresReset : Obligations.ResetCommandRestoresReset := by
  refine ⟨fun c => decodeCommand_reset c [], fun s => ⟨resetBlock s, exec_reset s, resetBlock_cfg s, resetBlock_t0 s,
    resetBlock_t1 s, fun v => ?vectors, rfl, rfl, resetBlock_mem s, resetBlock_out s, resetBlock_stream s,
    resetBlock_pos s, rfl, resetBlock_handles s, fun a ha => ?observed, fun a ha => ?unobserved, fun h D hD => ?display,
    fun h V hV => ?servo⟩⟩
  case vectors => rw [resetBlock_ic, IcState.vec_reset]
  case observed => rw [resetBlock_snap_read, if_pos ha]
  case unobserved => rw [resetBlock_snap_read, if_neg ha]
  case display =>
    rw [resetBlock_display?, hD]
    rfl
  case servo =>
    rw [resetBlock_servo?, hV]
    rfl

end Sys2Proof.Machine
end

section
/-! PROOFS. The step, time, registration and the CPU's write (R270 to R285). A registration is accepted exactly when its
operands meet R284, and it is then one new entry under the next handle. -/

namespace Sys2Proof.Machine

/-! ## Every operation (R270) -/

/-- Settles O59: MEMWRITE to an address that the decoder accepts has its effect, and every other instruction is an
operation of the block. -/
theorem everyOperationCompletes : Obligations.EveryOperationCompletes := by
  intro i s hi
  rcases memwrite_or_blockOp i with ⟨a, v, rfl⟩ | ⟨f, -, hexec⟩
  · simp only [Instr.WellFormed, Instr.wellFormed, Bool.and_eq_true, decide_eq_true_eq] at hi
    obtain ⟨-, ha⟩ := hi
    exact ⟨_, exec_memwrite s a v ha⟩
  · exact ⟨f s, hexec s⟩

/-! ## The step and the time (R271, R276 to R278) -/

/-- Settles O50: the step is the composition of its operations, each of which answers a next state. -/
theorem stepIsSequence : Obligations.StepIsSequence := fun n s =>
  let u := tick .t1 n (tick .t0 n (timeTick n s))
  ⟨u, observe (dispatchPending (setGie (u.mem.bit s.cfg.reg.sreg 7) u)), rfl, rfl, exec_step s n⟩

/-- Settles O51: the time is the sum, and the two reports are the quotients of R276. -/
theorem timeCommands : Obligations.TimeCommands :=
  ⟨fun n s => ⟨timeTick n s, exec_timetick s n, rfl, rfl⟩, exec_nowus, exec_nowms⟩

/-! ## The CPU's write (R285) -/

/-- Settles O55: the write is the one of register memory, which a canonical memory reads back. -/
theorem memWriteStoresByte : Obligations.MemWriteStoresByte := fun a v s hw ha =>
  ⟨{ s with mem := s.mem.write a v }, exec_memwrite s a v ha, rfl, Memory.read_write hw a v⟩

/-! ## Registration (R280, R281, R284) -/

theorem validDisplay_iff {c : Config} {rs en : Nat} {d : List Nat} {rows cols : Nat} :
    validDisplay c rs en d rows cols = true ↔
      rs ∈ c.pinMap.map PinRow.pin ∧ en ∈ c.pinMap.map PinRow.pin ∧ (∀ p ∈ d, p ∈ c.pinMap.map PinRow.pin) ∧
        1 ≤ rows ∧ rows ≤ 4 ∧ 1 ≤ cols ∧ cols ≤ 40 := by
  simp only [validDisplay, Bool.and_eq_true, decide_eq_true_eq, List.all_eq_true, isBoardPin_iff, and_assoc]

/-- Settles O52: a display that R284 accepts is the new entry of the registry, with the record of `newDisplay`. -/
theorem registerDisplayCommand : Obligations.RegisterDisplayCommand := by
  intro rs en d rows cols mode s hbelow hlines rows' cols' board valid
  rw [exec_regdisplay]
  rcases registerDisplay_cases rs en d rows cols mode s with ⟨hv, he⟩ | ⟨hv, he⟩ <;> rw [he]
  · refine ⟨fun _ => ?_, fun hinvalid => absurd (validDisplay_iff.mp hv) hinvalid⟩
    exact ⟨_, newDisplay rs en d rows' cols' mode, rfl, addDevice_device?_of_below hbelow _, rfl,
      State.addDevice_out s _, rfl, rfl, rfl, rfl, rfl, rfl, rfl, rfl, rfl, rfl, rfl, rfl, rfl, rfl, rfl⟩
  · exact ⟨fun hvalid => absurd (hv.symm.trans (validDisplay_iff.mpr hvalid)) Bool.false_ne_true, fun _ => rfl⟩

theorem thousandths_le_180_iff {m : Nat} : thousandths m ≤ 180 ↔ m ≤ 180000 := by
  rw [thousandths, div_le_iff₀ (by norm_num)]
  norm_num

theorem validServo_iff {c : Config} {pin period initAngle : Nat} :
    validServo c pin period (thousandths initAngle) = true ↔
      pin ∈ c.pinMap.map PinRow.pin ∧ 0 < period ∧ initAngle ≤ 180000 := by
  simp only [validServo, Bool.and_eq_true, decide_eq_true_eq, isBoardPin_iff, thousandths_le_180_iff, and_assoc]

theorem channelOf_eq (pin : Nat) :
    channelOf pin =
      if pin = 9 then some ⟨.t1, .a⟩ else if pin = 10 then some ⟨.t1, .b⟩
      else if pin = 6 then some ⟨.t0, .a⟩ else if pin = 5 then some ⟨.t0, .b⟩ else none := by
  unfold channelOf
  split <;> simp_all

/-- The state in which a servo is registered: after the warning of a pin without a channel (R281). -/
def servoChannelChecked (pin : Nat) (s : State) : State :=
  if (channelOf pin).isNone then s.warn (.servoNoChannel pin) else s

theorem servoChannelChecked_eq (pin : Nat) (s : State) :
    servoChannelChecked pin s =
      { s with out := s.out ++ if channelOf pin = none then [.warning (.servoNoChannel pin)] else [] } := by
  rw [servoChannelChecked]
  cases channelOf pin with
  | none => rfl
  | some ch => simp

theorem registerServo_of_valid {pin period initAngle : Nat} {s : State}
    (hv : validServo s.cfg pin period (thousandths initAngle) = true) (speed deadband maxTorque load arm : Nat) :
    registerServo pin speed deadband maxTorque load arm period initAngle s =
      (servoChannelChecked pin s).addDevice
        (.servo (newServo pin (thousandths speed) (thousandths deadband) (thousandths maxTorque) (thousandths load)
          (thousandths arm) period (thousandths initAngle) s.nowMicros)) := if_pos hv

theorem registerServo_of_invalid {pin period initAngle : Nat} {s : State}
    (hv : ¬validServo s.cfg pin period (thousandths initAngle) = true) (speed deadband maxTorque load arm : Nat) :
    registerServo pin speed deadband maxTorque load arm period initAngle s =
      s.warn (.regBadConfig [pin, speed, deadband, maxTorque, load, arm, period, initAngle]) := if_neg hv

/-- Settles O53: a servo that R284 accepts is the new entry of the registry, with the record of `newServo`. -/
theorem registerServoCommand : Obligations.RegisterServoCommand := by
  intro pin speed deadband maxTorque load arm period initAngle s hbelow valid channel
  have hchannel : channelOf pin = channel := channelOf_eq pin
  rw [exec_regservo]
  refine ⟨fun hvalid => ?_, fun hinvalid => ?_⟩
  · rw [registerServo_of_valid (validServo_iff.mpr hvalid), servoChannelChecked_eq, hchannel]
    exact ⟨_, _, rfl, addDevice_device?_of_below hbelow _, rfl, rfl, rfl, rfl, hchannel, rfl, rfl, rfl, rfl, rfl, rfl,
      rfl, rfl, rfl, rfl, rfl, rfl, rfl, rfl, rfl, rfl, rfl⟩
  · rw [registerServo_of_invalid fun hv => hinvalid (validServo_iff.mp hv)]
    rfl

/-! ## Unregistration and loads (R282, R283) -/

theorem removeDevice_of_absent {s : State} {h : Nat} (hn : s.device? h = none) : s.removeDevice h = s := by
  have hnot : h ∉ s.devs.entries.map Prod.fst := lookupDevice_eq_none_iff.mp hn
  have hall : s.devs.entries.filter (fun e => e.1 != h) = s.devs.entries :=
    List.filter_eq_self.mpr fun e he => bne_iff_ne.mpr (ne_of_mem_of_not_mem (List.mem_map_of_mem he) hnot)
  rw [State.removeDevice, hall]

theorem setLoad_of_servo {s : State} {h : Nat} {V : ServoState} (hV : s.servo? h = some V) (load arm : Nat) :
    setLoad h load arm s =
      s.setDevice h (.servo { V with loadWeight := thousandths load, armLength := thousandths arm }) := by
  simp only [setLoad, hV]

theorem setLoad_of_none {s : State} {h : Nat} (hn : s.servo? h = none) (load arm : Nat) : setLoad h load arm s = s := by
  simp only [setLoad, hn]

/-- Settles O54: UNREG filters the registry by the handle, SETLOAD writes the record of the servo found. -/
theorem unregisterAndSetLoad : Obligations.UnregisterAndSetLoad := by
  refine ⟨fun h s => ?unreg, fun h load arm s V hV => ?setload, fun h load arm s hn => ?absent⟩
  case unreg =>
    exact ⟨s.removeDevice h, exec_unreg s h, s.device?_removeDevice h, rfl, rfl, removeDevice_of_absent⟩
  case setload =>
    rw [exec_setload, setLoad_of_servo hV]
    refine ⟨_, rfl, .setDevice s h _, rfl, fun k => ?_⟩
    rw [State.device?_setDevice, State.servo?_eq_some.mp hV]
    rfl
  case absent => rw [exec_setload, setLoad_of_none hn]

end Sys2Proof.Machine
end

section
/-! PROOFS. A newly constructed block (R65, R341), and the STEP that dispatches the vector that is highest after its
ticks (R350, R351). -/

namespace Sys2Proof.Machine

/-- Settles O1: the block is `State.resetWith`, field by field; its two memories list no byte. -/
theorem resetState : Obligations.ResetState := by
  refine ⟨rfl, fun c => ⟨rfl, fun t => ?timers, rfl, rfl, IcState.vec_reset, rfl, rfl, rfl, rfl, Memory.read_nil,
    fun _ _ => rfl, rfl⟩⟩
  case timers => cases t <;> exact ⟨rfl, rfl, rfl, rfl, rfl, rfl, rfl, rfl, rfl⟩

/-! ## The dispatch of a STEP (R271, R350, R351) -/

/-- A tick brings no vector into service (R135, R162). -/
theorem TimerStep.noneInService {x : TimerId} {s t : State} (h : TimerStep x s t)
    (hnone : ∀ v, s.ic.vec v ≠ .inService) (v : IrqVector) : t.ic.vec v ≠ .inService := by
  rcases h.vecs v with hsame | ⟨-, -, hpending⟩
  · exact hsame ▸ hnone v
  · simp [hpending]

theorem stepBeforeDispatch_cfg (n : Nat) (s : State) : (stepBeforeDispatch n s).cfg = s.cfg :=
  (tick_cfg .t1 n _).trans (tick_cfg .t0 n _)

/-- The refresh of the enable leaves the vectors as the ticks left them. -/
theorem stepBeforeDispatch_vec_ticks (n : Nat) (s : State) (v : IrqVector) :
    (stepBeforeDispatch n s).ic.vec v = (tick .t1 n (tick .t0 n (timeTick n s))).ic.vec v :=
  IcState.vec_gie _ _ v

theorem stepBeforeDispatch_noneInService (n : Nat) {s : State} (hnone : ∀ v, s.ic.vec v ≠ .inService)
    (v : IrqVector) : (stepBeforeDispatch n s).ic.vec v ≠ .inService := by
  rw [stepBeforeDispatch_vec_ticks]
  exact (tick_step .t1 n _).noneInService ((tick_step .t0 n (timeTick n s)).noneInService hnone) v

theorem stepBeforeDispatch_grows (n : Nat) (s : State) : OutputGrows s (stepBeforeDispatch n s) :=
  (tick_step .t0 n (timeTick n s)).grows.trans (tick_step .t1 n _).grows

/-- Settles O31: the state before the dispatch has the vectors of the ticks and the enable of SREG, so that the dispatch
enters the given vector; the observation after it leaves the controller alone. -/
theorem stepDispatchesInSameStep : Obligations.StepDispatchesInSameStep := by
  intro n s u w hacc hrun hsreg hnone hw hleast
  obtain rfl : tick .t1 n (tick .t0 n (timeTick n s)) = u := Host.Outcome.next.inj hrun
  simp only [← stepBeforeDispatch_vec_ticks] at hw hleast ⊢
  have hcfg := stepBeforeDispatch_cfg n s
  have hgie : (stepBeforeDispatch n s).ic.gie = true := (stepBeforeDispatch_gie n hacc.facts).trans hsreg
  have hstep : stepCycles n s = observe (takeInterrupt w (stepBeforeDispatch n s)) := by
    rw [stepCycles_eq_observe_dispatch, dispatchPending_of_highest (hcfg.symm ▸ hacc.facts) hgie
      (stepBeforeDispatch_noneInService n hnone) hw (hcfg.symm ▸ hleast)]
  have hobs := observe_observation (takeInterrupt w (stepBeforeDispatch n s))
  refine ⟨stepCycles n s, exec_step s n, ?enable, fun v => ?vectors, ?event⟩
  case enable => rw [hstep, hobs.ic, takeInterrupt_ic, IcState.setVec_gie, hgie]
  case vectors => rw [hstep, hobs.ic, takeInterrupt_ic, IcState.vec_setVec]
  case event =>
    obtain ⟨es, hticks⟩ := stepBeforeDispatch_grows n s
    obtain ⟨fs, hobserve⟩ := hobs.grows
    rw [takeInterrupt_out, hticks, hcfg, ← hstep, List.append_assoc, List.append_assoc] at hobserve
    rw [newEvents_of_out hobserve]
    simp

end Sys2Proof.Machine
end

section
/-! PROOFS. The overflow period (R366). A running timer is at a place of its period, so many cycles past an overflow.
Each TICK moves it on by its cycles and, where it overflows, back by one period (`InPeriod.movesOn`); so the overflows of
a sequence are a quotient. -/

namespace Sys2Proof.Machine

/-! ## The place of a counter in its period (R132, R133) -/

/-- The timer ticks between two overflows of a mode with the given top: up to top, or down to 0 and up again. -/
def periodTicks (top : Nat) : CountKind → Nat
  | .up => top
  | .sym => 2 * top
  | .frozen => 0

/-- The timer ticks from an overflow to a counter and direction. An overflow leaves a counter at 0 in a mode that counts
up, and at top and counting down in a symmetric mode; the way up from 0 is the second half of the symmetric period. -/
def ticksPast (c top : Nat) (down : Bool) : CountKind → Nat
  | .up => c
  | .sym => if down then top - c else top + c
  | .frozen => 0

/-- The counters that a running timer goes through: below top when it counts up, above 0 when it counts down. -/
def OnCourse (c top : Nat) (down : Bool) : CountKind → Prop
  | .up => c < top
  | .sym => if down then 0 < c ∧ c ≤ top else c < top
  | .frozen => False

theorem OnCourse.ticksPast_lt {c top : Nat} {down : Bool} {kind : CountKind} (h : OnCourse c top down kind) :
    ticksPast c top down kind < periodTicks top kind := by
  cases kind with
  | up => exact h
  | sym => cases down <;> simp [OnCourse, ticksPast, periodTicks] at h ⊢ <;> omega
  | frozen => exact h.elim

/-- One timer tick keeps the counter on its course, one place on: at an overflow, that place is a period back. -/
theorem OnCourse.advance_one {c top : Nat} {down : Bool} {kind : CountKind} (h : OnCourse c top down kind) :
    let adv := advance kind c 1 top down
    OnCourse adv.counter top adv.countDown kind ∧
      ticksPast adv.counter top adv.countDown kind + periodTicks top kind * adv.overflow.toNat =
        ticksPast c top down kind + 1 := by
  cases kind with
  | up =>
    by_cases hreach : top ≤ c + 1 <;>
      simp [OnCourse, ticksPast, periodTicks, advance, advanceUp, hreach] at h ⊢ <;> omega
  | sym =>
    cases down with
    | false =>
      by_cases hreach : top ≤ c + 1 <;>
        simp [OnCourse, ticksPast, periodTicks, advance, advanceSym, hreach] at h ⊢ <;> omega
    | true =>
      by_cases hbottom : c ≤ 1 <;>
        simp [OnCourse, ticksPast, periodTicks, advance, advanceSym, hbottom] at h ⊢ <;> omega
  | frozen => exact h.elim

/-! ## The place of a timer in its period, in cycles -/

/-- The cycles between two overflows of a timer (R366). -/
def periodCycles (t : TimerId) (d : Nat) (s : State) : Nat := d * periodTicks (s.top t) (s.countKind t)

/-- The cycles from an overflow to the timer's counter, direction and remainder. -/
def cyclesPast (t : TimerId) (d : Nat) (s : State) : Nat :=
  d * ticksPast (s.count t) (s.top t) (s.timer t).countDown (s.countKind t) + (s.timer t).cycleRemainder

/-- The overflows that one TICK detects, as `overflowCount` counts them. -/
def tickOverflows (t : TimerId) (d n : Nat) (s : State) : Nat :=
  if 0 < ticksOf t d n s ∧ ((tick t n s).timer t).overflowed = true then 1 else 0

theorem overflowCount_cons (t : TimerId) (d n : Nat) (ns : List Nat) (s : State) :
    overflowCount t d (n :: ns) s = tickOverflows t d n s + overflowCount t d ns (tick t n s) := rfl

/-- The timer counts at `s`, and its counter and remainder are at a place of its period. -/
structure InPeriod (t : TimerId) (d : Nat) (s : State) : Prop extends Counts t d s where
  mem_wf : s.mem.wf = true
  course : OnCourse (s.count t) (s.top t) (s.timer t).countDown (s.countKind t)
  remainder_lt : (s.timer t).cycleRemainder < d

/-- A TICK of at most one divisor moves the timer on by its cycles and, where it overflows, back by one period. -/
structure MovesOn (t : TimerId) (d n : Nat) (s : State) : Prop where
  inPeriod : InPeriod t d (tick t n s)
  place : cyclesPast t d (tick t n s) + periodCycles t d s * tickOverflows t d n s = cyclesPast t d s + n

theorem periodCycles_tick {s : State} (hc : s.cfg.Facts) (t : TimerId) (d n : Nat) :
    periodCycles t d (tick t n s) = periodCycles t d s := by
  obtain ⟨-, -, htop, -⟩ := tick_keeps_control hc t n
  rw [periodCycles, htop, countKind_tick hc, periodCycles]

theorem IsBatch.count {t : TimerId} {n d : Nat} {s : State} (h : IsBatch t n d s) (hw : s.mem.wf = true) :
    (tick t n s).count t = ((tick t n s).timer t).counter := by
  rw [State.count, tick_cfg, h.readCounter hw]

section
variable {t : TimerId} {d n : Nat} {s : State} (h : InPeriod t d s)
include h

theorem InPeriod.cyclesPast_lt : cyclesPast t d s < periodCycles t d s := by
  have hplace : _ + 1 ≤ _ := h.course.ticksPast_lt
  have hrem := h.remainder_lt
  calc cyclesPast t d s
    _ < d * (ticksPast (s.count t) (s.top t) (s.timer t).countDown (s.countKind t) + 1) := by
      rw [cyclesPast, Nat.mul_succ]
      omega
    _ ≤ periodCycles t d s := Nat.mul_le_mul_left d hplace

/-- A TICK that reaches no timer tick adds its cycles to the remainder, and has no overflow (R123, R129). -/
theorem InPeriod.movesOn_below (hlt : (s.timer t).cycleRemainder + n < d) : MovesOn t d n s := by
  have hnone : tickOverflows t d n s = 0 := by simp [tickOverflows, ticksOf, Nat.div_eq_of_lt hlt]
  rcases Nat.eq_zero_or_pos n with rfl | hn
  · have hsame : tick t 0 s = s := Host.Outcome.next.inj (tickZeroCyclesChangesNothing t s)
    exact ⟨hsame.symm ▸ h, by rw [hnone, hsame]; rfl⟩
  · have hcounts := h.after_tick n
    have htick := tick_below_divisor hn h.divisor h.running hlt
    rw [htick] at hcounts
    refine ⟨?inPeriod, ?place⟩
    case inPeriod =>
      rw [htick]
      exact ⟨hcounts, by simpa using h.mem_wf, by simpa using h.course, by simpa using hlt⟩
    case place => simp [hnone, htick, cyclesPast, Nat.add_assoc]

/-- A TICK that reaches a timer tick, and with at most one divisor of cycles only one, is an advance by one place. -/
theorem InPeriod.movesOn_reaching (hn : n ≤ d) (hreach : d ≤ (s.timer t).cycleRemainder + n) : MovesOn t d n s := by
  have hrem := h.remainder_lt
  have hone : ticksOf t d n s = 1 := Nat.div_eq_of_lt_le (by omega) (by omega)
  have hcarry : ((s.timer t).cycleRemainder + n) % d = (s.timer t).cycleRemainder + n - d := by
    rw [Nat.mod_eq_sub_mod hreach, Nat.mod_eq_of_lt (by omega)]
  have hb : IsBatch t n d s := ⟨h.toCounts, by omega, hreach⟩
  have htimer := hb.timer
  have hcount := hb.count h.mem_wf
  rw [hone, hcarry, batchTimer] at htimer
  rw [htimer] at hcount
  have hover : tickOverflows t d n s =
      (advance (s.countKind t) (s.count t) 1 (s.top t) (s.timer t).countDown).overflow.toNat := by
    simp [tickOverflows, hone, htimer, Bool.toNat, Bool.cond_eq_ite]
  have hkind := countKind_tick h.cfg t n
  obtain ⟨-, -, htop, -⟩ := tick_keeps_control h.cfg t n
  obtain ⟨hcourse, hplace⟩ := h.course.advance_one
  refine ⟨⟨h.after_tick n, (tick_step t n s).wf h.mem_wf, ?course, ?remainder⟩, ?place⟩
  case course =>
    rw [hcount, htop, hkind, htimer]
    exact hcourse
  case remainder =>
    rw [htimer]
    dsimp only
    omega
  case place =>
    have hcycles := congrArg (d * ·) hplace
    simp only [Nat.mul_add, ← Nat.mul_assoc, Nat.mul_one] at hcycles
    rw [cyclesPast, cyclesPast, periodCycles, hcount, htop, hkind, htimer, hover]
    dsimp only
    omega

theorem InPeriod.movesOn (hn : n ≤ d) : MovesOn t d n s := by
  rcases Nat.lt_or_ge ((s.timer t).cycleRemainder + n) d with hlt | hreach
  · exact h.movesOn_below hlt
  · exact h.movesOn_reaching hn hreach

/-- The overflows of a sequence of TICK calls are the whole periods in the timer's place and the cycles (R366). -/
theorem InPeriod.overflowCount_eq {ns : List Nat} (hns : ∀ n ∈ ns, n ≤ d) :
    overflowCount t d ns s = (cyclesPast t d s + ns.sum) / periodCycles t d s := by
  induction ns generalizing s with
  | nil => exact (Nat.div_eq_of_lt h.cyclesPast_lt).symm
  | cons n ns ih =>
    obtain ⟨hnext, hmove⟩ := h.movesOn (hns n List.mem_cons_self)
    have hpos : 0 < periodCycles t d s := Nat.zero_lt_of_lt h.cyclesPast_lt
    have hrest := ih hnext fun m hm => hns m (List.mem_cons_of_mem n hm)
    rw [periodCycles_tick h.cfg] at hrest
    rw [overflowCount_cons, hrest, List.sum_cons, ← Nat.add_assoc, ← hmove, Nat.add_right_comm,
      Nat.add_mul_div_left _ _ hpos, Nat.add_comm]

end

/-- Settles O23: a timer at counter 0 and remainder 0 is at a place of its period, which is no cycle past an overflow in
a mode that counts up, and half a period past one in a symmetric mode. -/
theorem timerOverflowPeriod : Obligations.TimerOverflowPeriod := by
  intro t d ns s hacc hw hd hns hrem hzero htop top
  have hpos : 0 < d := (hacc.facts.divisor_bounds hd).1
  have inPeriod (hk : s.countKind t ≠ .frozen)
      (hcourse : OnCourse (s.count t) (s.top t) (s.timer t).countDown (s.countKind t)) : InPeriod t d s :=
    ⟨⟨hacc.facts, hd, hk⟩, hw, hcourse, hrem ▸ hpos⟩
  refine ⟨fun hup => ?up, fun hsym hdir => ?sym⟩
  case up =>
    have h := inPeriod (by simp [hup]) (by rwa [hzero, hup])
    rw [h.overflowCount_eq hns, cyclesPast, periodCycles, hup, hzero, hrem]
    simp [ticksPast, periodTicks, Nat.mul_comm, top]
  case sym =>
    have h := inPeriod (by simp [hsym]) (by rwa [hzero, hsym, hdir])
    rw [h.overflowCount_eq hns, cyclesPast, periodCycles, hsym, hdir, hzero, hrem]
    simp [ticksPast, periodTicks, Nat.mul_comm, Nat.add_comm, top]

end Sys2Proof.Machine
end
